-- ==== Sys2Proof/Word.lean ====
section
/-! DEFINITION. The widths of the hardware's data (00_scope.md R7, R10; 20_memory.md R51): a register
or address is a word of 32 bits, an instruction is a half-word of 16 bits, memory holds bytes. -/

namespace Sys2Proof

/-- A 32-bit register value or address; `+` and `-` on it are modulo 2^32 (R10). -/
abbrev Word := BitVec 32

/-- A 16-bit half-word: the size of every Thumb instruction (R80). -/
abbrev Half := BitVec 16

/-- One byte of memory (R50). -/
abbrev Byte := BitVec 8

/-- A 3-bit register field: it names one of r0 to r7 by its unsigned value (R12). -/
abbrev Lo := BitVec 3

/-- A 4-bit register number: r0 to r15 (R12). -/
abbrev RegNum := BitVec 4

end Sys2Proof
end

