-- ==== Sys2Proof/Machine/Bytes.lean ====
section
/-! DEFINITION. Byte order: how the bytes at rising addresses make a half-word or a word
(20_memory.md R52). `big` is the parameter `BIGEND`. -/

namespace Sys2Proof.Machine

/-- The half-word whose byte at the lower address is `b0` (R52). -/
def joinHalf (big : Bool) (b0 b1 : Byte) : Half :=
  if big then b0 ++ b1 else b1 ++ b0

/-- The word whose bytes at rising addresses are `b0`, `b1`, `b2`, `b3` (R52). -/
def joinWord (big : Bool) (b0 b1 b2 b3 : Byte) : Word :=
  if big then b0 ++ b1 ++ b2 ++ b3 else b3 ++ b2 ++ b1 ++ b0

/-- The bytes of a half-word at rising addresses (R52). -/
def splitHalf (big : Bool) (h : Half) : List Byte :=
  if big then [h.extractLsb' 8 8, h.extractLsb' 0 8] else [h.extractLsb' 0 8, h.extractLsb' 8 8]

/-- The bytes of a word at rising addresses (R52). -/
def splitWord (big : Bool) (w : Word) : List Byte :=
  if big then [w.extractLsb' 24 8, w.extractLsb' 16 8, w.extractLsb' 8 8, w.extractLsb' 0 8]
  else [w.extractLsb' 0 8, w.extractLsb' 8 8, w.extractLsb' 16 8, w.extractLsb' 24 8]

end Sys2Proof.Machine
end

