-- ==== Sys2Proof/Machine/Psr.lean ====
section
/-! DEFINITION. The processor modes and the layout of a program status register (10_state.md R27,
R31, R32). -/

namespace Sys2Proof.Machine

/-- The seven processor modes of R31. A mode number outside the table is no mode, so a state cannot
hold one. -/
inductive Mode where
  | user | fiq | irq | supervisor | abort | undefined | system
deriving DecidableEq, Repr, Inhabited

/-- CPSR[4:0] of each mode (R31; numbers PRESUMED by the spec itself, K9). -/
def Mode.number : Mode → BitVec 5
  | .user => 0b10000#5
  | .fiq => 0b10001#5
  | .irq => 0b10010#5
  | .supervisor => 0b10011#5
  | .abort => 0b10111#5
  | .undefined => 0b11011#5
  | .system => 0b11111#5

/-- The mode of a 5-bit number; `none` for a number that is no mode (R31). -/
def Mode.ofNumber (n : BitVec 5) : Option Mode :=
  [Mode.user, .fiq, .irq, .supervisor, .abort, .undefined, .system].find? (fun m => m.number == n)

/-- Only User mode is unprivileged (R31, R268). -/
def Mode.privileged : Mode → Bool
  | .user => false
  | .fiq | .irq | .supervisor | .abort | .undefined | .system => true

/-- A program status register, field by field as R27 lays it out: the CPSR, and each SPSR (R32). -/
structure Psr where
  /-- bit 31, negative -/
  n : Bool
  /-- bit 30, zero -/
  z : Bool
  /-- bit 29, carry -/
  c : Bool
  /-- bit 28, overflow -/
  v : Bool
  /-- bits 27:8, opaque: no Thumb instruction reads or writes them (R27, D21) -/
  unused : BitVec 20
  /-- bit 7, IRQ disabled when set (R29) -/
  i : Bool
  /-- bit 6, FIQ disabled when set (R29) -/
  f : Bool
  /-- bit 5, Thumb state when set (R30) -/
  t : Bool
  /-- bits 4:0 (R31) -/
  mode : Mode
deriving DecidableEq, Repr, Inhabited

/-- The 32-bit value of a status register: bits "31 28 27 8 7 6 5 4 0" over "NZCV unused IF T mode"
(R27). -/
def Psr.toWord (p : Psr) : Word :=
  BitVec.ofBool p.n ++ BitVec.ofBool p.z ++ BitVec.ofBool p.c ++ BitVec.ofBool p.v ++ p.unused ++
    BitVec.ofBool p.i ++ BitVec.ofBool p.f ++ BitVec.ofBool p.t ++ p.mode.number

/-- The status register a 32-bit value stands for; `none` where bits 4:0 are no mode (R27, R31). -/
def Psr.ofWord (w : Word) : Option Psr :=
  (Mode.ofNumber (w.extractLsb' 0 5)).map fun m =>
    { n := w.getLsbD 31, z := w.getLsbD 30, c := w.getLsbD 29, v := w.getLsbD 28,
      unused := w.extractLsb' 8 20, i := w.getLsbD 7, f := w.getLsbD 6, t := w.getLsbD 5, mode := m }

end Sys2Proof.Machine
end

