-- ==== Sys2Proof/Config.lean ====
section
/-! DEFINITION. What an implementation or a platform fixes (00_scope.md R8, 92_eei_decisions.md) and
the model's free values. The parameters are plain data held in the state, so that a claim about every
state is a claim about every choice of them; no step changes them. -/

namespace Sys2Proof

/-- The kind of a memory access (20_memory.md R58). -/
inductive AccessKind where
  | fetch | read | write
deriving DecidableEq, Repr

/-- The size of a memory access: 1, 2 or 4 bytes (R51, R54). -/
inductive Width where
  | byte | half | word
deriving DecidableEq, Repr

/-- One part of the predicate `MemAdmit(addr, n, kind)` (R58): an access is admitted by a region when
all its bytes lie in it and the region has its kind and its width. Any such predicate over a 32-bit
space is a list of regions. -/
structure Region where
  base : Nat
  size : Nat
  kinds : List AccessKind
  widths : List Width
deriving DecidableEq, Repr

/-- A set of addresses: the `size` addresses from `base` on, and so none where `size` is 0 (the form is a
DESIGN CHOICE, assumption log 14). -/
structure AddrRange where
  base : Nat
  size : Nat
deriving DecidableEq, Repr

/-- The two host actions the spec defines for `SWI_HOST` (41_swi.md R142). -/
inductive HostAction where
  /-- append `x[0][7:0]` to the output stream -/
  | writeC
  /-- end the run -/
  | exit
deriving DecidableEq, Repr

/-- The levels of the two interrupt request inputs at one instruction boundary (R8, R262). -/
structure Lines where
  irq : Bool
  fiq : Bool
deriving DecidableEq, Repr

/-- The parameters of R8 that stay fixed for a run, and two choices that the spec leaves to a model. -/
structure Params where
  /-- `ARCH5T` (D2): true for architecture v5T, false for an earlier one with Thumb. -/
  arch5t : Bool
  /-- `BIGEND` (D3): the byte order of data and of instruction fetch. -/
  bigEnd : Bool
  /-- `MemAdmit` (D6): the regions whose union it is. -/
  memMap : List Region
  /-- The code region: the set of addresses the launch declares as code (D8, R63, R291). -/
  code : List AddrRange
  /-- `SWI_HOST` (D11): `none` when SWI is the architectural exception. -/
  swiHost : Option (List (BitVec 8 × HostAction))
  /-- false: a refused access is `fault NotAdmitted` (R58, D6). true: it is the Prefetch Abort or the
  Data Abort of 60_exceptions.md R255, R256, which R58 lets a model raise instead. -/
  abortTraps : Bool
  /-- false: an encoding that is no instruction is `fault UndefinedInstruction` (R106, D9). true: it
  is the Undefined Instruction exception of R254. -/
  undefTraps : Bool
deriving DecidableEq, Repr

/-- The host table whose two entries R142 fixes. -/
def Config.standardHost : List (BitVec 8 × HostAction) :=
  [(0x00#8, .writeC), (0x11#8, .exit)]

/-- The parameters at reset (DESIGN CHOICE, assumption log 2): v5T, little-endian, every access of the
4 GiB space admitted, no code region, architectural SWI, and the spec's own faults. -/
def Config.resetParams : Params where
  arch5t := true
  bigEnd := false
  memMap := [⟨0, 4294967296, [.fetch, .read, .write], [.byte, .half, .word]⟩]
  code := []
  swiHost := none
  abortTraps := false
  undefTraps := false

/-- Free value: the `draw` of the C flag by MUL before v5T (42_data_processing.md R177, D15), a fresh
one for each value of the state's counter `draws`. -/
opaque Config.freeBit : Nat → Bool

/-- Free value: what a register or a memory word holds where the spec defines nothing (60_exceptions.md
R256 after a data abort, R259 for r14_svc at reset). -/
opaque Config.freeWord : Nat → Word

/-- Free value: what SPSR_svc receives when Reset is taken (R259). -/
opaque Config.freePsr : Nat → Machine.Psr

end Sys2Proof
end

