-- ==== Sys2Proof/Machine/State.lean ====
section
/-! DEFINITION. The machine's state, every piece of it that 10_state.md and 70_reset_and_hazards.md
give the processor, as plain data; the reasons a step can stop; and the state after reset. -/

namespace Sys2Proof.Machine

/-- The state of the processor and its memory.

`regs` holds the thirty banked general registers in this order (R20, R23): 0 to 7 are r0 to r7; 8 to
12 are r8 to r12 of every mode but FIQ; 13 to 17 are r8_fiq to r12_fiq; 18 to 23 are r13 of
User/System, FIQ, IRQ, Supervisor, Abort, Undefined; 24 to 29 are r14 of the same six. -/
structure State where
  /-- the banked registers r0 to r14 -/
  regs : Vector Word 30
  /-- the address of the instruction being executed (R24) -/
  pc : Word
  /-- current program status register (R27) -/
  cpsr : Psr
  /-- saved program status registers, one for each exception mode (R23, R32) -/
  spsrFiq : Psr
  spsrIrq : Psr
  spsrSvc : Psr
  spsrAbt : Psr
  spsrUnd : Psr
  /-- the byte-addressed memory of R50: (address, byte), addresses rising, no entry equal to what an
  unlisted address reads as -/
  mem : List Host.Cell
  /-- the parameters of R8, fixed for a run -/
  params : Params
  /-- the interrupt inputs over time (R8, R262): their levels at this and the following instruction
  boundaries; not asserted after the end of the list -/
  lines : List Lines
  /-- the output stream of `SWI_HOST` (R142, R291) -/
  output : List Byte
  /-- a host Exit has ended the run (R142, R299) -/
  ended : Bool
  /-- the model's own counter: how many free values have been drawn -/
  draws : Nat
deriving DecidableEq, Repr

/-- The faults of 93_implementation_defined.md section 1: the model gives no value to what the spec
refuses to define. Each is safe: the model stops where the hardware does something the spec leaves
open. -/
inductive Fault where
  /-- A half-word or word access at an address that is no multiple of its size (R53). Raised by loads,
  stores and multiple transfers. Safe. -/
  | misaligned
  /-- An access that `MemAdmit` refuses (R58) while `abortTraps` is false. Raised by the fetch, loads,
  stores and multiple transfers. Safe. -/
  | notAdmitted
  /-- A store into the declared code region (R63). Raised by stores. Safe. -/
  | codeWrite
  /-- An operand combination of R107, or a BL suffix with LR odd (R123). Safe. -/
  | unpredictable
  /-- An encoding that is no instruction (R106) while `undefTraps` is false. Safe. -/
  | undefinedInstruction
  /-- A sequential advance from 0xFFFFFFFE (R26). Safe. -/
  | pcWrap
  /-- A multiple transfer whose address sequence passes 0xFFFFFFFF (R66). Safe. -/
  | addressWrap
deriving DecidableEq, Repr

/-- Why a step has no meaning. -/
inductive Refusal where
  /-- An instruction of the opcode table without a meaning yet. Raised by no arm of `exec`. Safe. -/
  | notModelled (mnemonic : String)
  /-- The processor is in ARM state (T = 0), which the spec leaves opaque: the ending "left Thumb
  state" (R299, D1). Raised by `step`. Safe. -/
  | armState
  /-- A host Exit has ended the run: the ending "exit" (R142, R299). Raised by `step`. Safe. -/
  | runEnded
deriving DecidableEq, Repr

/-- What a step answers. -/
abbrev Result := Host.Outcome State Fault Refusal

/-- The value the model gives an SPSR at reset (DESIGN CHOICE, assumption log 3: R37 gives none). -/
def Psr.resetSaved : Psr :=
  { n := false, z := false, c := false, v := false, unused := 0#20, i := false, f := false,
    t := false, mode := .user }

/-- The CPSR after reset (R37): I = F = 1, T = 0, Supervisor; the flags and bits 27:8, which R37
leaves unspecified, are zero (DESIGN CHOICE, assumption log 3). -/
def Psr.resetCurrent : Psr :=
  { n := false, z := false, c := false, v := false, unused := 0#20, i := true, f := true,
    t := false, mode := .supervisor }

/-- The machine after reset (R37, R290): ARM state, Supervisor mode, pc = 0, both interrupts disabled.
The registers R37 leaves unspecified are zero (DESIGN CHOICE, assumption log 3). -/
def State.reset : State where
  regs := Vector.replicate 30 0#32
  pc := 0#32
  cpsr := Psr.resetCurrent
  spsrFiq := Psr.resetSaved
  spsrIrq := Psr.resetSaved
  spsrSvc := Psr.resetSaved
  spsrAbt := Psr.resetSaved
  spsrUnd := Psr.resetSaved
  mem := []
  params := Config.resetParams
  lines := []
  output := []
  ended := false
  draws := 0

end Sys2Proof.Machine
end

