-- ==== Sys2Proof/Machine/Flags.lean ====
section
/-! DEFINITION. The arithmetic and the flags of the data-processing instructions (42_data_processing.md
R150 to R152) and the conditions of the conditional branch (30_encoding.md R103). Sums and shifts are
computed exactly and narrowed at the end, as R150 and R151 write them. -/

namespace Sys2Proof.Machine

/-- What an addition yields: the 32-bit result, the carry out and the signed overflow (R150). -/
structure AddResult where
  value : Word
  carry : Bool
  overflow : Bool
deriving DecidableEq, Repr

/-- `AddWithCarry(a, b, c)` of R150. -/
def addWithCarry (a b : Word) (c : Bool) : AddResult :=
  let usum : Nat := a.toNat + b.toNat + c.toNat
  let ssum : Int := a.toInt + b.toInt + (c.toNat : Int)
  let result : Word := BitVec.ofNat 32 usum
  { value := result, carry := decide (2 ^ 32 ≤ usum), overflow := decide (result.toInt ≠ ssum) }

/-- The subtraction `a - b`, which is `AddWithCarry(a, NOT b, 1)` (R150). -/
def subtract (a b : Word) : AddResult := addWithCarry a (~~~b) true

/-- What a shift yields: the result, and the new C flag where the shift writes it (R151). -/
structure ShiftResult where
  value : Word
  carry : Option Bool
deriving DecidableEq, Repr

/-- `LSL_C(v, n)`, 1 ≤ n ≤ 32 (R151). -/
def lslC (v : Word) (n : Nat) : ShiftResult :=
  ⟨BitVec.ofNat 32 (v.toNat * 2 ^ n), some (v.getLsbD (32 - n))⟩

/-- `LSR_C(v, n)`, 1 ≤ n ≤ 32 (R151). -/
def lsrC (v : Word) (n : Nat) : ShiftResult :=
  ⟨BitVec.ofNat 32 (v.toNat / 2 ^ n), some (v.getLsbD (n - 1))⟩

/-- `ASR_C(v, n)`, 1 ≤ n ≤ 32: the floor of the signed quotient (R151). -/
def asrC (v : Word) (n : Nat) : ShiftResult :=
  ⟨BitVec.ofInt 32 (Int.fdiv v.toInt (2 ^ n)), some (v.getLsbD (n - 1))⟩

/-- `ROR_C(v, n)`, 1 ≤ n ≤ 31 (R151). -/
def rorC (v : Word) (n : Nat) : ShiftResult :=
  ⟨BitVec.ofNat 32 (v.toNat / 2 ^ n) ||| BitVec.ofNat 32 (v.toNat * 2 ^ (32 - n)),
    some (v.getLsbD (n - 1))⟩

/-- LSL by an immediate: amount 0 keeps the value and C (R151, R161). -/
def lslByImm (v : Word) (sh : BitVec 5) : ShiftResult :=
  if sh = 0#5 then ⟨v, none⟩ else lslC v sh.toNat

/-- The amount of LSR and ASR by an immediate: field 0 means 32 (R151, R162, R163). -/
def rightAmount (sh : BitVec 5) : Nat := if sh = 0#5 then 32 else sh.toNat

/-- LSR by an immediate (R162). -/
def lsrByImm (v : Word) (sh : BitVec 5) : ShiftResult := lsrC v (rightAmount sh)

/-- ASR by an immediate (R163). -/
def asrByImm (v : Word) (sh : BitVec 5) : ShiftResult := asrC v (rightAmount sh)

/-- The amount of a shift by a register: the low byte of `Rs` (R151). -/
def shiftAmount (rs : Word) : Nat := (rs.extractLsb' 0 8).toNat

/-- LSL by a register amount (R166). -/
def lslByReg (v : Word) (n : Nat) : ShiftResult :=
  if n = 0 then ⟨v, none⟩
  else if n < 32 then lslC v n
  else if n = 32 then ⟨0#32, some (v.getLsbD 0)⟩
  else ⟨0#32, some false⟩

/-- LSR by a register amount (R167). -/
def lsrByReg (v : Word) (n : Nat) : ShiftResult :=
  if n = 0 then ⟨v, none⟩
  else if n < 32 then lsrC v n
  else if n = 32 then ⟨0#32, some (v.getLsbD 31)⟩
  else ⟨0#32, some false⟩

/-- ASR by a register amount (R168). -/
def asrByReg (v : Word) (n : Nat) : ShiftResult :=
  if n = 0 then ⟨v, none⟩
  else if n < 32 then asrC v n
  else ⟨if v.getLsbD 31 then 0xFFFFFFFF#32 else 0#32, some (v.getLsbD 31)⟩

/-- ROR by a register amount (R171). -/
def rorByReg (v : Word) (n : Nat) : ShiftResult :=
  if n = 0 then ⟨v, none⟩
  else if n % 32 = 0 then ⟨v, some (v.getLsbD 31)⟩
  else rorC v (n % 32)

/-- `setNZ(r)` (R11). -/
def Psr.setNZ (p : Psr) (r : Word) : Psr := { p with n := r.getLsbD 31, z := r == 0#32 }

/-- N, Z, C, V after an addition, a subtraction or a comparison (R152). -/
def Psr.setArith (p : Psr) (a : AddResult) : Psr :=
  { p.setNZ a.value with c := a.carry, v := a.overflow }

/-- N, Z and, where the shift writes it, C (R152). -/
def Psr.setShift (p : Psr) (r : ShiftResult) : Psr :=
  { p.setNZ r.value with c := r.carry.getD p.c }

/-- The conditions of branch format 1 (R103). -/
inductive Cond where
  | eq | ne | cs | cc | mi | pl | vs | vc | hi | ls | ge | lt | gt | le
deriving DecidableEq, Repr

/-- `CondHolds(cond)` on the flags (R103). -/
def condHolds (p : Psr) : Cond → Bool
  | .eq => p.z
  | .ne => !p.z
  | .cs => p.c
  | .cc => !p.c
  | .mi => p.n
  | .pl => !p.n
  | .vs => p.v
  | .vc => !p.v
  | .hi => p.c && !p.z
  | .ls => !p.c || p.z
  | .ge => p.n == p.v
  | .lt => p.n != p.v
  | .gt => !p.z && p.n == p.v
  | .le => p.z || p.n != p.v

end Sys2Proof.Machine
end

