-- ==== Sys2Proof/Machine/Ops.lean ====
section
/-! DEFINITION. The named operations over registers and memory, taking an exception and returning from
one, and the ways an instruction ends. -/

namespace Sys2Proof.Machine

/-! ### Registers (10_state.md R20 to R26) -/

/-- The bank of r13 and r14 a mode uses (R23). -/
def Mode.bank : Mode → Nat
  | .user | .system => 0
  | .fiq => 1
  | .irq => 2
  | .supervisor => 3
  | .abort => 4
  | .undefined => 5

/-- Where register `r` (r0 to r14) of mode `m` lies in `State.regs` (R23). -/
def slot (m : Mode) (r : RegNum) : Fin 30 :=
  if r.toNat < 8 then Fin.ofNat 30 r.toNat
  else if r.toNat < 13 then (if m = .fiq then Fin.ofNat 30 (r.toNat + 5) else Fin.ofNat 30 r.toNat)
  else if r.toNat = 13 then Fin.ofNat 30 (18 + m.bank)
  else Fin.ofNat 30 (24 + m.bank)

/-- Register `r` of mode `m`'s bank; `r` is not 15. -/
def State.bankReg (s : State) (m : Mode) (r : RegNum) : Word := s.regs.get (slot m r)

/-- `x[r]`: register `r` in the current mode; r15 reads as `pc + 4` (R11, R24). -/
def State.reg (s : State) (r : RegNum) : Word :=
  if r = 15#4 then s.pc + 4#32 else s.bankReg s.cpsr.mode r

/-- Writes register `r` (not 15) of mode `m`'s bank. -/
def State.setBankReg (s : State) (m : Mode) (r : RegNum) (v : Word) : State :=
  { s with regs := s.regs.set (slot m r) v }

/-- `pc <- target` of a Thumb target: bit 0 is forced to 0 (R26). -/
def State.setThumbPc (s : State) (target : Word) : State := { s with pc := target &&& 0xFFFFFFFE#32 }

/-- `x[r] <- v`; a write to r15 is a branch in Thumb state (R11, R26, R181, R183). -/
def State.setReg (s : State) (r : RegNum) (v : Word) : State :=
  if r = 15#4 then s.setThumbPc v else s.setBankReg s.cpsr.mode r v

/-- The number of a Lo register (R12). -/
def loNum (r : Lo) : RegNum := r.setWidth 4

/-- `x[r]` for a Lo register. -/
def State.lo (s : State) (r : Lo) : Word := s.reg (loNum r)

/-- `x[r] <- v` for a Lo register. -/
def State.setLo (s : State) (r : Lo) (v : Word) : State := s.setReg (loNum r) v

/-- SP is x[13], LR is x[14] (R22). -/
def State.sp (s : State) : Word := s.reg 13#4

def State.lr (s : State) : Word := s.reg 14#4

def State.setSp (s : State) (v : Word) : State := s.setReg 13#4 v

def State.setLr (s : State) (v : Word) : State := s.setReg 14#4 v

/-- `pc <- pc + 2`, which every instruction that does not write the PC ends with (R25); from 0xFFFFFFFE
it is `fault PcWrap` (R26). -/
def advance (s : State) : Result :=
  if s.pc = 0xFFFFFFFE#32 then .fault .pcWrap else .next { s with pc := s.pc + 2#32 }

/-- The SPSR of a mode; User and System have none (R23, R32). -/
def State.spsr (s : State) : Mode → Option Psr
  | .user | .system => none
  | .fiq => some s.spsrFiq
  | .irq => some s.spsrIrq
  | .supervisor => some s.spsrSvc
  | .abort => some s.spsrAbt
  | .undefined => some s.spsrUnd

/-- Writes the SPSR of a mode; User and System have none to write. -/
def State.setSpsr (s : State) (m : Mode) (p : Psr) : State :=
  match m with
  | .user | .system => s
  | .fiq => { s with spsrFiq := p }
  | .irq => { s with spsrIrq := p }
  | .supervisor => { s with spsrSvc := p }
  | .abort => { s with spsrAbt := p }
  | .undefined => { s with spsrUnd := p }

/-! ### Taking an exception and returning from one (60_exceptions.md) -/

/-- The seven exceptions (R250). -/
inductive Exception where
  | reset | undefined | swi | prefetchAbort | dataAbort | irq | fiq
deriving DecidableEq, Repr

/-- The mode an exception enters (R260). -/
def Exception.mode : Exception → Mode
  | .reset | .swi => .supervisor
  | .undefined => .undefined
  | .prefetchAbort | .dataAbort => .abort
  | .irq => .irq
  | .fiq => .fiq

/-- The address an exception goes to (R260). -/
def Exception.vector : Exception → Word
  | .reset => 0x00000000#32
  | .undefined => 0x00000004#32
  | .swi => 0x00000008#32
  | .prefetchAbort => 0x0000000C#32
  | .dataAbort => 0x00000010#32
  | .irq => 0x00000018#32
  | .fiq => 0x0000001C#32

/-- What the link value adds to `pc`, the address of the instruction that caused the exception or, for
IRQ and FIQ, of the next one to execute (R261); Reset's link is not defined. -/
def Exception.linkOffset : Exception → Word
  | .reset => 0#32
  | .undefined | .swi => 2#32
  | .prefetchAbort | .irq | .fiq => 4#32
  | .dataAbort => 8#32

/-- What the handler's return instruction subtracts from r14 (R261); none returns from Reset. -/
def Exception.returnOffset : Exception → Option Word
  | .reset => none
  | .undefined | .swi => some 0#32
  | .prefetchAbort | .irq | .fiq => some 4#32
  | .dataAbort => some 8#32

/-- Entry to Reset and FIQ also disables FIQ (R252). -/
def Exception.disablesFiq : Exception → Bool
  | .reset | .fiq => true
  | .undefined | .swi | .prefetchAbort | .dataAbort | .irq => false

/-- The CPSR after the entry: the exception's mode, ARM state, IRQ disabled (R252). -/
def Psr.entered (p : Psr) (e : Exception) : Psr :=
  { p with mode := e.mode, t := false, i := true, f := p.f || e.disablesFiq }

/-- `R14_<mode(E)> <- link`, `SPSR_<mode(E)> <- saved`, the new CPSR and `pc <- vector(E)` (R252). -/
def enterException (e : Exception) (link : Word) (saved : Psr) (s : State) : State :=
  { (s.setBankReg e.mode 14#4 link).setSpsr e.mode saved with
    cpsr := s.cpsr.entered e, pc := e.vector }

/-- Taking an exception in Thumb state (R252). Reset leaves r14_svc and SPSR_svc undefined (R259): they
get free values. DESIGN CHOICE (assumption log 11, unsafe): Reset keeps every other register of every
bank, the flags, CPSR[27:8], the other SPSRs and memory, as R252 says of every entry, although R37 and
R290 give them no value after a reset. -/
def takeException (e : Exception) (s : State) : State :=
  match e with
  | .reset =>
    { enterException e (Config.freeWord s.draws) (Config.freePsr s.draws) s with
      draws := s.draws + 1 }
  | .undefined | .swi | .prefetchAbort | .dataAbort | .irq | .fiq =>
    enterException e (s.pc + e.linkOffset) s.cpsr s

/-- The return from an exception as the Thumb program sees it (R266): the CPSR is the current mode's
SPSR and the pc the link value less the offset of R261; `none` after Reset and in a mode with no SPSR.
The instruction that does it is an ARM instruction, outside the spec. -/
def returnFrom (e : Exception) (s : State) : Option State :=
  match e.returnOffset, s.spsr s.cpsr.mode with
  | some k, some saved => some { s with pc := s.lr - k, cpsr := saved }
  | _, _ => none

/-- An encoding that is no instruction: `fault UndefinedInstruction` (R106, D9), or the exception of
R254 where the parameter `undefTraps` asks for it. -/
def undefinedInstruction (s : State) : Result :=
  if s.params.undefTraps then .next (takeException .undefined s) else .fault .undefinedInstruction

/-- The levels of the interrupt inputs now (R262). -/
def State.linesNow (s : State) : Lines := s.lines.headD ⟨false, false⟩

/-- The interrupt due at this instruction boundary, FIQ before IRQ (R257, R258, R264). -/
def State.dueInterrupt (s : State) : Option Exception :=
  if s.linesNow.fiq && !s.cpsr.f then some .fiq
  else if s.linesNow.irq && !s.cpsr.i then some .irq
  else none

/-- The inputs move on by one instruction boundary. -/
def State.tick (s : State) : State := { s with lines := s.lines.tail }

/-! ### Memory (20_memory.md) -/

/-- Memory as a canonical list of cells. -/
abbrev Memory := List Host.Cell

/-- What an unlisted address reads as (DESIGN CHOICE, assumption log 4: the spec gives memory no
contents of its own). -/
def Memory.blank : Byte := 0#8

/-- The canonical form: addresses strictly rising and inside the 32-bit space (R50), no entry equal to
what an unlisted address reads as. -/
abbrev Memory.wf (m : Memory) : Prop :=
  m.Pairwise (fun c d => c.1 < d.1) ∧ ∀ c ∈ m, c.1 < 4294967296 ∧ c.2 ≠ Memory.blank

/-- The byte at address `a`. -/
def Memory.read : Memory → Nat → Byte
  | [], _ => Memory.blank
  | (k, b) :: m, a => if a = k then b else Memory.read m a

/-- Memory with byte `b` at address `a`, in canonical form. -/
def Memory.write : Memory → Nat → Byte → Memory
  | [], a, b => if b = Memory.blank then [] else [(a, b)]
  | (k, c) :: m, a, b =>
    if a < k then (if b = Memory.blank then (k, c) :: m else (a, b) :: (k, c) :: m)
    else if a = k then (if b = Memory.blank then m else (a, b) :: m)
    else (k, c) :: Memory.write m a b

/-- Writes bytes at `a` and the addresses above it. -/
def Memory.writeBytes (m : Memory) (a : Nat) : List Byte → Memory
  | [] => m
  | b :: bs => Memory.writeBytes (m.write a b) (a + 1) bs

/-- The byte at address `a` of the machine's memory. -/
def State.byteAt (s : State) (a : Nat) : Byte := Memory.read s.mem a

/-- The number of bytes of an access (R51). -/
def widthBytes : Width → Nat
  | .byte => 1
  | .half => 2
  | .word => 4

/-- Natural alignment (R53). -/
def alignedTo (w : Width) (addr : Word) : Bool := addr.toNat % widthBytes w == 0

/-- The region admits the access (R58). -/
def regionAdmits (r : Region) (w : Width) (kind : AccessKind) (a : Nat) : Bool :=
  decide (r.base ≤ a) && decide (a + widthBytes w ≤ r.base + r.size) &&
    r.kinds.contains kind && r.widths.contains w

/-- `MemAdmit(addr, n, kind)` (R58). -/
def State.admits (s : State) (w : Width) (kind : AccessKind) (addr : Word) : Bool :=
  s.params.memMap.any fun r => regionAdmits r w kind addr.toNat

/-- Some address is in the range and among the `n` addresses from `a`. -/
def rangeMeets (r : AddrRange) (a n : Nat) : Bool :=
  decide (max r.base a < min (r.base + r.size) (a + n))

/-- Some byte of the access lies in the code region (R63), which is the union of its ranges; an empty
range has no address and so holds no byte of an access (assumption log 14). -/
def State.inCode (s : State) (w : Width) (addr : Word) : Bool :=
  s.params.code.any fun c => rangeMeets c addr.toNat (widthBytes w)

/-- The value of the bytes of an access, zero-extended to a word (R52, R54). -/
def State.load (s : State) (w : Width) (addr : Word) : Word :=
  let a := addr.toNat
  match w with
  | .byte => (s.byteAt a).setWidth 32
  | .half => (joinHalf s.params.bigEnd (s.byteAt a) (s.byteAt (a + 1))).setWidth 32
  | .word =>
    joinWord s.params.bigEnd (s.byteAt a) (s.byteAt (a + 1)) (s.byteAt (a + 2)) (s.byteAt (a + 3))

/-- The bytes an access stores: the low 8, 16 or all 32 bits of `v` (R51, R52). -/
def storeBytes (big : Bool) (w : Width) (v : Word) : List Byte :=
  match w with
  | .byte => [v.extractLsb' 0 8]
  | .half => splitHalf big (v.extractLsb' 0 16)
  | .word => splitWord big v

/-- The state with the bytes of `v` stored at `addr` (R54). -/
def State.store (s : State) (w : Width) (addr v : Word) : State :=
  { s with mem := Memory.writeBytes s.mem addr.toNat (storeBytes s.params.bigEnd w v) }

/-- Why an access is not performed. -/
inductive MemStop where
  /-- misaligned (R53) -/
  | misaligned
  /-- a store into the code region (R63) -/
  | code
  /-- `MemAdmit` refuses it (R58) -/
  | refused
  /-- a multiple transfer that passes 0xFFFFFFFF (R66) -/
  | wrap
deriving DecidableEq, Repr

/-- `MemRead(addr, n)`: alignment is checked first, then admission (R54). -/
def memRead (w : Width) (kind : AccessKind) (addr : Word) (s : State) : Except MemStop Word :=
  if !alignedTo w addr then .error .misaligned
  else if !s.admits w kind addr then .error .refused
  else .ok (s.load w addr)

/-- `MemWrite(addr, n, v)`: alignment, then the code region, then admission (R54, R63). -/
def memWrite (w : Width) (addr v : Word) (s : State) : Except MemStop State :=
  if !alignedTo w addr then .error .misaligned
  else if s.inCode w addr then .error .code
  else if !s.admits w .write addr then .error .refused
  else .ok (s.store w addr v)

/-- The address of the `k`-th word of a multiple transfer (R230). -/
def wordAddr (start : Word) (k : Nat) : Word := start + BitVec.ofNat 32 (4 * k)

/-- Reads `n` words at ascending addresses (R57, R230). -/
def readWords : Nat → Word → State → Except MemStop (List Word)
  | 0, _, _ => .ok []
  | n + 1, addr, s =>
    match memRead .word .read addr s with
    | .error e => .error e
    | .ok v =>
      match readWords n (addr + 4#32) s with
      | .error e => .error e
      | .ok vs => .ok (v :: vs)

/-- Writes words at ascending addresses (R57, R230). -/
def writeWords : List Word → Word → State → Except MemStop State
  | [], _, s => .ok s
  | v :: vs, addr, s =>
    match memWrite .word addr v s with
    | .error e => .error e
    | .ok s' => writeWords vs (addr + 4#32) s'

/-- The address sequence of `n` words from `start` passes 0xFFFFFFFF (R66, R238; DEDUCED, assumption
log 9: the address after the last word counts). -/
def passesTop (start : Word) (n : Nat) : Bool := decide (4294967296 ≤ start.toNat + 4 * n)

/-- The reads of a multiple load: the start address and the range first (R238). -/
def multiRead (n : Nat) (start : Word) (s : State) : Except MemStop (List Word) :=
  if !alignedTo .word start then .error .misaligned
  else if passesTop start n then .error .wrap
  else readWords n start s

/-- The writes of a multiple store: the start address and the range first (R238). -/
def multiWrite (vs : List Word) (start : Word) (s : State) : Except MemStop State :=
  if !alignedTo .word start then .error .misaligned
  else if passesTop start vs.length then .error .wrap
  else writeWords vs start s

/-! ### Free values, and what a data abort leaves open (R256) -/

/-- Register `r` takes a free value. -/
def State.freeReg (s : State) (r : RegNum) : State :=
  { s.setReg r (Config.freeWord s.draws) with draws := s.draws + 1 }

/-- Each register of the list takes a free value. -/
def State.freeRegs (s : State) (rs : List RegNum) : State := rs.foldl State.freeReg s

/-- The word at `addr` takes a free value, where a store could have reached it. -/
def State.freeStored (s : State) (addr : Word) : State :=
  match memWrite .word addr (Config.freeWord s.draws) s with
  | .ok s' => { s' with draws := s'.draws + 1 }
  | .error _ => s

/-- The `n` words from `start` each take a free value, where a store could have reached them. -/
def State.freeStoredWords (s : State) (start : Word) (n : Nat) : State :=
  (List.range n).foldl (fun t k => t.freeStored (wordAddr start k)) s

/-- The end of an instruction whose access is not performed: the fault of its reason, or, where the
parameter `abortTraps` asks for it, the Data Abort for a refused one (R58, R256). `left` is the state
the aborted instruction leaves, free wherever R256 leaves it open. -/
def accessStop (e : MemStop) (left : State) : Result :=
  match e with
  | .misaligned => .fault .misaligned
  | .code => .fault .codeWrite
  | .wrap => .fault .addressWrap
  | .refused =>
    if left.params.abortTraps then .next (takeException .dataAbort left) else .fault .notAdmitted

/-! ### How an instruction ends -/

/-- Writes `Rd` and N, Z, C, V (R152). -/
def finishArith (rd : Lo) (a : AddResult) (s : State) : Result :=
  advance { s.setLo rd a.value with cpsr := s.cpsr.setArith a }

/-- Writes N, Z, C, V and discards the result (R152). -/
def finishCompare (a : AddResult) (s : State) : Result :=
  advance { s with cpsr := s.cpsr.setArith a }

/-- Writes `Rd`, N and Z (R152). -/
def finishLogic (rd : Lo) (r : Word) (s : State) : Result :=
  advance { s.setLo rd r with cpsr := s.cpsr.setNZ r }

/-- Writes N and Z and discards the result (R172). -/
def finishTest (r : Word) (s : State) : Result :=
  advance { s with cpsr := s.cpsr.setNZ r }

/-- Writes `Rd`, N, Z and, where the shift writes it, C (R152). -/
def finishShift (rd : Lo) (r : ShiftResult) (s : State) : Result :=
  advance { s.setLo rd r.value with cpsr := s.cpsr.setShift r }

/-- Writes a register and no flag; a write to r15 is a branch (R181, R183). -/
def finishMove (rd : RegNum) (v : Word) (s : State) : Result :=
  if rd = 15#4 then .next (s.setReg rd v) else advance (s.setReg rd v)

/-- A load of one datum into `rd`. `base` is the base register, free after a Data Abort (R256). -/
def finishLoad (rd : Lo) (base : List RegNum) (w : Width) (extend : Word → Word) (addr : Word)
    (s : State) : Result :=
  match memRead w .read addr s with
  | .ok v => advance (s.setLo rd (extend v))
  | .error e => accessStop e (s.freeRegs (loNum rd :: base))

/-- A store of the low bits of `v`. `base` is the base register, free after a Data Abort (R256). -/
def finishStore (base : List RegNum) (w : Width) (addr v : Word) (s : State) : Result :=
  match memWrite w addr v s with
  | .ok s' => advance s'
  | .error e => accessStop e (s.freeRegs base)

/-- The exchange of BX and BLX: bit 0 of `v` selects the state (R125). -/
def exchange (v : Word) (s : State) : Result :=
  if v.getLsbD 0 then
    .next { s.setThumbPc v with cpsr := { s.cpsr with t := true } }
  else if v.getLsbD 1 then .fault .unpredictable
  else .next { s with pc := v, cpsr := { s.cpsr with t := false } }

/-- A branch to `pc + 4 + off` (R120, R121). -/
def branchBy (off : Word) (s : State) : Result := .next { s with pc := s.pc + 4#32 + off }

/-- A conditional branch: `pc + 4 + off` when the condition holds, else `pc + 2` (R120). -/
def branchIf (cond : Cond) (off : Word) (s : State) : Result :=
  if condHolds s.cpsr cond then branchBy off s else advance s

end Sys2Proof.Machine
end

