-- ==== Sys2Proof/Machine/Operands.lean ====
section
/-! DEFINITION. The operand forms: how each immediate is assembled (30_encoding.md R104), the values
read from the PC, the effective addresses and the register lists. -/

namespace Sys2Proof.Machine

/-! ### Immediates -/

/-- An unsigned immediate scaled by `2 ^ k` (R104). -/
def scaled {n : Nat} (k : Nat) (imm : BitVec n) : Word := imm.setWidth 32 <<< k

/-- `sext_32(off8 : 0)` of branch format 1. -/
def offset8 (off8 : BitVec 8) : Word := (off8 ++ 0#1).signExtend 32

/-- `sext_32(off11 : 0)` of branch format 2. -/
def offset11 (off11 : BitVec 11) : Word := (off11 ++ 0#1).signExtend 32

/-- `sext_32(off11) << 12` of the BL prefix. -/
def offsetHigh (off11 : BitVec 11) : Word := off11.signExtend 32 <<< 12

/-- `zext_32(off11) << 1` of the BL suffix. -/
def offsetLow (off11 : BitVec 11) : Word := off11.setWidth 32 <<< 1

/-- `zext_32(instr[10:0]) << 1` of the BLX suffix, whose bit 0 is 0. -/
def offsetLowX (off10 : BitVec 10) : Word := (off10 ++ 0#1).setWidth 32 <<< 1

/-! ### The PC as an operand -/

/-- `(pc + 4) AND 0xFFFFFFFC` (R24, R184, R216). -/
def State.pcBase (s : State) : Word := (s.pc + 4#32) &&& 0xFFFFFFFC#32

/-- The link value of BL and BLX: `pc + 3`, the next instruction with bit 0 set (R123, R124, R126). -/
def State.linkValue (s : State) : Word := s.pc + 3#32

/-! ### Effective addresses (43_load_store_single.md R200), modulo 2^32 (R66) -/

/-- `x[Rn] + (zext_32(off5) << k)`: k = 2, 1, 0 for a word, a half-word, a byte (R201 to R206). -/
def addrOff5 (k : Nat) (rn : Lo) (off5 : BitVec 5) (s : State) : Word := s.lo rn + scaled k off5

/-- `x[Rn] + x[Rm]` (R220). -/
def addrIndexed (rn rm : Lo) (s : State) : Word := s.lo rn + s.lo rm

/-- The PC-relative address of R216. -/
def addrPcOff8 (off8 : BitVec 8) (s : State) : Word := s.pcBase + scaled 2 off8

/-- The SP-relative address of R217 and R218. -/
def addrSpOff8 (off8 : BitVec 8) (s : State) : Word := s.sp + scaled 2 off8

/-! ### Extension of a loaded datum (R51) -/

/-- A datum that the access has already zero-extended. -/
def extendZero (v : Word) : Word := v

/-- `sext_32` of a byte: bit 7 into bits 31:8 (R210). -/
def extendByte (v : Word) : Word := (v.setWidth 8).signExtend 32

/-- `sext_32` of a half-word: bit 15 into bits 31:16 (R214). -/
def extendHalf (v : Word) : Word := (v.setWidth 16).signExtend 32

/-! ### Register lists (44_load_store_multiple.md R230) -/

/-- The registers of a list in ascending number: bit i stands for r_i. -/
def listRegs (l : BitVec 8) : List Lo :=
  [0#3, 1#3, 2#3, 3#3, 4#3, 5#3, 6#3, 7#3].filter fun r => l.getLsbD r.toNat

/-- The registers of a list as register numbers. -/
def listNums (l : BitVec 8) : List RegNum := (listRegs l).map loNum

/-- How many registers are in the list. -/
def listCount (l : BitVec 8) : Nat := (listRegs l).length

/-- Writes each register of the list with the value at its place. -/
def State.setList (s : State) (rs : List Lo) (vs : List Word) : State :=
  (rs.zip vs).foldl (fun t p => t.setLo p.1 p.2) s

end Sys2Proof.Machine
end

