-- ==== Sys2Proof/Machine/Branch.lean ====
section
/-! DEFINITION. The branch instructions (40_branch.md). -/

namespace Sys2Proof.Machine

/-! ### B<cond> (R120, with the conditions of R103) -/

/-- `BEQ label`: taken when Z = 1. -/
def execBeq (off8 : BitVec 8) (s : State) : Result := branchIf .eq (offset8 off8) s

/-- `BNE label`: taken when Z = 0. -/
def execBne (off8 : BitVec 8) (s : State) : Result := branchIf .ne (offset8 off8) s

/-- `BCS label`: taken when C = 1. -/
def execBcs (off8 : BitVec 8) (s : State) : Result := branchIf .cs (offset8 off8) s

/-- `BCC label`: taken when C = 0. -/
def execBcc (off8 : BitVec 8) (s : State) : Result := branchIf .cc (offset8 off8) s

/-- `BMI label`: taken when N = 1. -/
def execBmi (off8 : BitVec 8) (s : State) : Result := branchIf .mi (offset8 off8) s

/-- `BPL label`: taken when N = 0. -/
def execBpl (off8 : BitVec 8) (s : State) : Result := branchIf .pl (offset8 off8) s

/-- `BVS label`: taken when V = 1. -/
def execBvs (off8 : BitVec 8) (s : State) : Result := branchIf .vs (offset8 off8) s

/-- `BVC label`: taken when V = 0. -/
def execBvc (off8 : BitVec 8) (s : State) : Result := branchIf .vc (offset8 off8) s

/-- `BHI label`: taken when C = 1 and Z = 0. -/
def execBhi (off8 : BitVec 8) (s : State) : Result := branchIf .hi (offset8 off8) s

/-- `BLS label`: taken when C = 0 or Z = 1. -/
def execBls (off8 : BitVec 8) (s : State) : Result := branchIf .ls (offset8 off8) s

/-- `BGE label`: taken when N = V. -/
def execBge (off8 : BitVec 8) (s : State) : Result := branchIf .ge (offset8 off8) s

/-- `BLT label`: taken when N ≠ V. -/
def execBlt (off8 : BitVec 8) (s : State) : Result := branchIf .lt (offset8 off8) s

/-- `BGT label`: taken when Z = 0 and N = V. -/
def execBgt (off8 : BitVec 8) (s : State) : Result := branchIf .gt (offset8 off8) s

/-- `BLE label`: taken when Z = 1 or N ≠ V. -/
def execBle (off8 : BitVec 8) (s : State) : Result := branchIf .le (offset8 off8) s

/-! ### B, BL and BLX to a label -/

/-- `B label` (R121). -/
def execB (off11 : BitVec 11) (s : State) : Result := branchBy (offset11 off11) s

/-- The first half of `BL label` and `BLX label` (R122). -/
def execBlPrefix (off11 : BitVec 11) (s : State) : Result :=
  advance (s.setLr (s.pc + 4#32 + offsetHigh off11))

/-- The second half of `BL label` (R123). The target comes from the old LR; an odd target, from an odd
LR, is `fault Unpredictable` (D19). -/
def execBlSuffix (off11 : BitVec 11) (s : State) : Result :=
  let target := s.lr + offsetLow off11
  if s.lr.getLsbD 0 then .fault .unpredictable
  else .next { s.setLr s.linkValue with pc := target }

/-- The second half of `BLX label` (R124); undefined before v5T. It always enters ARM state. -/
def execBlxSuffix (off10 : BitVec 10) (s : State) : Result :=
  if !s.params.arch5t then undefinedInstruction s
  else
    let target := (s.lr + offsetLowX off10) &&& 0xFFFFFFFC#32
    .next { s.setLr s.linkValue with pc := target, cpsr := { s.cpsr with t := false } }

/-! ### BX and BLX to a register -/

/-- `BX Rm` (R125). -/
def execBx (rm : RegNum) (sbz : BitVec 3) (s : State) : Result :=
  if sbz ≠ 0#3 then .fault .unpredictable else exchange (s.reg rm) s

/-- `BLX Rm` (R126); undefined before v5T. Rm is read before LR is written. -/
def execBlxReg (rm : RegNum) (sbz : BitVec 3) (s : State) : Result :=
  if !s.params.arch5t then undefinedInstruction s
  else if sbz ≠ 0#3 then .fault .unpredictable
  else if rm = 15#4 then .fault .unpredictable
  else exchange (s.reg rm) (s.setLr s.linkValue)

end Sys2Proof.Machine
end

