-- ==== Sys2Proof/Machine/DataProc.lean ====
section
/-! DEFINITION. The data-processing instructions on Lo registers, formats 1 to 5
(42_data_processing.md R153 to R179, R190). -/

namespace Sys2Proof.Machine

/-! ### Formats 1 and 2 -/

/-- `ADD Rd, Rn, Rm` (R153). -/
def execAddReg (rd rn rm : Lo) (s : State) : Result :=
  finishArith rd (addWithCarry (s.lo rn) (s.lo rm) false) s

/-- `SUB Rd, Rn, Rm` (R154). -/
def execSubReg (rd rn rm : Lo) (s : State) : Result :=
  finishArith rd (subtract (s.lo rn) (s.lo rm)) s

/-- `ADD Rd, Rn, #imm3` (R155). -/
def execAddImm3 (rd rn : Lo) (imm3 : BitVec 3) (s : State) : Result :=
  finishArith rd (addWithCarry (s.lo rn) (scaled 0 imm3) false) s

/-- `SUB Rd, Rn, #imm3` (R156). -/
def execSubImm3 (rd rn : Lo) (imm3 : BitVec 3) (s : State) : Result :=
  finishArith rd (subtract (s.lo rn) (scaled 0 imm3)) s

/-! ### Format 3 -/

/-- `MOV Rd, #imm8` (R157). -/
def execMovImm8 (rd : Lo) (imm8 : BitVec 8) (s : State) : Result :=
  finishLogic rd (scaled 0 imm8) s

/-- `CMP Rn, #imm8` (R158). -/
def execCmpImm8 (rn : Lo) (imm8 : BitVec 8) (s : State) : Result :=
  finishCompare (subtract (s.lo rn) (scaled 0 imm8)) s

/-- `ADD Rd, #imm8` (R159). -/
def execAddImm8 (rd : Lo) (imm8 : BitVec 8) (s : State) : Result :=
  finishArith rd (addWithCarry (s.lo rd) (scaled 0 imm8) false) s

/-- `SUB Rd, #imm8` (R160). -/
def execSubImm8 (rd : Lo) (imm8 : BitVec 8) (s : State) : Result :=
  finishArith rd (subtract (s.lo rd) (scaled 0 imm8)) s

/-! ### Format 4 -/

/-- `LSL Rd, Rm, #sh` (R161). -/
def execLslImm (rd rm : Lo) (sh : BitVec 5) (s : State) : Result :=
  finishShift rd (lslByImm (s.lo rm) sh) s

/-- `LSR Rd, Rm, #sh` (R162). -/
def execLsrImm (rd rm : Lo) (sh : BitVec 5) (s : State) : Result :=
  finishShift rd (lsrByImm (s.lo rm) sh) s

/-- `ASR Rd, Rm, #sh` (R163). -/
def execAsrImm (rd rm : Lo) (sh : BitVec 5) (s : State) : Result :=
  finishShift rd (asrByImm (s.lo rm) sh) s

/-! ### Format 5 -/

/-- `AND Rd, Rm` (R164). -/
def execAndReg (rd rm : Lo) (s : State) : Result :=
  finishLogic rd (s.lo rd &&& s.lo rm) s

/-- `EOR Rd, Rm` (R165). -/
def execEorReg (rd rm : Lo) (s : State) : Result :=
  finishLogic rd (s.lo rd ^^^ s.lo rm) s

/-- `LSL Rd, Rs` (R166). -/
def execLslReg (rd rs : Lo) (s : State) : Result :=
  finishShift rd (lslByReg (s.lo rd) (shiftAmount (s.lo rs))) s

/-- `LSR Rd, Rs` (R167). -/
def execLsrReg (rd rs : Lo) (s : State) : Result :=
  finishShift rd (lsrByReg (s.lo rd) (shiftAmount (s.lo rs))) s

/-- `ASR Rd, Rs` (R168). -/
def execAsrReg (rd rs : Lo) (s : State) : Result :=
  finishShift rd (asrByReg (s.lo rd) (shiftAmount (s.lo rs))) s

/-- `ADC Rd, Rm` (R169). -/
def execAdcReg (rd rm : Lo) (s : State) : Result :=
  finishArith rd (addWithCarry (s.lo rd) (s.lo rm) s.cpsr.c) s

/-- `SBC Rd, Rm` (R170). -/
def execSbcReg (rd rm : Lo) (s : State) : Result :=
  finishArith rd (addWithCarry (s.lo rd) (~~~s.lo rm) s.cpsr.c) s

/-- `ROR Rd, Rs` (R171). -/
def execRorReg (rd rs : Lo) (s : State) : Result :=
  finishShift rd (rorByReg (s.lo rd) (shiftAmount (s.lo rs))) s

/-- `TST Rn, Rm` (R172). -/
def execTstReg (rn rm : Lo) (s : State) : Result :=
  finishTest (s.lo rn &&& s.lo rm) s

/-- `NEG Rd, Rm` (R173). -/
def execNegReg (rd rm : Lo) (s : State) : Result :=
  finishArith rd (addWithCarry (~~~s.lo rm) 0#32 true) s

/-- `CMP Rn, Rm`, Lo registers (R174). -/
def execCmpReg (rn rm : Lo) (s : State) : Result :=
  finishCompare (subtract (s.lo rn) (s.lo rm)) s

/-- `CMN Rn, Rm` (R175). -/
def execCmnReg (rn rm : Lo) (s : State) : Result :=
  finishCompare (addWithCarry (s.lo rn) (s.lo rm) false) s

/-- `ORR Rd, Rm` (R176). -/
def execOrrReg (rd rm : Lo) (s : State) : Result :=
  finishLogic rd (s.lo rd ||| s.lo rm) s

/-- `MUL Rd, Rm` (R177): N and Z are written; C is kept from v5T on and a free value before it (D15). -/
def execMulReg (rd rm : Lo) (s : State) : Result :=
  let r := BitVec.ofNat 32 ((s.lo rd).toNat * (s.lo rm).toNat)
  if s.params.arch5t then finishLogic rd r s
  else
    finishShift rd ⟨r, some (Config.freeBit s.draws)⟩ { s with draws := s.draws + 1 }

/-- `BIC Rd, Rm` (R178). -/
def execBicReg (rd rm : Lo) (s : State) : Result :=
  finishLogic rd (s.lo rd &&& ~~~s.lo rm) s

/-- `MVN Rd, Rm` (R179). -/
def execMvnReg (rd rm : Lo) (s : State) : Result :=
  finishLogic rd (~~~s.lo rm) s

end Sys2Proof.Machine
end

