-- ==== Sys2Proof/Syntax.lean ====
section
/-! DEFINITION. The instructions: one constructor for each row of spec/opcode_table.json, in the
table's order, each operand a bit vector of its field's width (30_encoding.md R82 to R102). -/

namespace Sys2Proof

/-- The Thumb instructions. `rd`, `rn`, `rm`, `rs` of three bits name Lo registers; of four bits, any
register, with the high-register bit on top (R12). -/
inductive Instr where
  -- data-processing formats 1 and 2
  | addReg (rd rn rm : Lo)
  | subReg (rd rn rm : Lo)
  | addImm3 (rd rn : Lo) (imm3 : BitVec 3)
  | subImm3 (rd rn : Lo) (imm3 : BitVec 3)
  -- data-processing format 3
  | movImm8 (rd : Lo) (imm8 : BitVec 8)
  | cmpImm8 (rn : Lo) (imm8 : BitVec 8)
  | addImm8 (rd : Lo) (imm8 : BitVec 8)
  | subImm8 (rd : Lo) (imm8 : BitVec 8)
  -- data-processing format 4
  | lslImm (rd rm : Lo) (sh : BitVec 5)
  | lsrImm (rd rm : Lo) (sh : BitVec 5)
  | asrImm (rd rm : Lo) (sh : BitVec 5)
  -- data-processing format 5
  | andReg (rd rm : Lo)
  | eorReg (rd rm : Lo)
  | lslReg (rd rs : Lo)
  | lsrReg (rd rs : Lo)
  | asrReg (rd rs : Lo)
  | adcReg (rd rm : Lo)
  | sbcReg (rd rm : Lo)
  | rorReg (rd rs : Lo)
  | tstReg (rn rm : Lo)
  | negReg (rd rm : Lo)
  | cmpReg (rn rm : Lo)
  | cmnReg (rn rm : Lo)
  | orrReg (rd rm : Lo)
  | mulReg (rd rm : Lo)
  | bicReg (rd rm : Lo)
  | mvnReg (rd rm : Lo)
  -- data-processing format 6 (Hi registers)
  | addHi (rd rm : RegNum)
  | cmpHi (rn rm : RegNum)
  | movHi (rd rm : RegNum)
  -- data-processing formats 7 and 8
  | addRdPc (rd : Lo) (imm8 : BitVec 8)
  | addRdSp (rd : Lo) (imm8 : BitVec 8)
  | addSp (imm7 : BitVec 7)
  | subSp (imm7 : BitVec 7)
  -- branch format 1
  | beq (off8 : BitVec 8)
  | bne (off8 : BitVec 8)
  | bcs (off8 : BitVec 8)
  | bcc (off8 : BitVec 8)
  | bmi (off8 : BitVec 8)
  | bpl (off8 : BitVec 8)
  | bvs (off8 : BitVec 8)
  | bvc (off8 : BitVec 8)
  | bhi (off8 : BitVec 8)
  | bls (off8 : BitVec 8)
  | bge (off8 : BitVec 8)
  | blt (off8 : BitVec 8)
  | bgt (off8 : BitVec 8)
  | ble (off8 : BitVec 8)
  -- branch formats 2, 3, 3a, 4
  | b (off11 : BitVec 11)
  | blPrefix (off11 : BitVec 11)
  | blSuffix (off11 : BitVec 11)
  | blxSuffix (off10 : BitVec 10)
  | bx (rm : RegNum) (sbz : BitVec 3)
  | blxReg (rm : RegNum) (sbz : BitVec 3)
  -- software interrupt
  | swi (imm8 : BitVec 8)
  -- load/store formats 1 and 2
  | strImm (rd rn : Lo) (off5 : BitVec 5)
  | ldrImm (rd rn : Lo) (off5 : BitVec 5)
  | strbImm (rd rn : Lo) (off5 : BitVec 5)
  | ldrbImm (rd rn : Lo) (off5 : BitVec 5)
  | strhImm (rd rn : Lo) (off5 : BitVec 5)
  | ldrhImm (rd rn : Lo) (off5 : BitVec 5)
  -- load/store format 3
  | strReg (rd rn rm : Lo)
  | strhReg (rd rn rm : Lo)
  | strbReg (rd rn rm : Lo)
  | ldrsbReg (rd rn rm : Lo)
  | ldrReg (rd rn rm : Lo)
  | ldrhReg (rd rn rm : Lo)
  | ldrbReg (rd rn rm : Lo)
  | ldrshReg (rd rn rm : Lo)
  -- load/store formats 4 and 5
  | ldrPc (rd : Lo) (off8 : BitVec 8)
  | strSp (rd : Lo) (off8 : BitVec 8)
  | ldrSp (rd : Lo) (off8 : BitVec 8)
  -- multiple formats 1 and 2; `r` adds LR (PUSH) or PC (POP)
  | stmia (rn : Lo) (reglist : BitVec 8)
  | ldmia (rn : Lo) (reglist : BitVec 8)
  | push (r : Bool) (reglist : BitVec 8)
  | pop (r : Bool) (reglist : BitVec 8)
deriving DecidableEq, Repr

end Sys2Proof
end

