-- ==== Sys2Proof/WellFormed.lean ====
section
/-! DEFINITION. The operand combinations that decode to a real instruction but that the spec gives no
meaning (30_encoding.md R107): the ones that the instruction alone shows. -/

namespace Sys2Proof

/-- At least one register of a format 6 instruction is a Hi register, D = 1 or M = 1 (R107, R180). -/
def WellFormed.namesHi (d m : RegNum) : Bool := d.getLsbD 3 || m.getLsbD 3

/-- Some register below `rn` is in the list (R232). -/
def WellFormed.lowerInList (rn : Lo) (reglist : BitVec 8) : Bool :=
  (List.range 8).any fun j => decide (j < rn.toNat) && reglist.getLsbD j

/-- The constraints of R107 that an instruction's fields alone decide. -/
def Instr.wellFormed : Instr → Bool
  | .addHi rd rm => WellFormed.namesHi rd rm
  | .cmpHi rn rm => WellFormed.namesHi rn rm && rn != 15#4
  | .movHi rd rm => WellFormed.namesHi rd rm
  | .bx _ sbz => sbz == 0#3
  | .blxReg rm sbz => sbz == 0#3 && rm != 15#4
  | .stmia rn l => l != 0#8 && !(l.getLsbD rn.toNat && WellFormed.lowerInList rn l)
  | .ldmia _ l => l != 0#8
  | .push r l => r || l != 0#8
  | .pop r l => r || l != 0#8
  | .addReg .. | .subReg .. | .addImm3 .. | .subImm3 .. | .movImm8 .. | .cmpImm8 .. | .addImm8 ..
  | .subImm8 .. | .lslImm .. | .lsrImm .. | .asrImm .. | .andReg .. | .eorReg .. | .lslReg ..
  | .lsrReg .. | .asrReg .. | .adcReg .. | .sbcReg .. | .rorReg .. | .tstReg .. | .negReg ..
  | .cmpReg .. | .cmnReg .. | .orrReg .. | .mulReg .. | .bicReg .. | .mvnReg .. | .addRdPc ..
  | .addRdSp .. | .addSp .. | .subSp .. | .beq .. | .bne .. | .bcs .. | .bcc .. | .bmi .. | .bpl ..
  | .bvs .. | .bvc .. | .bhi .. | .bls .. | .bge .. | .blt .. | .bgt .. | .ble .. | .b ..
  | .blPrefix .. | .blSuffix .. | .blxSuffix .. | .swi .. | .strImm .. | .ldrImm .. | .strbImm ..
  | .ldrbImm .. | .strhImm .. | .ldrhImm .. | .strReg .. | .strhReg .. | .strbReg .. | .ldrsbReg ..
  | .ldrReg .. | .ldrhReg .. | .ldrbReg .. | .ldrshReg .. | .ldrPc .. | .strSp .. | .ldrSp .. => true

end Sys2Proof
end

