-- ==== Sys2Proof/Machine/HiRegs.lean ====
section
/-! DEFINITION. The data-processing instructions on Hi registers, the PC and the SP, formats 6 to 8
(42_data_processing.md R180 to R187). Only CMP changes flags (R152). -/

namespace Sys2Proof.Machine

/-- `ADD Rd, Rm`, Hi registers (R181). -/
def execAddHi (rd rm : RegNum) (s : State) : Result :=
  if WellFormed.namesHi rd rm then finishMove rd (s.reg rd + s.reg rm) s
  else .fault .unpredictable

/-- `CMP Rn, Rm`, Hi registers (R182). -/
def execCmpHi (rn rm : RegNum) (s : State) : Result :=
  if !WellFormed.namesHi rn rm then .fault .unpredictable
  else if rn = 15#4 then .fault .unpredictable
  else finishCompare (subtract (s.reg rn) (s.reg rm)) s

/-- `MOV Rd, Rm`, Hi registers (R183). -/
def execMovHi (rd rm : RegNum) (s : State) : Result :=
  if WellFormed.namesHi rd rm then finishMove rd (s.reg rm) s
  else .fault .unpredictable

/-- `ADD Rd, PC, #imm8*4` (R184). -/
def execAddRdPc (rd : Lo) (imm8 : BitVec 8) (s : State) : Result :=
  finishMove (loNum rd) (s.pcBase + scaled 2 imm8) s

/-- `ADD Rd, SP, #imm8*4` (R185). -/
def execAddRdSp (rd : Lo) (imm8 : BitVec 8) (s : State) : Result :=
  finishMove (loNum rd) (s.sp + scaled 2 imm8) s

/-- `ADD SP, SP, #imm7*4` (R186). -/
def execAddSp (imm7 : BitVec 7) (s : State) : Result :=
  advance (s.setSp (s.sp + scaled 2 imm7))

/-- `SUB SP, SP, #imm7*4` (R187). -/
def execSubSp (imm7 : BitVec 7) (s : State) : Result :=
  advance (s.setSp (s.sp - scaled 2 imm7))

end Sys2Proof.Machine
end

