-- ==== Sys2Proof/Machine/Multiple.lean ====
section
/-! DEFINITION. The multiple register data transfer instructions (44_load_store_multiple.md). -/

namespace Sys2Proof.Machine

/-- The address after a transfer of `n` words from `start`: `start + 4 * n` (R230). -/
def afterWords (start : Word) (n : Nat) : Word := wordAddr start n

/-- The base after LDMIA: written back unless it is in the list, where the loaded value wins (R236). -/
def State.writeBackBase (s : State) (rn : Lo) (l : BitVec 8) (after : Word) : State :=
  if l.getLsbD rn.toNat then s else s.setLo rn after

/-- `STMIA Rn!, {list}` (R232). An empty list, and Rn in the list but not its lowest, are `fault
Unpredictable` (R236, R237). -/
def execStmia (rn : Lo) (l : BitVec 8) (s : State) : Result :=
  let start := s.lo rn
  let values := (listRegs l).map s.lo
  if l = 0#8 then .fault .unpredictable
  else if l.getLsbD rn.toNat && WellFormed.lowerInList rn l then .fault .unpredictable
  else
    match multiWrite values start s with
    | .ok s' => advance (s'.setLo rn (afterWords start (listCount l)))
    | .error e =>
      accessStop e ((s.freeStoredWords start (listCount l)).freeRegs [loNum rn])

/-- `LDMIA Rn!, {list}` (R231). An empty list is `fault Unpredictable` (R237). -/
def execLdmia (rn : Lo) (l : BitVec 8) (s : State) : Result :=
  let start := s.lo rn
  if l = 0#8 then .fault .unpredictable
  else
    match multiRead (listCount l) start s with
    | .ok vs =>
      advance ((s.writeBackBase rn l (afterWords start (listCount l))).setList (listRegs l) vs)
    | .error e => accessStop e (s.freeRegs (loNum rn :: listNums l))

/-- The number of words PUSH and POP move: the list, and one more when R = 1 (R233, R234). -/
def stackCount (r : Bool) (l : BitVec 8) : Nat := listCount l + r.toNat

/-- The lowest address PUSH writes, which is also the new SP: `SP - 4 * n` (R233). -/
def pushStart (r : Bool) (l : BitVec 8) (s : State) : Word :=
  s.sp - BitVec.ofNat 32 (4 * stackCount r l)

/-- The words PUSH stores, at rising addresses: the list, then LR when R = 1 (R233). -/
def pushValues (r : Bool) (l : BitVec 8) (s : State) : List Word :=
  (listRegs l).map s.lo ++ (if r then [s.lr] else [])

/-- `PUSH {list{, lr}}` (R233). -/
def execPush (r : Bool) (l : BitVec 8) (s : State) : Result :=
  let start := pushStart r l s
  if stackCount r l = 0 then .fault .unpredictable
  else
    match multiWrite (pushValues r l s) start s with
    | .ok s' => advance (s'.setSp start)
    | .error e =>
      accessStop e ((s.freeStoredWords start (stackCount r l)).freeRegs [13#4])

/-- The PC loaded by POP: from v5T on as BX takes it, before v5T bit 0 is ignored (R234). -/
def popPc (t : Word) (s : State) : Result :=
  if s.params.arch5t then exchange t s else .next (s.setThumbPc t)

/-- `POP {list{, pc}}` (R234). -/
def execPop (r : Bool) (l : BitVec 8) (s : State) : Result :=
  let n := stackCount r l
  if n = 0 then .fault .unpredictable
  else
    match multiRead n s.sp s with
    | .ok vs =>
      let s' := (s.setList (listRegs l) vs).setSp (afterWords s.sp n)
      if r then popPc (vs.getD (listCount l) 0#32) s' else advance s'
    | .error e => accessStop e (s.freeRegs (13#4 :: listNums l))

end Sys2Proof.Machine
end

