-- ==== Sys2Proof/Machine/Swi.lean ====
section
/-! DEFINITION. The software interrupt instruction (41_swi.md). -/

namespace Sys2Proof.Machine

/-- The host action for a SWI number: none when `SWI_HOST` is absent or has no entry for it (R142). -/
def State.hostAction (s : State) (imm8 : BitVec 8) : Option HostAction :=
  match s.params.swiHost with
  | none => none
  | some entries => (entries.find? fun e => e.1 == imm8).map (·.2)

/-- WriteC appends `x[0][7:0]` to the output stream (R142). -/
def hostWriteC (s : State) : Result :=
  advance { s with output := s.output ++ [(s.lo 0#3).extractLsb' 0 8] }

/-- Exit ends the run: nothing else changes and `pc` stays (R142, R299). -/
def hostExit (s : State) : Result := .next { s with ended := true }

/-- `SWI imm8`: the software interrupt exception (R140, R253), or the host action where `SWI_HOST` has
one for the number (R142). -/
def execSwi (imm8 : BitVec 8) (s : State) : Result :=
  match s.hostAction imm8 with
  | none => .next (takeException .swi s)
  | some .writeC => hostWriteC s
  | some .exit => hostExit s

end Sys2Proof.Machine
end

