-- ==== Sys2Proof/Machine/Transfer.lean ====
section
/-! DEFINITION. The single register data transfer instructions (43_load_store_single.md). -/

namespace Sys2Proof.Machine

/-! ### Formats 1 and 2: 5-bit offset -/

/-- `STR Rd, [Rn, #off5*4]` (R201). -/
def execStrImm (rd rn : Lo) (off5 : BitVec 5) (s : State) : Result :=
  finishStore [loNum rn] .word (addrOff5 2 rn off5 s) (s.lo rd) s

/-- `LDR Rd, [Rn, #off5*4]` (R202). -/
def execLdrImm (rd rn : Lo) (off5 : BitVec 5) (s : State) : Result :=
  finishLoad rd [loNum rn] .word extendZero (addrOff5 2 rn off5 s) s

/-- `STRB Rd, [Rn, #off5]` (R203). -/
def execStrbImm (rd rn : Lo) (off5 : BitVec 5) (s : State) : Result :=
  finishStore [loNum rn] .byte (addrOff5 0 rn off5 s) (s.lo rd) s

/-- `LDRB Rd, [Rn, #off5]` (R204). -/
def execLdrbImm (rd rn : Lo) (off5 : BitVec 5) (s : State) : Result :=
  finishLoad rd [loNum rn] .byte extendZero (addrOff5 0 rn off5 s) s

/-- `STRH Rd, [Rn, #off5*2]` (R205). -/
def execStrhImm (rd rn : Lo) (off5 : BitVec 5) (s : State) : Result :=
  finishStore [loNum rn] .half (addrOff5 1 rn off5 s) (s.lo rd) s

/-- `LDRH Rd, [Rn, #off5*2]` (R206). -/
def execLdrhImm (rd rn : Lo) (off5 : BitVec 5) (s : State) : Result :=
  finishLoad rd [loNum rn] .half extendZero (addrOff5 1 rn off5 s) s

/-! ### Format 3: register offset -/

/-- `STR Rd, [Rn, Rm]` (R207). -/
def execStrReg (rd rn rm : Lo) (s : State) : Result :=
  finishStore [loNum rn] .word (addrIndexed rn rm s) (s.lo rd) s

/-- `STRH Rd, [Rn, Rm]` (R208). -/
def execStrhReg (rd rn rm : Lo) (s : State) : Result :=
  finishStore [loNum rn] .half (addrIndexed rn rm s) (s.lo rd) s

/-- `STRB Rd, [Rn, Rm]` (R209). -/
def execStrbReg (rd rn rm : Lo) (s : State) : Result :=
  finishStore [loNum rn] .byte (addrIndexed rn rm s) (s.lo rd) s

/-- `LDRSB Rd, [Rn, Rm]` (R210). -/
def execLdrsbReg (rd rn rm : Lo) (s : State) : Result :=
  finishLoad rd [loNum rn] .byte extendByte (addrIndexed rn rm s) s

/-- `LDR Rd, [Rn, Rm]` (R211). -/
def execLdrReg (rd rn rm : Lo) (s : State) : Result :=
  finishLoad rd [loNum rn] .word extendZero (addrIndexed rn rm s) s

/-- `LDRH Rd, [Rn, Rm]` (R212). -/
def execLdrhReg (rd rn rm : Lo) (s : State) : Result :=
  finishLoad rd [loNum rn] .half extendZero (addrIndexed rn rm s) s

/-- `LDRB Rd, [Rn, Rm]` (R213). -/
def execLdrbReg (rd rn rm : Lo) (s : State) : Result :=
  finishLoad rd [loNum rn] .byte extendZero (addrIndexed rn rm s) s

/-- `LDRSH Rd, [Rn, Rm]` (R214). -/
def execLdrshReg (rd rn rm : Lo) (s : State) : Result :=
  finishLoad rd [loNum rn] .half extendHalf (addrIndexed rn rm s) s

/-! ### Formats 4 and 5: relative to the PC and to the SP -/

/-- `LDR Rd, [PC, #off8*4]` (R216). -/
def execLdrPc (rd : Lo) (off8 : BitVec 8) (s : State) : Result :=
  finishLoad rd [] .word extendZero (addrPcOff8 off8 s) s

/-- `STR Rd, [SP, #off8*4]` (R217). -/
def execStrSp (rd : Lo) (off8 : BitVec 8) (s : State) : Result :=
  finishStore [13#4] .word (addrSpOff8 off8 s) (s.lo rd) s

/-- `LDR Rd, [SP, #off8*4]` (R218). -/
def execLdrSp (rd : Lo) (off8 : BitVec 8) (s : State) : Result :=
  finishLoad rd [13#4] .word extendZero (addrSpOff8 off8 s) s

end Sys2Proof.Machine
end

