-- ==== Sys2Proof/Machine/Dispatch.lean ====
section
/-! DEFINITION. The meaning of each instruction, one arm for each constructor of `Instr`. -/

namespace Sys2Proof.Machine

def exec (i : Instr) (s : State) : Host.Outcome State Fault Refusal :=
  match i with
  | .addReg rd rn rm => Sys2Proof.Machine.execAddReg rd rn rm s
  | .subReg rd rn rm => Sys2Proof.Machine.execSubReg rd rn rm s
  | .addImm3 rd rn imm3 => Sys2Proof.Machine.execAddImm3 rd rn imm3 s
  | .subImm3 rd rn imm3 => Sys2Proof.Machine.execSubImm3 rd rn imm3 s
  | .movImm8 rd imm8 => Sys2Proof.Machine.execMovImm8 rd imm8 s
  | .cmpImm8 rn imm8 => Sys2Proof.Machine.execCmpImm8 rn imm8 s
  | .addImm8 rd imm8 => Sys2Proof.Machine.execAddImm8 rd imm8 s
  | .subImm8 rd imm8 => Sys2Proof.Machine.execSubImm8 rd imm8 s
  | .lslImm rd rm sh => Sys2Proof.Machine.execLslImm rd rm sh s
  | .lsrImm rd rm sh => Sys2Proof.Machine.execLsrImm rd rm sh s
  | .asrImm rd rm sh => Sys2Proof.Machine.execAsrImm rd rm sh s
  | .andReg rd rm => Sys2Proof.Machine.execAndReg rd rm s
  | .eorReg rd rm => Sys2Proof.Machine.execEorReg rd rm s
  | .lslReg rd rs => Sys2Proof.Machine.execLslReg rd rs s
  | .lsrReg rd rs => Sys2Proof.Machine.execLsrReg rd rs s
  | .asrReg rd rs => Sys2Proof.Machine.execAsrReg rd rs s
  | .adcReg rd rm => Sys2Proof.Machine.execAdcReg rd rm s
  | .sbcReg rd rm => Sys2Proof.Machine.execSbcReg rd rm s
  | .rorReg rd rs => Sys2Proof.Machine.execRorReg rd rs s
  | .tstReg rn rm => Sys2Proof.Machine.execTstReg rn rm s
  | .negReg rd rm => Sys2Proof.Machine.execNegReg rd rm s
  | .cmpReg rn rm => Sys2Proof.Machine.execCmpReg rn rm s
  | .cmnReg rn rm => Sys2Proof.Machine.execCmnReg rn rm s
  | .orrReg rd rm => Sys2Proof.Machine.execOrrReg rd rm s
  | .mulReg rd rm => Sys2Proof.Machine.execMulReg rd rm s
  | .bicReg rd rm => Sys2Proof.Machine.execBicReg rd rm s
  | .mvnReg rd rm => Sys2Proof.Machine.execMvnReg rd rm s
  | .addHi rd rm => Sys2Proof.Machine.execAddHi rd rm s
  | .cmpHi rn rm => Sys2Proof.Machine.execCmpHi rn rm s
  | .movHi rd rm => Sys2Proof.Machine.execMovHi rd rm s
  | .addRdPc rd imm8 => Sys2Proof.Machine.execAddRdPc rd imm8 s
  | .addRdSp rd imm8 => Sys2Proof.Machine.execAddRdSp rd imm8 s
  | .addSp imm7 => Sys2Proof.Machine.execAddSp imm7 s
  | .subSp imm7 => Sys2Proof.Machine.execSubSp imm7 s
  | .beq off8 => Sys2Proof.Machine.execBeq off8 s
  | .bne off8 => Sys2Proof.Machine.execBne off8 s
  | .bcs off8 => Sys2Proof.Machine.execBcs off8 s
  | .bcc off8 => Sys2Proof.Machine.execBcc off8 s
  | .bmi off8 => Sys2Proof.Machine.execBmi off8 s
  | .bpl off8 => Sys2Proof.Machine.execBpl off8 s
  | .bvs off8 => Sys2Proof.Machine.execBvs off8 s
  | .bvc off8 => Sys2Proof.Machine.execBvc off8 s
  | .bhi off8 => Sys2Proof.Machine.execBhi off8 s
  | .bls off8 => Sys2Proof.Machine.execBls off8 s
  | .bge off8 => Sys2Proof.Machine.execBge off8 s
  | .blt off8 => Sys2Proof.Machine.execBlt off8 s
  | .bgt off8 => Sys2Proof.Machine.execBgt off8 s
  | .ble off8 => Sys2Proof.Machine.execBle off8 s
  | .b off11 => Sys2Proof.Machine.execB off11 s
  | .blPrefix off11 => Sys2Proof.Machine.execBlPrefix off11 s
  | .blSuffix off11 => Sys2Proof.Machine.execBlSuffix off11 s
  | .blxSuffix off10 => Sys2Proof.Machine.execBlxSuffix off10 s
  | .bx rm sbz => Sys2Proof.Machine.execBx rm sbz s
  | .blxReg rm sbz => Sys2Proof.Machine.execBlxReg rm sbz s
  | .swi imm8 => Sys2Proof.Machine.execSwi imm8 s
  | .strImm rd rn off5 => Sys2Proof.Machine.execStrImm rd rn off5 s
  | .ldrImm rd rn off5 => Sys2Proof.Machine.execLdrImm rd rn off5 s
  | .strbImm rd rn off5 => Sys2Proof.Machine.execStrbImm rd rn off5 s
  | .ldrbImm rd rn off5 => Sys2Proof.Machine.execLdrbImm rd rn off5 s
  | .strhImm rd rn off5 => Sys2Proof.Machine.execStrhImm rd rn off5 s
  | .ldrhImm rd rn off5 => Sys2Proof.Machine.execLdrhImm rd rn off5 s
  | .strReg rd rn rm => Sys2Proof.Machine.execStrReg rd rn rm s
  | .strhReg rd rn rm => Sys2Proof.Machine.execStrhReg rd rn rm s
  | .strbReg rd rn rm => Sys2Proof.Machine.execStrbReg rd rn rm s
  | .ldrsbReg rd rn rm => Sys2Proof.Machine.execLdrsbReg rd rn rm s
  | .ldrReg rd rn rm => Sys2Proof.Machine.execLdrReg rd rn rm s
  | .ldrhReg rd rn rm => Sys2Proof.Machine.execLdrhReg rd rn rm s
  | .ldrbReg rd rn rm => Sys2Proof.Machine.execLdrbReg rd rn rm s
  | .ldrshReg rd rn rm => Sys2Proof.Machine.execLdrshReg rd rn rm s
  | .ldrPc rd off8 => Sys2Proof.Machine.execLdrPc rd off8 s
  | .strSp rd off8 => Sys2Proof.Machine.execStrSp rd off8 s
  | .ldrSp rd off8 => Sys2Proof.Machine.execLdrSp rd off8 s
  | .stmia rn reglist => Sys2Proof.Machine.execStmia rn reglist s
  | .ldmia rn reglist => Sys2Proof.Machine.execLdmia rn reglist s
  | .push r reglist => Sys2Proof.Machine.execPush r reglist s
  | .pop r reglist => Sys2Proof.Machine.execPop r reglist s

end Sys2Proof.Machine
end

