-- ==== Sys2Proof/Decode.lean ====
section
/-! DEFINITION. From bits to instructions (30_encoding.md R105, R112) and back. The decoder reads the
opcode table as the spec gives it: one row for each instruction, with a mask and the value the masked
bits must have (R114 gives the sub-opcode values). -/

namespace Sys2Proof

/-- Why bytes are no instruction: the three groups of R106 that hold in every architecture version, or
no whole half-word. -/
inductive DecodeError where
  /-- `1011 ....` other than ADD/SUB SP, PUSH and POP -/
  | undefined1011
  /-- `1101 1110 ....`, a conditional branch with cond = 1110 -/
  | undefinedCond1110
  /-- `11101 .......... 1`, a BLX suffix with bit 0 set -/
  | undefinedBlxBit0
  /-- fewer than two bytes -/
  | truncated
deriving DecidableEq, Repr

namespace Decode

/-- Bits 2:0, `Rd` (or `Rn`) of most formats. -/
abbrev low3 (w : Half) : Lo := w.extractLsb' 0 3
/-- Bits 5:3, `Rn`, `Rm` or `Rs`. -/
abbrev mid3 (w : Half) : Lo := w.extractLsb' 3 3
/-- Bits 8:6, `Rm` or `#imm3`. -/
abbrev high3 (w : Half) : Lo := w.extractLsb' 6 3
/-- Bits 10:8, `Rd` or `Rn` of the formats with an 8-bit immediate or list. -/
abbrev reg10 (w : Half) : Lo := w.extractLsb' 8 3
/-- Bits 10:6, `#sh` or `#off5`. -/
abbrev imm5 (w : Half) : BitVec 5 := w.extractLsb' 6 5
/-- Bits 6:0. -/
abbrev imm7 (w : Half) : BitVec 7 := w.extractLsb' 0 7
/-- Bits 7:0. -/
abbrev imm8 (w : Half) : BitVec 8 := w.extractLsb' 0 8
/-- Bits 10:1, the offset of the BLX suffix. -/
abbrev imm10 (w : Half) : BitVec 10 := w.extractLsb' 1 10
/-- Bits 10:0. -/
abbrev imm11 (w : Half) : BitVec 11 := w.extractLsb' 0 11
/-- The register number `D : bits 2:0` of format 6 (R93). -/
abbrev hiD (w : Half) : RegNum := w.extractLsb' 7 1 ++ w.extractLsb' 0 3
/-- The register number `M : bits 5:3` of format 6, `H : bits 5:3` of branch format 4 (R86, R93). -/
abbrev hiM (w : Half) : RegNum := w.extractLsb' 3 4

/-- A row of the opcode table: the half-words `w` with `w &&& mask = pattern`, and the instruction
each one is. -/
structure Row where
  mnemonic : String
  mask : Half
  pattern : Half
  build : Half → Instr

/-- The data-processing rows (R88 to R95). -/
def dataProcessingRows : List Row := [
  -- format 1 (R88)
  ⟨"ADD_Rd__Rn__Rm", 0xFE00#16, 0x1800#16, fun w => .addReg (low3 w) (mid3 w) (high3 w)⟩,
  ⟨"SUB_Rd__Rn__Rm", 0xFE00#16, 0x1A00#16, fun w => .subReg (low3 w) (mid3 w) (high3 w)⟩,
  -- format 2 (R89)
  ⟨"ADD_Rd__Rn___imm3", 0xFE00#16, 0x1C00#16, fun w => .addImm3 (low3 w) (mid3 w) (high3 w)⟩,
  ⟨"SUB_Rd__Rn___imm3", 0xFE00#16, 0x1E00#16, fun w => .subImm3 (low3 w) (mid3 w) (high3 w)⟩,
  -- format 3 (R90)
  ⟨"MOV_Rd___imm8", 0xF800#16, 0x2000#16, fun w => .movImm8 (reg10 w) (imm8 w)⟩,
  ⟨"CMP_Rn___imm8", 0xF800#16, 0x2800#16, fun w => .cmpImm8 (reg10 w) (imm8 w)⟩,
  ⟨"ADD_Rd___imm8", 0xF800#16, 0x3000#16, fun w => .addImm8 (reg10 w) (imm8 w)⟩,
  ⟨"SUB_Rd___imm8", 0xF800#16, 0x3800#16, fun w => .subImm8 (reg10 w) (imm8 w)⟩,
  -- format 4 (R91)
  ⟨"LSL_Rd__Rm___sh", 0xF800#16, 0x0000#16, fun w => .lslImm (low3 w) (mid3 w) (imm5 w)⟩,
  ⟨"LSR_Rd__Rm___sh", 0xF800#16, 0x0800#16, fun w => .lsrImm (low3 w) (mid3 w) (imm5 w)⟩,
  ⟨"ASR_Rd__Rm___sh", 0xF800#16, 0x1000#16, fun w => .asrImm (low3 w) (mid3 w) (imm5 w)⟩,
  -- format 5 (R92)
  ⟨"AND_Rd__Rm", 0xFFC0#16, 0x4000#16, fun w => .andReg (low3 w) (mid3 w)⟩,
  ⟨"EOR_Rd__Rm", 0xFFC0#16, 0x4040#16, fun w => .eorReg (low3 w) (mid3 w)⟩,
  ⟨"LSL_Rd__Rs", 0xFFC0#16, 0x4080#16, fun w => .lslReg (low3 w) (mid3 w)⟩,
  ⟨"LSR_Rd__Rs", 0xFFC0#16, 0x40C0#16, fun w => .lsrReg (low3 w) (mid3 w)⟩,
  ⟨"ASR_Rd__Rs", 0xFFC0#16, 0x4100#16, fun w => .asrReg (low3 w) (mid3 w)⟩,
  ⟨"ADC_Rd__Rm", 0xFFC0#16, 0x4140#16, fun w => .adcReg (low3 w) (mid3 w)⟩,
  ⟨"SBC_Rd__Rm", 0xFFC0#16, 0x4180#16, fun w => .sbcReg (low3 w) (mid3 w)⟩,
  ⟨"ROR_Rd__Rs", 0xFFC0#16, 0x41C0#16, fun w => .rorReg (low3 w) (mid3 w)⟩,
  ⟨"TST_Rn__Rm", 0xFFC0#16, 0x4200#16, fun w => .tstReg (low3 w) (mid3 w)⟩,
  ⟨"NEG_Rd__Rm", 0xFFC0#16, 0x4240#16, fun w => .negReg (low3 w) (mid3 w)⟩,
  ⟨"CMP_Rn__Rm", 0xFFC0#16, 0x4280#16, fun w => .cmpReg (low3 w) (mid3 w)⟩,
  ⟨"CMN_Rn__Rm", 0xFFC0#16, 0x42C0#16, fun w => .cmnReg (low3 w) (mid3 w)⟩,
  ⟨"ORR_Rd__Rm", 0xFFC0#16, 0x4300#16, fun w => .orrReg (low3 w) (mid3 w)⟩,
  ⟨"MUL_Rd__Rm", 0xFFC0#16, 0x4340#16, fun w => .mulReg (low3 w) (mid3 w)⟩,
  ⟨"BIC_Rd__Rm", 0xFFC0#16, 0x4380#16, fun w => .bicReg (low3 w) (mid3 w)⟩,
  ⟨"MVN_Rd__Rm", 0xFFC0#16, 0x43C0#16, fun w => .mvnReg (low3 w) (mid3 w)⟩,
  -- format 6 (R93)
  ⟨"ADD_Rd__Rm__Hi", 0xFF00#16, 0x4400#16, fun w => .addHi (hiD w) (hiM w)⟩,
  ⟨"CMP_Rn__Rm__Hi", 0xFF00#16, 0x4500#16, fun w => .cmpHi (hiD w) (hiM w)⟩,
  ⟨"MOV_Rd__Rm__Hi", 0xFF00#16, 0x4600#16, fun w => .movHi (hiD w) (hiM w)⟩,
  -- format 7 (R94)
  ⟨"ADD_Rd__PC___imm8_4", 0xF800#16, 0xA000#16, fun w => .addRdPc (reg10 w) (imm8 w)⟩,
  ⟨"ADD_Rd__SP___imm8_4", 0xF800#16, 0xA800#16, fun w => .addRdSp (reg10 w) (imm8 w)⟩,
  -- format 8 (R95)
  ⟨"ADD_SP__SP___imm7_4", 0xFF80#16, 0xB000#16, fun w => .addSp (imm7 w)⟩,
  ⟨"SUB_SP__SP___imm7_4", 0xFF80#16, 0xB080#16, fun w => .subSp (imm7 w)⟩ ]

/-- The branch and software interrupt rows (R82 to R87). -/
def branchRows : List Row := [
  -- format 1 (R82)
  ⟨"BEQ_label", 0xFF00#16, 0xD000#16, fun w => .beq (imm8 w)⟩,
  ⟨"BNE_label", 0xFF00#16, 0xD100#16, fun w => .bne (imm8 w)⟩,
  ⟨"BCS_label", 0xFF00#16, 0xD200#16, fun w => .bcs (imm8 w)⟩,
  ⟨"BCC_label", 0xFF00#16, 0xD300#16, fun w => .bcc (imm8 w)⟩,
  ⟨"BMI_label", 0xFF00#16, 0xD400#16, fun w => .bmi (imm8 w)⟩,
  ⟨"BPL_label", 0xFF00#16, 0xD500#16, fun w => .bpl (imm8 w)⟩,
  ⟨"BVS_label", 0xFF00#16, 0xD600#16, fun w => .bvs (imm8 w)⟩,
  ⟨"BVC_label", 0xFF00#16, 0xD700#16, fun w => .bvc (imm8 w)⟩,
  ⟨"BHI_label", 0xFF00#16, 0xD800#16, fun w => .bhi (imm8 w)⟩,
  ⟨"BLS_label", 0xFF00#16, 0xD900#16, fun w => .bls (imm8 w)⟩,
  ⟨"BGE_label", 0xFF00#16, 0xDA00#16, fun w => .bge (imm8 w)⟩,
  ⟨"BLT_label", 0xFF00#16, 0xDB00#16, fun w => .blt (imm8 w)⟩,
  ⟨"BGT_label", 0xFF00#16, 0xDC00#16, fun w => .bgt (imm8 w)⟩,
  ⟨"BLE_label", 0xFF00#16, 0xDD00#16, fun w => .ble (imm8 w)⟩,
  -- format 2 (R83)
  ⟨"B_label", 0xF800#16, 0xE000#16, fun w => .b (imm11 w)⟩,
  -- format 3 (R84)
  ⟨"BL_label__prefix__H_0", 0xF800#16, 0xF000#16, fun w => .blPrefix (imm11 w)⟩,
  ⟨"BL_label__suffix__H_1", 0xF800#16, 0xF800#16, fun w => .blSuffix (imm11 w)⟩,
  -- format 3a (R85)
  ⟨"BLX_label__suffix", 0xF801#16, 0xE800#16, fun w => .blxSuffix (imm10 w)⟩,
  -- format 4 (R86)
  ⟨"BX_Rm", 0xFF80#16, 0x4700#16, fun w => .bx (hiM w) (low3 w)⟩,
  ⟨"BLX_Rm", 0xFF80#16, 0x4780#16, fun w => .blxReg (hiM w) (low3 w)⟩,
  -- software interrupt (R87)
  ⟨"SWI_imm8", 0xFF00#16, 0xDF00#16, fun w => .swi (imm8 w)⟩ ]

/-- The single and multiple transfer rows (R96 to R102). -/
def transferRows : List Row := [
  -- format 1 (R96)
  ⟨"STR_Rd___Rn___off5_4", 0xF800#16, 0x6000#16, fun w => .strImm (low3 w) (mid3 w) (imm5 w)⟩,
  ⟨"LDR_Rd___Rn___off5_4", 0xF800#16, 0x6800#16, fun w => .ldrImm (low3 w) (mid3 w) (imm5 w)⟩,
  ⟨"STRB_Rd___Rn___off5", 0xF800#16, 0x7000#16, fun w => .strbImm (low3 w) (mid3 w) (imm5 w)⟩,
  ⟨"LDRB_Rd___Rn___off5", 0xF800#16, 0x7800#16, fun w => .ldrbImm (low3 w) (mid3 w) (imm5 w)⟩,
  -- format 2 (R97)
  ⟨"STRH_Rd___Rn___off5_2", 0xF800#16, 0x8000#16, fun w => .strhImm (low3 w) (mid3 w) (imm5 w)⟩,
  ⟨"LDRH_Rd___Rn___off5_2", 0xF800#16, 0x8800#16, fun w => .ldrhImm (low3 w) (mid3 w) (imm5 w)⟩,
  -- format 3 (R98)
  ⟨"STR_Rd___Rn__Rm", 0xFE00#16, 0x5000#16, fun w => .strReg (low3 w) (mid3 w) (high3 w)⟩,
  ⟨"STRH_Rd___Rn__Rm", 0xFE00#16, 0x5200#16, fun w => .strhReg (low3 w) (mid3 w) (high3 w)⟩,
  ⟨"STRB_Rd___Rn__Rm", 0xFE00#16, 0x5400#16, fun w => .strbReg (low3 w) (mid3 w) (high3 w)⟩,
  ⟨"LDRSB_Rd___Rn__Rm", 0xFE00#16, 0x5600#16, fun w => .ldrsbReg (low3 w) (mid3 w) (high3 w)⟩,
  ⟨"LDR_Rd___Rn__Rm", 0xFE00#16, 0x5800#16, fun w => .ldrReg (low3 w) (mid3 w) (high3 w)⟩,
  ⟨"LDRH_Rd___Rn__Rm", 0xFE00#16, 0x5A00#16, fun w => .ldrhReg (low3 w) (mid3 w) (high3 w)⟩,
  ⟨"LDRB_Rd___Rn__Rm", 0xFE00#16, 0x5C00#16, fun w => .ldrbReg (low3 w) (mid3 w) (high3 w)⟩,
  ⟨"LDRSH_Rd___Rn__Rm", 0xFE00#16, 0x5E00#16, fun w => .ldrshReg (low3 w) (mid3 w) (high3 w)⟩,
  -- format 4 (R99)
  ⟨"LDR_Rd___PC___off8_4", 0xF800#16, 0x4800#16, fun w => .ldrPc (reg10 w) (imm8 w)⟩,
  -- format 5 (R100)
  ⟨"STR_Rd___SP___off8_4", 0xF800#16, 0x9000#16, fun w => .strSp (reg10 w) (imm8 w)⟩,
  ⟨"LDR_Rd___SP___off8_4", 0xF800#16, 0x9800#16, fun w => .ldrSp (reg10 w) (imm8 w)⟩,
  -- multiple format 1 (R101)
  ⟨"STMIA_Rn____reglist", 0xF800#16, 0xC000#16, fun w => .stmia (reg10 w) (imm8 w)⟩,
  ⟨"LDMIA_Rn____reglist", 0xF800#16, 0xC800#16, fun w => .ldmia (reg10 w) (imm8 w)⟩,
  -- multiple format 2 (R102)
  ⟨"PUSH__reglist___lr", 0xFE00#16, 0xB400#16, fun w => .push (w.getLsbD 8) (imm8 w)⟩,
  ⟨"POP__reglist___pc", 0xFE00#16, 0xBC00#16, fun w => .pop (w.getLsbD 8) (imm8 w)⟩ ]

/-- The opcode table, its 76 rows. -/
def table : List Row := dataProcessingRows ++ branchRows ++ transferRows

/-- The half-word is one of the row's. -/
def Row.covers (r : Row) (w : Half) : Bool := w &&& r.mask == r.pattern

/-- The group of R106 that a half-word covered by no row belongs to. -/
def undefinedGroup (w : Half) : DecodeError :=
  if w.extractLsb' 12 4 = 0b1011#4 then .undefined1011
  else if w.extractLsb' 8 8 = 0b11011110#8 then .undefinedCond1110
  else .undefinedBlxBit0

end Decode

/-- The instruction a half-word is, by R112: the one row of the table that covers it. Whether the BLX
forms exist (`ARCH5T`, R106) is decided by their meanings. -/
def decode (w : Half) : Except DecodeError Instr :=
  match Decode.table.find? (fun r => r.covers w) with
  | some r => .ok (r.build w)
  | none => .error (Decode.undefinedGroup w)

/-- The instruction at the front of a run of bytes, and the bytes after it (R55, R80). -/
def decodeBytes (big : Bool) : List Byte → Except DecodeError (Instr × List Byte)
  | b0 :: b1 :: rest =>
    match decode (Machine.joinHalf big b0 b1) with
    | .ok i => .ok (i, rest)
    | .error e => .error e
  | _ => .error .truncated

/-- The half-word a table row's bits stand for: the low 16 of the `nbits` bits of `w`. -/
def tableHalf (nbits w : Nat) : Half := BitVec.ofNat 16 (w % 2 ^ nbits)

/-- The instruction that the decoder reads from the bits `w` of a row of spec/opcode_table.json, laid
out in memory as a little-endian machine stores them. -/
def decodeTableWord (nbits w : Nat) : Option Instr :=
  match decodeBytes false (Machine.splitHalf false (tableHalf nbits w)) with
  | .ok (i, _) => some i
  | .error _ => none

/-- The half-word of an instruction, field by field as R82 to R102 and R114 lay it out. -/
def encode : Instr → Half
  | .addReg rd rn rm => 0b0001100#7 ++ rm ++ rn ++ rd
  | .subReg rd rn rm => 0b0001101#7 ++ rm ++ rn ++ rd
  | .addImm3 rd rn imm3 => 0b0001110#7 ++ imm3 ++ rn ++ rd
  | .subImm3 rd rn imm3 => 0b0001111#7 ++ imm3 ++ rn ++ rd
  | .movImm8 rd imm8 => 0b00100#5 ++ rd ++ imm8
  | .cmpImm8 rn imm8 => 0b00101#5 ++ rn ++ imm8
  | .addImm8 rd imm8 => 0b00110#5 ++ rd ++ imm8
  | .subImm8 rd imm8 => 0b00111#5 ++ rd ++ imm8
  | .lslImm rd rm sh => 0b00000#5 ++ sh ++ rm ++ rd
  | .lsrImm rd rm sh => 0b00001#5 ++ sh ++ rm ++ rd
  | .asrImm rd rm sh => 0b00010#5 ++ sh ++ rm ++ rd
  | .andReg rd rm => 0b010000#6 ++ 0b0000#4 ++ rm ++ rd
  | .eorReg rd rm => 0b010000#6 ++ 0b0001#4 ++ rm ++ rd
  | .lslReg rd rs => 0b010000#6 ++ 0b0010#4 ++ rs ++ rd
  | .lsrReg rd rs => 0b010000#6 ++ 0b0011#4 ++ rs ++ rd
  | .asrReg rd rs => 0b010000#6 ++ 0b0100#4 ++ rs ++ rd
  | .adcReg rd rm => 0b010000#6 ++ 0b0101#4 ++ rm ++ rd
  | .sbcReg rd rm => 0b010000#6 ++ 0b0110#4 ++ rm ++ rd
  | .rorReg rd rs => 0b010000#6 ++ 0b0111#4 ++ rs ++ rd
  | .tstReg rn rm => 0b010000#6 ++ 0b1000#4 ++ rm ++ rn
  | .negReg rd rm => 0b010000#6 ++ 0b1001#4 ++ rm ++ rd
  | .cmpReg rn rm => 0b010000#6 ++ 0b1010#4 ++ rm ++ rn
  | .cmnReg rn rm => 0b010000#6 ++ 0b1011#4 ++ rm ++ rn
  | .orrReg rd rm => 0b010000#6 ++ 0b1100#4 ++ rm ++ rd
  | .mulReg rd rm => 0b010000#6 ++ 0b1101#4 ++ rm ++ rd
  | .bicReg rd rm => 0b010000#6 ++ 0b1110#4 ++ rm ++ rd
  | .mvnReg rd rm => 0b010000#6 ++ 0b1111#4 ++ rm ++ rd
  | .addHi rd rm => 0b010001#6 ++ 0b00#2 ++ rd.extractLsb' 3 1 ++ rm ++ rd.extractLsb' 0 3
  | .cmpHi rn rm => 0b010001#6 ++ 0b01#2 ++ rn.extractLsb' 3 1 ++ rm ++ rn.extractLsb' 0 3
  | .movHi rd rm => 0b010001#6 ++ 0b10#2 ++ rd.extractLsb' 3 1 ++ rm ++ rd.extractLsb' 0 3
  | .addRdPc rd imm8 => 0b10100#5 ++ rd ++ imm8
  | .addRdSp rd imm8 => 0b10101#5 ++ rd ++ imm8
  | .addSp imm7 => 0b101100000#9 ++ imm7
  | .subSp imm7 => 0b101100001#9 ++ imm7
  | .beq off8 => 0b1101#4 ++ 0b0000#4 ++ off8
  | .bne off8 => 0b1101#4 ++ 0b0001#4 ++ off8
  | .bcs off8 => 0b1101#4 ++ 0b0010#4 ++ off8
  | .bcc off8 => 0b1101#4 ++ 0b0011#4 ++ off8
  | .bmi off8 => 0b1101#4 ++ 0b0100#4 ++ off8
  | .bpl off8 => 0b1101#4 ++ 0b0101#4 ++ off8
  | .bvs off8 => 0b1101#4 ++ 0b0110#4 ++ off8
  | .bvc off8 => 0b1101#4 ++ 0b0111#4 ++ off8
  | .bhi off8 => 0b1101#4 ++ 0b1000#4 ++ off8
  | .bls off8 => 0b1101#4 ++ 0b1001#4 ++ off8
  | .bge off8 => 0b1101#4 ++ 0b1010#4 ++ off8
  | .blt off8 => 0b1101#4 ++ 0b1011#4 ++ off8
  | .bgt off8 => 0b1101#4 ++ 0b1100#4 ++ off8
  | .ble off8 => 0b1101#4 ++ 0b1101#4 ++ off8
  | .b off11 => 0b11100#5 ++ off11
  | .blPrefix off11 => 0b11110#5 ++ off11
  | .blSuffix off11 => 0b11111#5 ++ off11
  | .blxSuffix off10 => 0b11101#5 ++ off10 ++ 0#1
  | .bx rm sbz => 0b010001110#9 ++ rm ++ sbz
  | .blxReg rm sbz => 0b010001111#9 ++ rm ++ sbz
  | .swi imm8 => 0b11011111#8 ++ imm8
  | .strImm rd rn off5 => 0b01100#5 ++ off5 ++ rn ++ rd
  | .ldrImm rd rn off5 => 0b01101#5 ++ off5 ++ rn ++ rd
  | .strbImm rd rn off5 => 0b01110#5 ++ off5 ++ rn ++ rd
  | .ldrbImm rd rn off5 => 0b01111#5 ++ off5 ++ rn ++ rd
  | .strhImm rd rn off5 => 0b10000#5 ++ off5 ++ rn ++ rd
  | .ldrhImm rd rn off5 => 0b10001#5 ++ off5 ++ rn ++ rd
  | .strReg rd rn rm => 0b0101#4 ++ 0b000#3 ++ rm ++ rn ++ rd
  | .strhReg rd rn rm => 0b0101#4 ++ 0b001#3 ++ rm ++ rn ++ rd
  | .strbReg rd rn rm => 0b0101#4 ++ 0b010#3 ++ rm ++ rn ++ rd
  | .ldrsbReg rd rn rm => 0b0101#4 ++ 0b011#3 ++ rm ++ rn ++ rd
  | .ldrReg rd rn rm => 0b0101#4 ++ 0b100#3 ++ rm ++ rn ++ rd
  | .ldrhReg rd rn rm => 0b0101#4 ++ 0b101#3 ++ rm ++ rn ++ rd
  | .ldrbReg rd rn rm => 0b0101#4 ++ 0b110#3 ++ rm ++ rn ++ rd
  | .ldrshReg rd rn rm => 0b0101#4 ++ 0b111#3 ++ rm ++ rn ++ rd
  | .ldrPc rd off8 => 0b01001#5 ++ rd ++ off8
  | .strSp rd off8 => 0b10010#5 ++ rd ++ off8
  | .ldrSp rd off8 => 0b10011#5 ++ rd ++ off8
  | .stmia rn reglist => 0b11000#5 ++ rn ++ reglist
  | .ldmia rn reglist => 0b11001#5 ++ rn ++ reglist
  | .push r reglist => 0b1011010#7 ++ BitVec.ofBool r ++ reglist
  | .pop r reglist => 0b1011110#7 ++ BitVec.ofBool r ++ reglist

/-- The bytes of an instruction at rising addresses (R52). -/
def encodeBytes (big : Bool) (i : Instr) : List Byte := Machine.splitHalf big (encode i)

end Sys2Proof
end

