-- ==== Sys2Proof/Machine/Fetch.lean ====
section
/-! DEFINITION. Instruction fetch, and the placing of an instruction where the next step fetches it. -/

namespace Sys2Proof.Machine

/-- The bytes of the instruction at `pc`, at rising addresses (R55). -/
def State.instrBytes (s : State) : List Byte :=
  [s.byteAt s.pc.toNat, s.byteAt (s.pc.toNat + 1)]

/-- `MemRead(pc, 2)` with the access kind "fetch" (R55): the decoded instruction. -/
def fetch (s : State) : Except MemStop (Except DecodeError Instr) :=
  match memRead .half .fetch s.pc s with
  | .error e => .error e
  | .ok _ => .ok ((decodeBytes s.params.bigEnd s.instrBytes).map (·.1))

/-- A fetch that is not performed: the Prefetch Abort where the parameter `abortTraps` asks for it, else
`fault NotAdmitted` (R58, R255). -/
def fetchStop (e : MemStop) (s : State) : Result :=
  match e with
  | .misaligned => .fault .misaligned
  | .code => .fault .codeWrite
  | .wrap => .fault .addressWrap
  | .refused =>
    if s.params.abortTraps then .next (takeException .prefetchAbort s) else .fault .notAdmitted

/-- A region that admits the fetch at `pc`. -/
def fetchRegion (pc : Word) : Region := ⟨pc.toNat, 2, [.fetch], [.half]⟩

/-- The parameters with the fetch at `pc` admitted. -/
def State.admitFetch (s : State) : Params :=
  if s.admits .half .fetch s.pc then s.params
  else { s.params with memMap := fetchRegion s.pc :: s.params.memMap }

/-- Half-word `h` stored at `pc`, the processor in Thumb state, the run not ended, no interrupt
asserted and the fetch admitted: what the launch of R291 gives a program's first instruction. -/
def State.placeInstr (s : State) (h : Half) : State :=
  { s with
    mem := Memory.writeBytes s.mem s.pc.toNat (splitHalf s.params.bigEnd h)
    cpsr := { s.cpsr with t := true }
    params := s.admitFetch
    lines := []
    ended := false }

end Sys2Proof.Machine
end

