-- ==== Sys2Proof/Machine/Step.lean ====
section
/-! DEFINITION. One step of the machine: an interrupt that is due, or one instruction (R294, R299). -/

namespace Sys2Proof.Machine

/-- Fetches, decodes and runs one instruction (R55, R112). -/
def runInstruction (s : State) : Host.Outcome State Fault Refusal :=
  match fetch s with
  | .error e => fetchStop e s
  | .ok (.error _) => undefinedInstruction s
  | .ok (.ok i) => exec i s

/-- One step. A run that a host Exit has ended, or that has left Thumb state, has none (R299). At the
instruction boundary a due interrupt is taken (R257, R258); otherwise one instruction runs. -/
def step (s : State) : Host.Outcome State Fault Refusal :=
  if s.ended then .refused .runEnded
  else if !s.cpsr.t then .refused .armState
  else
    match s.dueInterrupt with
    | some e => .next (takeException e s.tick)
    | none => runInstruction s.tick

/-- The state in which the very next step fetches and runs the instruction of the table bits `w`. -/
def State.withFetchWord (s : State) (nbits w : Nat) : State :=
  s.placeInstr (tableHalf nbits w)

end Sys2Proof.Machine
end

