-- ==== Sys2Proof/Machine/Launch.lean ====
section
/-! DEFINITION. The launch state of a run (70_reset_and_hazards.md R291): a program is placed from
outside the machine, and ARM code the spec does not describe has entered Thumb state (R290, R293). -/

namespace Sys2Proof.Machine

/-- What a launch names (R291). -/
structure Launch where
  /-- the entry address -/
  entry : Word
  /-- `LAUNCH_MODE`, a 5-bit mode number -/
  mode : BitVec 5
  i : Bool
  f : Bool
  n : Bool
  z : Bool
  c : Bool
  v : Bool
  unused : BitVec 20
  /-- r0 to r14 of the launch mode, for the numbers the launch names; an SP is a multiple of 4 -/
  regs : List (RegNum × Word)
  /-- the program and its data -/
  image : List Host.Cell
  /-- the parameters of R8; `memMap` is the `MemAdmit` that the launch names, inside its image -/
  params : Params
  lines : List Lines
deriving DecidableEq, Repr

/-- The memory of an image: each byte written in turn, addresses of the 32-bit space only. -/
def imageMemory (image : List Host.Cell) : Memory :=
  image.foldl (fun m c => if c.1 < 4294967296 then Memory.write m c.1 c.2 else m) []

/-! ### The bytes that are admitted: those of the image, as the launch names them (R291) -/

/-- Puts an address into a rising list of addresses. -/
def insertAddr (a : Nat) : List Nat → List Nat
  | [] => [a]
  | b :: bs => if a < b then a :: b :: bs else if a = b then b :: bs else b :: insertAddr a bs

/-- The addresses of an image, strictly rising. -/
def imageAddrs (image : List Host.Cell) : List Nat :=
  image.foldr (fun c as => insertAddr c.1 as) []

/-- A rising list of addresses as its unbroken runs. -/
def addrRuns : List Nat → List AddrRange
  | [] => []
  | a :: as =>
    match addrRuns as with
    | [] => [⟨a, 1⟩]
    | r :: rs => if r.base = a + 1 then ⟨a, r.size + 1⟩ :: rs else ⟨a, 1⟩ :: r :: rs

/-- The part of a region that lies in a run of addresses. -/
def clipRegion (r : Region) (run : AddrRange) : Region :=
  { r with
    base := max r.base run.base
    size := min (r.base + r.size) (run.base + run.size) - max r.base run.base }

/-- `MemAdmit` of a launch: what the launch names, and of that only bytes of the image, because bytes
outside it are not admitted (R291). -/
def imageMap (named : List Region) (image : List Host.Cell) : List Region :=
  named.flatMap fun r => (addrRuns (imageAddrs image)).map (clipRegion r)

/-- The launch names an SP that is no multiple of 4 (R291). -/
def Launch.oddSp (l : Launch) : Bool := l.regs.any fun p => p.1 == 13#4 && p.2.toNat % 4 != 0

/-- The registers a launch names, of the launch mode; of two values for one number the later stands. A
launch names no r15, which is not among R291's rows: its pc is the entry address. -/
def State.launchRegs (s : State) (regs : List (RegNum × Word)) : State :=
  regs.foldl (fun t p => if p.1 = 15#4 then t else t.setReg p.1 p.2) s

/-- The state a launch starts from; none where R291 refuses it, an odd entry address or a number that
is no mode, and where the SP it names is not the multiple of 4 that R291 says it must be (that this is
a refusal too is a DESIGN CHOICE, assumption log 1). -/
def launch (l : Launch) : Option State :=
  if l.entry.getLsbD 0 || l.oddSp then none
  else
    match Mode.ofNumber l.mode with
    | none => none
    | some m =>
      let psr : Psr :=
        { n := l.n, z := l.z, c := l.c, v := l.v, unused := l.unused, i := l.i, f := l.f,
          t := true, mode := m }
      let s : State :=
        { State.reset with
          pc := l.entry, cpsr := psr, mem := imageMemory l.image, lines := l.lines,
          params := { l.params with memMap := imageMap l.params.memMap l.image } }
      some (s.launchRegs l.regs)

end Sys2Proof.Machine
end

