-- ==== Sys2Proof/Safety.lean ====
section
/-! DEFINITION. What counts as a safe run, the invariant of the machine, and the words that claims are
made in: which part of the state an instruction leaves alone, and what its results are. -/

namespace Sys2Proof.Machine

/-! ### Runs (70_reset_and_hazards.md R299) -/

/-- The two endings of R299 that are final states. -/
inductive Ending where
  /-- a host Exit ended the run -/
  | exit
  /-- the processor left Thumb state -/
  | leftThumb
deriving DecidableEq, Repr

/-- The ending a state shows, if the run has ended. -/
def State.ending (s : State) : Option Ending :=
  if s.ended then some .exit else if !s.cpsr.t then some .leftThumb else none

/-- No fault in the next `k` steps: a fault is never a result (R299). -/
def SafeFor (k : Nat) (s : State) : Prop :=
  match Host.Core.run Sys2Proof.core k s with
  | .fault _ => False
  | .next _ | .refused _ => True

/-! ### The invariant -/

/-- In Thumb state bit 0 of the pc is 0; in ARM state the pc is a multiple of 4 (R24, R26). -/
def State.PcAligned (s : State) : Prop :=
  s.pc.getLsbD 0 = false ∧ (s.cpsr.t = false → s.pc.getLsbD 1 = false)

/-- The machine's invariant: the pc is aligned and the memory has its canonical form. -/
def State.Inv (s : State) : Prop := s.PcAligned ∧ Memory.wf s.mem

/-! ### Frames -/

/-- Every banked register but the registers `ds` of the current mode keeps its value. -/
def KeepsRegs (ds : List RegNum) (s t : State) : Prop :=
  ∀ k : Fin 30, (∀ d ∈ ds, k ≠ slot s.cpsr.mode d) → t.regs.get k = s.regs.get k

/-- N, Z, C and V are unchanged. -/
def KeepsFlags (s t : State) : Prop :=
  t.cpsr.n = s.cpsr.n ∧ t.cpsr.z = s.cpsr.z ∧ t.cpsr.c = s.cpsr.c ∧ t.cpsr.v = s.cpsr.v

/-- The CPSR outside the flags is unchanged. -/
def KeepsControl (s t : State) : Prop :=
  t.cpsr.unused = s.cpsr.unused ∧ t.cpsr.i = s.cpsr.i ∧ t.cpsr.f = s.cpsr.f ∧
    t.cpsr.t = s.cpsr.t ∧ t.cpsr.mode = s.cpsr.mode

/-- The saved status registers are unchanged. -/
def KeepsSaved (s t : State) : Prop := ∀ m, t.spsr m = s.spsr m

/-- What no processor instruction writes: the parameters, the inputs, the output stream, the end of
the run. -/
def KeepsOutside (s t : State) : Prop :=
  t.params = s.params ∧ t.lines = s.lines ∧ t.output = s.output ∧ t.ended = s.ended

/-- Every byte of memory reads as before. -/
def KeepsMemory (s t : State) : Prop := ∀ a, t.byteAt a = s.byteAt a

/-- Every byte of memory outside the `n` bytes from `a` reads as before. -/
def KeepsMemoryOutside (a n : Nat) (s t : State) : Prop :=
  ∀ a', (a' < a ∨ a + n ≤ a') → t.byteAt a' = s.byteAt a'

/-- Registers `ds`, the flags and the pc apart, nothing changed. -/
def TouchesOnly (ds : List RegNum) (s t : State) : Prop :=
  KeepsRegs ds s t ∧ KeepsControl s t ∧ KeepsSaved s t ∧ KeepsOutside s t ∧ KeepsMemory s t ∧
    t.draws = s.draws

/-- As `TouchesOnly`, but for memory, of which the `n` bytes from `a` may change. -/
def TouchesOnlyAt (ds : List RegNum) (a n : Nat) (s t : State) : Prop :=
  KeepsRegs ds s t ∧ KeepsControl s t ∧ KeepsSaved s t ∧ KeepsOutside s t ∧
    KeepsMemoryOutside a n s t ∧ t.draws = s.draws

/-! ### Results of data processing, in exact arithmetic -/

/-- A signed integer that 32 bits cannot hold. -/
def outOfRange (x : Int) : Bool := decide (x < -2147483648) || decide (2147483647 < x)

/-- N and Z say whether the result is negative or zero (R28). -/
def FlagsNZ (r : Word) (t : State) : Prop :=
  t.cpsr.n = decide (r.toInt < 0) ∧ t.cpsr.z = decide (r.toNat = 0)

/-- The flags of `a + b + carry`: C when the unsigned sum needs more than 32 bits, V when the signed
sum does (R150, R152). -/
def FlagsOfSum (a b : Word) (carry : Bool) (t : State) : Prop :=
  FlagsNZ (a + b + BitVec.ofNat 32 carry.toNat) t ∧
    t.cpsr.c = decide (4294967296 ≤ a.toNat + b.toNat + carry.toNat) ∧
    t.cpsr.v = outOfRange (a.toInt + b.toInt + carry.toNat)

/-- The flags of `a - b - borrow`: C when there is no borrow, V when the signed difference needs more
than 32 bits (R150, R152). -/
def FlagsOfDifference (a b : Word) (borrow : Bool) (t : State) : Prop :=
  FlagsNZ (a - b - BitVec.ofNat 32 borrow.toNat) t ∧
    t.cpsr.c = decide (b.toNat + borrow.toNat ≤ a.toNat) ∧
    t.cpsr.v = outOfRange (a.toInt - b.toInt - borrow.toNat)

/-- `Rd` holds the sum, the flags are the sum's, and nothing else changed but the pc. -/
def Summed (rd : Lo) (a b : Word) (carry : Bool) (s t : State) : Prop :=
  t.lo rd = a + b + BitVec.ofNat 32 carry.toNat ∧ FlagsOfSum a b carry t ∧
    TouchesOnly [loNum rd] s t ∧ t.pc = s.pc + 2#32

/-- `Rd` holds the difference, the flags are the difference's, and nothing else changed but the pc. -/
def Subtracted (rd : Lo) (a b : Word) (borrow : Bool) (s t : State) : Prop :=
  t.lo rd = a - b - BitVec.ofNat 32 borrow.toNat ∧ FlagsOfDifference a b borrow t ∧
    TouchesOnly [loNum rd] s t ∧ t.pc = s.pc + 2#32

/-- `Rd` holds the word whose bit `j` is `bit j`; N and Z are the result's, C and V are kept, and
nothing else changed but the pc. -/
def LogicalResult (rd : Lo) (bit : Nat → Bool) (s t : State) : Prop :=
  (∀ j < 32, (t.lo rd).getLsbD j = bit j) ∧ FlagsNZ (t.lo rd) t ∧
    t.cpsr.c = s.cpsr.c ∧ t.cpsr.v = s.cpsr.v ∧ TouchesOnly [loNum rd] s t ∧ t.pc = s.pc + 2#32

/-- `Rd` holds the shifted value; N and Z are the result's, C is `carry`, V is kept, and nothing else
changed but the pc. -/
def Shifted (rd : Lo) (value : Word) (carry : Bool) (s t : State) : Prop :=
  t.lo rd = value ∧ FlagsNZ value t ∧ t.cpsr.c = carry ∧ t.cpsr.v = s.cpsr.v ∧
    TouchesOnly [loNum rd] s t ∧ t.pc = s.pc + 2#32

/-- A register (not r15) holds `value`, no flag changed, and nothing else but the pc. -/
def Moved (rd : RegNum) (value : Word) (s t : State) : Prop :=
  t.reg rd = value ∧ KeepsFlags s t ∧ TouchesOnly [rd] s t ∧ t.pc = s.pc + 2#32

/-! ### Data in memory -/

/-- The value of the `n` bytes from address `a` in the machine's byte order, zero-extended: byte `k` of
the value, counted from its least significant, is the byte at `a + k`, or at `a + (n - 1 - k)` when
`BIGEND` is true (R52). -/
def ReadsAs (s : State) (n a : Nat) (v : Word) : Prop :=
  (∀ k < n, v.extractLsb' (8 * k) 8 =
    s.byteAt (a + if s.params.bigEnd then n - 1 - k else k)) ∧
    ∀ j < 32, 8 * n ≤ j → v.getLsbD j = false

/-- The access can be performed: aligned, outside the code region if it writes, and admitted (R54,
R63). -/
def State.allows (s : State) (w : Width) (kind : AccessKind) (a : Word) : Bool :=
  alignedTo w a && !(kind == .write && s.inCode w a) && s.admits w kind a

/-- The place of register `r` of a register list in memory: how many lower-numbered registers the list
has (R230). -/
def listRank (l : BitVec 8) (r : Lo) : Nat :=
  ((List.range r.toNat).filter fun j => l.getLsbD j).length

/-- How many bits of a register list are set (R230). -/
def listSize (l : BitVec 8) : Nat := ((List.range 8).filter fun j => l.getLsbD j).length

/-- Every word of a multiple transfer of `n` words can be accessed, and the transfer stays below the
top of memory (R238). -/
def State.allowsWords (s : State) (kind : AccessKind) (start : Word) (n : Nat) : Prop :=
  start.toNat + 4 * n < 4294967296 ∧ ∀ k < n, s.allows .word kind (wordAddr start k) = true

/-- A load has put `value` in `Rd`, no flag changed, and nothing else but the pc. -/
def Loaded (rd : Lo) (value : Word) (s t : State) : Prop :=
  t.lo rd = value ∧ KeepsFlags s t ∧ TouchesOnly [loNum rd] s t ∧ t.pc = s.pc + 2#32

/-- A store has put the low `n` bytes of `v` at address `a` in the machine's byte order, no flag and no
register changed, and nothing else but the pc. -/
def Stored (n a : Nat) (v : Word) (s t : State) : Prop :=
  (∀ k < n, t.byteAt (a + if s.params.bigEnd then n - 1 - k else k) = v.extractLsb' (8 * k) 8) ∧
    KeepsFlags s t ∧ TouchesOnlyAt [] a n s t ∧ t.pc = s.pc + 2#32

/-- The numbers of the registers of a list, in ascending order (R230). -/
def listedNums (l : BitVec 8) : List RegNum :=
  ((List.range 8).filter fun j => l.getLsbD j).map (BitVec.ofNat 4)

/-- What a load or store that is aborted may leave before the exception is entered (R256): the
registers `ds` and the `n` bytes from `a` are open, everything else is as it was. -/
def AbortLeaves (ds : List RegNum) (a n : Nat) (s left : State) : Prop :=
  KeepsRegs ds s left ∧ left.cpsr = s.cpsr ∧ left.pc = s.pc ∧ KeepsSaved s left ∧
    KeepsOutside s left ∧ KeepsMemoryOutside a n s left

/-! ### Branches and exceptions -/

/-- `pc + 4` and a signed byte offset, modulo 2^32 (R120, R121). -/
def branchTarget (pc : Word) (off : Int) : Word := BitVec.ofInt 32 (pc.toInt + 4 + off)

/-- A conditional branch: taken, only the pc changes and it is the target; not taken, only the pc
changes and it moves on by 2 (R120). -/
def BranchesWhen (taken : Prop) (i : Instr) (off8 : BitVec 8) (s : State) : Prop :=
  (taken → exec i s = .next { s with pc := branchTarget s.pc (2 * off8.toInt) }) ∧
    (¬taken → s.pc ≠ 0xFFFFFFFE#32 → exec i s = .next { s with pc := s.pc + 2#32 })

/-- The effect of taking an exception whose link value and saved status are `link` and `saved` (R252):
what it writes, and that it writes nothing else. -/
def Entered (e : Exception) (link : Word) (saved : Psr) (s t : State) : Prop :=
  t.bankReg e.mode 14#4 = link ∧ t.spsr e.mode = some saved ∧
    t.cpsr.mode = e.mode ∧ t.cpsr.t = false ∧ t.cpsr.i = true ∧
    t.cpsr.f = (s.cpsr.f || (e == .reset || e == .fiq)) ∧ t.pc = e.vector ∧
    KeepsFlags s t ∧ t.cpsr.unused = s.cpsr.unused ∧
    (∀ k : Fin 30, k ≠ slot e.mode 14#4 → t.regs.get k = s.regs.get k) ∧
    (∀ m, m ≠ e.mode → t.spsr m = s.spsr m) ∧ KeepsOutside s t ∧ KeepsMemory s t

/-- A branch to ARM state has changed T to 0, the registers `ds` and the pc, and nothing else. -/
def EntersArm (ds : List RegNum) (target : Word) (s t : State) : Prop :=
  KeepsRegs ds s t ∧ t.cpsr = { s.cpsr with t := false } ∧ t.pc = target ∧ KeepsSaved s t ∧
    KeepsOutside s t ∧ KeepsMemory s t ∧ t.draws = s.draws

/-- A branch that stays in Thumb state has changed the registers `ds` and the pc, and nothing else. -/
def StaysThumb (ds : List RegNum) (target : Word) (s t : State) : Prop :=
  t.pc = target ∧ t.cpsr.t = true ∧ KeepsFlags s t ∧ TouchesOnly ds s t

/-- A refused data access ends the instruction in `fault NotAdmitted`, or in a Data Abort entered from a
state that R256 leaves open at the registers `ds` and the `n` bytes from `a` (R58, D6). -/
def EndsRefused (i : Instr) (ds : List RegNum) (a n : Nat) (s : State) : Prop :=
  (s.params.abortTraps = false → exec i s = .fault .notAdmitted) ∧
    (s.params.abortTraps = true → ∃ left t, exec i s = .next t ∧ AbortLeaves ds a n s left ∧
      Entered .dataAbort (s.pc + 8#32) s.cpsr left t)

/-- How a single load or store ends whose access is not performed: misaligned, then in the code region,
then not admitted (R53, R54, R58, R63). `ds` are the registers that an abort leaves open. -/
def AccessStops (i : Instr) (w : Width) (kind : AccessKind) (a : Word) (ds : List RegNum)
    (s : State) : Prop :=
  (a.toNat % widthBytes w ≠ 0 → exec i s = .fault .misaligned) ∧
    (a.toNat % widthBytes w = 0 → kind = .write → s.inCode w a = true →
      exec i s = .fault .codeWrite) ∧
    (a.toNat % widthBytes w = 0 → (kind = .write → s.inCode w a = false) →
      s.admits w kind a = false → EndsRefused i ds 0 0 s)

/-- How a transfer of `n` words ends that is not performed: a misaligned start, then a range that
reaches the top of memory, then the first word that cannot be accessed (R238). -/
def TransferStops (i : Instr) (kind : AccessKind) (start : Word) (n : Nat) (ds : List RegNum)
    (s : State) : Prop :=
  (start.toNat % 4 ≠ 0 → exec i s = .fault .misaligned) ∧
    (start.toNat % 4 = 0 → 4294967296 ≤ start.toNat + 4 * n → exec i s = .fault .addressWrap) ∧
    (start.toNat % 4 = 0 → start.toNat + 4 * n < 4294967296 →
      ∀ k < n, (∀ j < k, s.allows .word kind (wordAddr start j) = true) →
        (kind = .write → s.inCode .word (wordAddr start k) = true →
          exec i s = .fault .codeWrite) ∧
        ((kind = .write → s.inCode .word (wordAddr start k) = false) →
          s.admits .word kind (wordAddr start k) = false →
          EndsRefused i ds start.toNat (if kind = .write then 4 * n else 0) s))

/-- A load of one datum from `a` into `Rd`: where the access can be performed it completes, with the
datum extended by `extend`; where it cannot, it stops as R200 says. -/
def LoadResult (i : Instr) (rd : Lo) (w : Width) (extend : Word → Word) (a : Word)
    (ds : List RegNum) (s : State) : Prop :=
  (s.allows w .read a = true → s.pc ≠ 0xFFFFFFFE#32 →
    ∃ v t, ReadsAs s (widthBytes w) a.toNat v ∧ exec i s = .next t ∧ Loaded rd (extend v) s t) ∧
    AccessStops i w .read a ds s

/-- A store of the low bytes of `Rd` at `a`: where the access can be performed it completes; where it
cannot, it stops as R200 says. -/
def StoreResult (i : Instr) (rd : Lo) (w : Width) (a : Word) (ds : List RegNum) (s : State) : Prop :=
  (s.allows w .write a = true → s.pc ≠ 0xFFFFFFFE#32 →
    ∃ t, exec i s = .next t ∧ Stored (widthBytes w) a.toNat (s.lo rd) s t) ∧
    AccessStops i w .write a ds s

/-- Every listed register holds the word at its place in memory (R230). -/
def ListLoaded (l : BitVec 8) (start : Nat) (s t : State) : Prop :=
  ∀ r : Lo, l.getLsbD r.toNat = true → ReadsAs s 4 (start + 4 * listRank l r) (t.lo r)

/-- The memory word at `a` holds `v` in the machine's byte order (R52). -/
def WordAt (t : State) (a : Nat) (v : Word) : Prop :=
  ∀ k < 4, t.byteAt (a + if t.params.bigEnd then 3 - k else k) = v.extractLsb' (8 * k) 8

/-- The half-words that select no instruction: the four groups of R106. -/
def UndefinedHalf (arch5t : Bool) (w : Half) : Prop :=
  (w.extractLsb' 12 4 = 0b1011#4 ∧ w.extractLsb' 8 4 ∈
      [0b0001#4, 0b0010#4, 0b0011#4, 0b0110#4, 0b0111#4, 0b1000#4, 0b1001#4, 0b1010#4, 0b1011#4,
        0b1110#4, 0b1111#4]) ∨
    w.extractLsb' 8 8 = 0b11011110#8 ∨
    (w.extractLsb' 11 5 = 0b11101#5 ∧ w.getLsbD 0 = true) ∨
    (arch5t = false ∧ (w.extractLsb' 11 5 = 0b11101#5 ∨ w.extractLsb' 7 9 = 0b010001111#9))

/-- The state is at an instruction boundary in Thumb state, the run goes on, and no interrupt is due. -/
def State.Running (s : State) : Prop :=
  s.ended = false ∧ s.cpsr.t = true ∧ s.dueInterrupt = none

/-- The fetch at the pc can be performed and delivers the half-word `w` (R55). -/
def State.Fetches (s : State) (w : Half) : Prop :=
  s.pc.toNat % 2 = 0 ∧ s.admits .half .fetch s.pc = true ∧
    joinHalf s.params.bigEnd (s.byteAt s.pc.toNat) (s.byteAt (s.pc.toNat + 1)) = w

/-- The instructions that store to data memory (R56). -/
def storesMemory (i : Instr) : Bool :=
  match i with
  | .strImm .. | .strbImm .. | .strhImm .. | .strReg .. | .strhReg .. | .strbReg .. | .strSp ..
  | .stmia .. | .push .. => true
  | _ => false

/-- The instructions that may clear T by a branch, in a given architecture version (R129). -/
def exchanges (arch5t : Bool) (i : Instr) : Bool :=
  match i with
  | .bx .. => true
  | .blxReg .. | .blxSuffix _ => arch5t
  | .pop r _ => r && arch5t
  | _ => false

/-- The instructions of architecture v5T alone (R106). -/
def onlyV5t (i : Instr) : Bool :=
  match i with
  | .blxReg .. | .blxSuffix _ => true
  | _ => false

/-- The instructions that write the PC (R25), in a given state, and a host Exit, after which no
instruction follows (R142). -/
def WritesPc (i : Instr) (s : State) : Prop :=
  match i with
  | .beq _ => s.cpsr.z = true
  | .bne _ => s.cpsr.z = false
  | .bcs _ => s.cpsr.c = true
  | .bcc _ => s.cpsr.c = false
  | .bmi _ => s.cpsr.n = true
  | .bpl _ => s.cpsr.n = false
  | .bvs _ => s.cpsr.v = true
  | .bvc _ => s.cpsr.v = false
  | .bhi _ => s.cpsr.c = true ∧ s.cpsr.z = false
  | .bls _ => s.cpsr.c = false ∨ s.cpsr.z = true
  | .bge _ => s.cpsr.n = s.cpsr.v
  | .blt _ => s.cpsr.n ≠ s.cpsr.v
  | .bgt _ => s.cpsr.z = false ∧ s.cpsr.n = s.cpsr.v
  | .ble _ => s.cpsr.z = true ∨ s.cpsr.n ≠ s.cpsr.v
  | .b _ | .blSuffix _ | .blxSuffix _ | .bx _ _ | .blxReg _ _ => True
  | .swi n => s.hostAction n ≠ some .writeC
  | .addHi rd _ | .movHi rd _ => rd = 15#4
  | .pop r _ => r = true
  | _ => False

/-- The instructions that write the flags: the data-processing instructions on Lo registers, and CMP on
Hi registers (R28, R152). -/
def setsFlags (i : Instr) : Bool :=
  match i with
  | .addReg .. | .subReg .. | .addImm3 .. | .subImm3 .. | .movImm8 .. | .cmpImm8 .. | .addImm8 ..
  | .subImm8 .. | .lslImm .. | .lsrImm .. | .asrImm .. | .andReg .. | .eorReg .. | .lslReg ..
  | .lsrReg .. | .asrReg .. | .adcReg .. | .sbcReg .. | .rorReg .. | .tstReg .. | .negReg ..
  | .cmpReg .. | .cmnReg .. | .orrReg .. | .mulReg .. | .bicReg .. | .mvnReg .. | .cmpHi .. => true
  | _ => false

/-- The instructions that access data memory (R56). -/
def accessesMemory (i : Instr) : Bool :=
  match i with
  | .strImm .. | .ldrImm .. | .strbImm .. | .ldrbImm .. | .strhImm .. | .ldrhImm .. | .strReg ..
  | .strhReg .. | .strbReg .. | .ldrsbReg .. | .ldrReg .. | .ldrhReg .. | .ldrbReg ..
  | .ldrshReg .. | .ldrPc .. | .strSp .. | .ldrSp .. | .stmia .. | .ldmia .. | .push ..
  | .pop .. => true
  | _ => false

/-- No rule but R26 stops the instruction in this state: its operands are none that R107, R236 or R237
make a fault, and its accesses can be performed (R54, R63, R238). -/
def MayComplete (i : Instr) (s : State) : Prop :=
  match i with
  | .addHi rd rm | .movHi rd rm => rd.getLsbD 3 = true ∨ rm.getLsbD 3 = true
  | .cmpHi rn rm => (rn.getLsbD 3 = true ∨ rm.getLsbD 3 = true) ∧ rn ≠ 15#4
  | .ldrImm _ rn off5 => s.allows .word .read (addrOff5 2 rn off5 s) = true
  | .ldrbImm _ rn off5 => s.allows .byte .read (addrOff5 0 rn off5 s) = true
  | .ldrhImm _ rn off5 => s.allows .half .read (addrOff5 1 rn off5 s) = true
  | .strImm _ rn off5 => s.allows .word .write (addrOff5 2 rn off5 s) = true
  | .strbImm _ rn off5 => s.allows .byte .write (addrOff5 0 rn off5 s) = true
  | .strhImm _ rn off5 => s.allows .half .write (addrOff5 1 rn off5 s) = true
  | .ldrReg _ rn rm => s.allows .word .read (addrIndexed rn rm s) = true
  | .ldrhReg _ rn rm | .ldrshReg _ rn rm => s.allows .half .read (addrIndexed rn rm s) = true
  | .ldrbReg _ rn rm | .ldrsbReg _ rn rm => s.allows .byte .read (addrIndexed rn rm s) = true
  | .strReg _ rn rm => s.allows .word .write (addrIndexed rn rm s) = true
  | .strhReg _ rn rm => s.allows .half .write (addrIndexed rn rm s) = true
  | .strbReg _ rn rm => s.allows .byte .write (addrIndexed rn rm s) = true
  | .ldrPc _ off8 => s.allows .word .read (addrPcOff8 off8 s) = true
  | .ldrSp _ off8 => s.allows .word .read (addrSpOff8 off8 s) = true
  | .strSp _ off8 => s.allows .word .write (addrSpOff8 off8 s) = true
  | .ldmia rn l => l ≠ 0#8 ∧ s.allowsWords .read (s.lo rn) (listSize l)
  | .stmia rn l => l ≠ 0#8 ∧ (l.getLsbD rn.toNat = true → ∀ j < rn.toNat, l.getLsbD j = false) ∧
      s.allowsWords .write (s.lo rn) (listSize l)
  | .push r l => listSize l + r.toNat ≠ 0 ∧
      s.allowsWords .write (pushStart r l s) (listSize l + r.toNat)
  | .pop r l => listSize l + r.toNat ≠ 0 ∧ s.allowsWords .read s.sp (listSize l + r.toNat)
  | _ => True

/-- The state with the processor in System mode. -/
def State.asSystem (s : State) : State := { s with cpsr := { s.cpsr with mode := .system } }

/-- Where a System-mode run is when the same run begun in User mode is at this state: in System mode, or,
after an exception, in that exception's mode with System as the saved mode. -/
def State.systemTwin (t : State) : State :=
  match t.spsr t.cpsr.mode with
  | none => t.asSystem
  | some p => t.setSpsr t.cpsr.mode { p with mode := .system }

end Sys2Proof.Machine
end

