-- ==== Sys2Proof/Certificates/Slice0/Obligations.lean ====
section
/-! DEFINITION. The statements for the provers, each from a numbered rule of spec/ or derived from one. -/

open Sys2Proof Sys2Proof.Machine

/-- Decoding the half-word of any instruction gives that instruction, for every value of every field
(R82 to R102, R112). -/
def Obligations.DecodeOfEncode : Prop :=
  ∀ i : Instr, decode (encode i) = .ok i

/-- A half-word that decodes to an instruction is that instruction's encoding: no bit is ignored
(R105, R112). -/
def Obligations.EncodeOfDecode : Prop :=
  ∀ (w : Half) (i : Instr), decode w = .ok i → encode i = w

/-- The table has 76 rows and no 16-bit value matches two of them (R105). -/
def Obligations.TableRowsDisjoint : Prop :=
  Decode.table.length = 76 ∧
    Decode.table.Pairwise fun a b => ∀ w : Half, ¬(a.covers w = true ∧ b.covers w = true)

/-- Words that the rules give as examples decode to the instructions they stand for. -/
def Obligations.SampleWordsDecode : Prop :=
  decode 0x1888#16 = .ok (.addReg 0 1 2) ∧ decode 0x1DE3#16 = .ok (.addImm3 3 4 7) ∧
    decode 0x3305#16 = .ok (.addImm8 3 5) ∧ decode 0x07C8#16 = .ok (.lslImm 0 1 31) ∧
    decode 0x4348#16 = .ok (.mulReg 0 1) ∧ decode 0x44A5#16 = .ok (.addHi 13 4) ∧
    decode 0xB0FF#16 = .ok (.subSp 127) ∧ decode 0xD1FC#16 = .ok (.bne 0xFC) ∧
    decode 0x4770#16 = .ok (.bx 14 0) ∧ decode 0xDF11#16 = .ok (.swi 0x11) ∧
    decode 0x6FC8#16 = .ok (.ldrImm 0 1 31) ∧ decode 0xB530#16 = .ok (.push true 0x30)

/-- A step is `fault UndefinedInstruction` exactly on the four groups of R106; the last group is
undefined only before v5T. The parameter `undefTraps` false is the spec's own choice D9 (assumption
log 6). -/
def Obligations.UndefinedEncodingsFault : Prop :=
  ∀ (s : State) (w : Half), s.Running → s.params.undefTraps = false → s.Fetches w →
    (step s = .fault .undefinedInstruction ↔ UndefinedHalf s.params.arch5t w)

/-- The Undefined Instruction exception of R254, which the model takes where its parameter
`undefTraps` asks for it (assumption log 6; the spec's own default is the fault of D9). -/
def Obligations.UndefinedTrapEntry : Prop :=
  ∀ (s : State) (w : Half), s.Running → s.params.undefTraps = true → s.Fetches w →
    UndefinedHalf s.params.arch5t w →
      ∃ t, step s = .next t ∧ Entered .undefined (s.pc + 2#32) s.cpsr s.tick t ∧
        t.cpsr.mode = .undefined ∧ t.pc = 0x00000004#32

/-- A step fetches the half-word at pc, decodes it and runs the instruction (R55, R112, R294). That
the step around it moves the interrupt inputs on by one boundary is the model's choice (assumption
log 10), of which those rules say nothing. -/
def Obligations.StepRunsDecoded : Prop :=
  ∀ (s : State) (w : Half) (i : Instr), s.Running → s.Fetches w → decode w = .ok i →
    step s = exec i { s with lines := s.lines.tail }

/-- A refused fetch: `fault NotAdmitted`, which R255 chooses, or the Prefetch Abort with the entry
of R252, which R58 lets a model raise instead. That the model does either, by the parameter
`abortTraps`, is its choice (assumption log 7); so are the inputs moved on by one boundary (log 10).
-/
def Obligations.StepRefusedFetch : Prop :=
  ∀ s : State, s.Running → s.pc.toNat % 2 = 0 → s.admits .half .fetch s.pc = false →
    (s.params.abortTraps = false → step s = .fault .notAdmitted) ∧
      (s.params.abortTraps = true →
        ∃ t, step s = .next t ∧ Entered .prefetchAbort (s.pc + 4#32) s.cpsr s.tick t ∧
          t.cpsr.mode = .abort ∧ t.pc = 0x0000000C#32)

/-- IRQ and FIQ at an instruction boundary (R257, R258, R264). The spec assumes both are never
asserted; the model lets them be (assumption log 10). -/
def Obligations.StepTakesInterrupt : Prop :=
  ∀ s : State, s.ended = false → s.cpsr.t = true →
    (s.linesNow.fiq = true → s.cpsr.f = false →
      ∃ t, step s = .next t ∧ Entered .fiq (s.pc + 4#32) s.cpsr s.tick t ∧
        t.cpsr.mode = .fiq ∧ t.cpsr.f = true ∧ t.pc = 0x0000001C#32) ∧
    ((s.linesNow.fiq = false ∨ s.cpsr.f = true) → s.linesNow.irq = true → s.cpsr.i = false →
      ∃ t, step s = .next t ∧ Entered .irq (s.pc + 4#32) s.cpsr s.tick t ∧
        t.cpsr.mode = .irq ∧ t.cpsr.f = s.cpsr.f ∧ t.pc = 0x00000018#32) ∧
    ((s.linesNow.fiq = false ∨ s.cpsr.f = true) → (s.linesNow.irq = false ∨ s.cpsr.i = true) →
      s.Running)

/-- The model refuses a step exactly at the two final endings of R299, and refuses no instruction
(assumption logs 12, 13). -/
def Obligations.EndingsAreTheOnlyRefusals : Prop :=
  (∀ s : State, (∃ r, step s = .refused r) ↔ s.ending.isSome = true) ∧
    ∀ (i : Instr) (s : State) (r : Refusal), exec i s ≠ .refused r

/-- Every step keeps the invariant: the pc is even, a multiple of 4 in ARM state (R24, R26), and the
memory has its canonical form. -/
def Obligations.InvariantKept : Prop :=
  ∀ s t : State, s.Inv → step s = .next t → t.Inv

/-- The reset state meets the invariant that every step keeps. -/
def Obligations.ResetInvariant : Prop :=
  State.reset.Inv

/-- The values R290 gives for reset, and that no Thumb instruction is the first one after it. That
the step from reset is the refusal armState is the model's choice for a state the spec gives no step
(D1, R299; assumption log 12). -/
def Obligations.ResetValues : Prop :=
  State.reset.cpsr.mode = .supervisor ∧ State.reset.cpsr.i = true ∧ State.reset.cpsr.f = true ∧
    State.reset.cpsr.t = false ∧ State.reset.pc = 0x00000000#32 ∧
    step State.reset = .refused .armState

/-- The launch state, row by row of the table of R291. What the launch does not name is assumption
logs 1, 3 and 4; the refusal of an SP that is no multiple of 4, which R291 says it must be, is the
model's choice (log 1), and so are the interrupt inputs (log 10). -/
def Obligations.LaunchState : Prop :=
  ∀ l : Launch,
    (launch l = none ↔ l.entry.getLsbD 0 = true ∨
      l.mode ∉ [0b10000#5, 0b10001#5, 0b10010#5, 0b10011#5, 0b10111#5, 0b11011#5, 0b11111#5] ∨
      ∃ v : Word, (13#4, v) ∈ l.regs ∧ v.toNat % 4 ≠ 0) ∧
    ∀ s, launch l = some s → s.pc = l.entry ∧ s.cpsr.t = true ∧ s.cpsr.mode.number = l.mode ∧
      s.cpsr.i = l.i ∧ s.cpsr.f = l.f ∧ s.cpsr.n = l.n ∧ s.cpsr.z = l.z ∧ s.cpsr.c = l.c ∧
      s.cpsr.v = l.v ∧ s.cpsr.unused = l.unused ∧ s.lines = l.lines ∧
      s.params = { l.params with memMap := s.params.memMap } ∧
      (∀ (w : Width) (kind : AccessKind) (a : Word), s.admits w kind a = true ↔
        (∃ r ∈ l.params.memMap, regionAdmits r w kind a.toNat = true) ∧
          ∀ k < widthBytes w, ∃ c ∈ l.image, c.1 = a.toNat + k) ∧
      (∀ (before after : List (RegNum × Word)) (r : RegNum) (v : Word),
        l.regs = before ++ (r, v) :: after → r ≠ 15#4 → (∀ p ∈ after, p.1 ≠ r) →
          s.reg r = v) ∧
      (∀ (before after : List Host.Cell) (a : Nat) (b : Byte),
        l.image = before ++ (a, b) :: after → a < 4294967296 → (∀ c ∈ after, c.1 ≠ a) →
          s.byteAt a = b) ∧
      s.output = [] ∧ s.ended = false ∧ s.Inv

/-- The parameters of R8 are fixed for a run (R8, R291, R52), and a step appends at most one byte to
the output. That the interrupt inputs are one pair of levels for each boundary, of which a step
consumes one (`t.lines = s.lines.tail`), is the model's choice (assumption log 10). -/
def Obligations.RunConstants : Prop :=
  ∀ s t : State, step s = .next t → t.params = s.params ∧ t.lines = s.lines.tail ∧
    (t.output = s.output ∨ ∃ b, t.output = s.output ++ [b])

/-- The common entry sequence of R252 with the tables of R260 and R261, whole for the six exceptions
whose saved values are defined; for Reset (R259) the mode, T, I, F and pc. What else Reset leaves is
`ResetEntry`. -/
def Obligations.ExceptionEntry : Prop :=
  ∀ s : State,
    (∀ row ∈ [(Exception.undefined, Mode.undefined, 0x00000004#32, 2#32),
        (.swi, .supervisor, 0x00000008#32, 2#32), (.prefetchAbort, .abort, 0x0000000C#32, 4#32),
        (.dataAbort, .abort, 0x00000010#32, 8#32), (.irq, .irq, 0x00000018#32, 4#32),
        (.fiq, .fiq, 0x0000001C#32, 4#32)],
      Entered row.1 (s.pc + row.2.2.2) s.cpsr s (takeException row.1 s) ∧
        (takeException row.1 s).cpsr.mode = row.2.1 ∧
        (takeException row.1 s).pc = row.2.2.1) ∧
    (takeException .reset s).cpsr.mode = .supervisor ∧ (takeException .reset s).cpsr.t = false ∧
      (takeException .reset s).cpsr.i = true ∧ (takeException .reset s).cpsr.f = true ∧
      (takeException .reset s).pc = 0x00000000#32

/-- The return of R266 after an entry. It is an operation of the model that no Thumb instruction
uses (assumption log 18). -/
def Obligations.ExceptionReturn : Prop :=
  ∀ (s : State) (e : Exception) (off : Word),
    (e, off) ∈ [(Exception.undefined, 2#32), (.swi, 2#32), (.prefetchAbort, 0#32),
      (.dataAbort, 0#32), (.irq, 0#32), (.fiq, 0#32)] →
    ∃ t, returnFrom e (takeException e s) = some t ∧ t.cpsr = s.cpsr ∧ t.pc = s.pc + off ∧
      (∀ k : Fin 30, k ≠ slot e.mode 14#4 → t.regs.get k = s.regs.get k) ∧ KeepsMemory s t ∧
      KeepsOutside s t

/-- The software interrupt (R253): where `SWI_HOST` is absent or has no entry for the number. -/
def Obligations.SwiEntry : Prop :=
  ∀ (imm8 : BitVec 8) (s : State), decode (0b11011111#8 ++ imm8) = .ok (.swi imm8) ∧
    ((s.params.swiHost = none ∨ ∃ h, s.params.swiHost = some h ∧ ∀ e ∈ h, e.1 ≠ imm8) →
      ∃ t, exec (.swi imm8) s = .next t ∧ Entered .swi (s.pc + 2#32) s.cpsr s t ∧
        t.spsrSvc = s.cpsr ∧ t.bankReg .supervisor 14#4 = s.pc + 2#32 ∧
        t.cpsr.mode.number = 0b10011#5 ∧ t.cpsr.f = s.cpsr.f ∧ t.pc = 0x00000008#32)

/-- The host interface of R142, with the wrap of R26 for WriteC at 0xFFFFFFFE. That the end of the
run is the field `ended` and that the step after it is the refusal runEnded is the model's choice
for the final state of R299 (assumption log 13). -/
def Obligations.SwiHostActions : Prop :=
  ∀ (imm8 : BitVec 8) (s : State),
    s.params.swiHost = some [(0x00#8, .writeC), (0x11#8, .exit)] →
    (imm8 = 0x00#8 →
      (s.pc ≠ 0xFFFFFFFE#32 → exec (.swi imm8) s =
        .next { s with output := s.output ++ [(s.lo 0#3).extractLsb' 0 8], pc := s.pc + 2#32 }) ∧
      (s.pc = 0xFFFFFFFE#32 → exec (.swi imm8) s = .fault .pcWrap)) ∧
    (imm8 = 0x11#8 → exec (.swi imm8) s = .next { s with ended := true } ∧
      step { s with ended := true } = .refused .runEnded) ∧
    (imm8 ≠ 0x00#8 → imm8 ≠ 0x11#8 → ∃ t, exec (.swi imm8) s = .next t ∧
      Entered .swi (s.pc + 2#32) s.cpsr s t)

/-- The layout of the CPSR and the SPSRs (R27, R32) with the mode numbers of R31. -/
def Obligations.PsrLayout : Prop :=
  (∀ p : Psr, p.toWord.getLsbD 31 = p.n ∧ p.toWord.getLsbD 30 = p.z ∧ p.toWord.getLsbD 29 = p.c ∧
      p.toWord.getLsbD 28 = p.v ∧ p.toWord.extractLsb' 8 20 = p.unused ∧
      p.toWord.getLsbD 7 = p.i ∧ p.toWord.getLsbD 6 = p.f ∧ p.toWord.getLsbD 5 = p.t ∧
      p.toWord.extractLsb' 0 5 = p.mode.number ∧ Psr.ofWord p.toWord = some p) ∧
    (∀ w : Word, Psr.ofWord w = none ↔ w.extractLsb' 0 5 ∉
      [0b10000#5, 0b10001#5, 0b10010#5, 0b10011#5, 0b10111#5, 0b11011#5, 0b11111#5]) ∧
    [Mode.user, .fiq, .irq, .supervisor, .abort, .undefined, .system].map Mode.number =
      [0b10000#5, 0b10001#5, 0b10010#5, 0b10011#5, 0b10111#5, 0b11011#5, 0b11111#5]

/-- What can clear T (R129, R30). -/
def Obligations.ThumbStateLeftOnlyBy : Prop :=
  ∀ (i : Instr) (s t : State), s.cpsr.t = true → exec i s = .next t → t.cpsr.t = false →
    exchanges s.params.arch5t i = true ∨ (∃ n, i = .swi n) ∨
      (accessesMemory i = true ∧ s.params.abortTraps = true) ∨
      (onlyV5t i = true ∧ s.params.arch5t = false ∧ s.params.undefTraps = true)

/-- No Thumb instruction writes I, F, the mode or an SPSR except by an exception it takes (R29, R32,
R263, R268). -/
def Obligations.ControlChangesOnlyByException : Prop :=
  ∀ (i : Instr) (s t : State), exec i s = .next t →
    (t.cpsr.mode = s.cpsr.mode ∧ t.cpsr.i = s.cpsr.i ∧ t.cpsr.f = s.cpsr.f ∧
      t.cpsr.unused = s.cpsr.unused ∧ KeepsSaved s t) ∨
    ∃ e : Exception, ((e = .swi ∧ ∃ n, i = .swi n) ∨
        (e = .dataAbort ∧ accessesMemory i = true ∧ s.params.abortTraps = true) ∨
        (e = .undefined ∧ onlyV5t i = true ∧ s.params.arch5t = false ∧
          s.params.undefTraps = true)) ∧
      t.cpsr.mode = e.mode ∧ t.cpsr.i = true ∧ t.cpsr.f = s.cpsr.f ∧ t.cpsr.t = false ∧
      t.cpsr.unused = s.cpsr.unused ∧ t.spsr e.mode = some s.cpsr ∧
      ∀ m, m ≠ e.mode → t.spsr m = s.spsr m

/-- No load, store, branch, SWI, or Hi-register, SP or PC form other than CMP writes a flag (R28,
R152). -/
def Obligations.FlagsOnlyByDataProcessing : Prop :=
  ∀ (i : Instr) (s t : State), setsFlags i = false → exec i s = .next t → KeepsFlags s t

/-- The sequential advance of R25, and the fault PcWrap of R26 and D5 for every instruction that
would advance from 0xFFFFFFFE and that no other rule stops first. That a refused access may be the
Data Abort is the parameter of assumption log 7 (R58). -/
def Obligations.SequentialAdvance : Prop :=
  (∀ (i : Instr) (s t : State), ¬WritesPc i s → exec i s = .next t →
    (t.pc = s.pc + 2#32 ∧ s.pc ≠ 0xFFFFFFFE#32) ∨
      (accessesMemory i = true ∧ s.params.abortTraps = true ∧ t.pc = 0x00000010#32)) ∧
    ∀ (i : Instr) (s : State), ¬WritesPc i s → s.pc = 0xFFFFFFFE#32 → MayComplete i s →
      exec i s = .fault .pcWrap

/-- An instruction writes only the current mode's bank, and r14 of a mode it enters by an exception
(R23). -/
def Obligations.OtherBanksKept : Prop :=
  ∀ (i : Instr) (s t : State), exec i s = .next t →
    ∀ k : Fin 30, (∀ r : RegNum, r ≠ 15#4 → k ≠ slot s.cpsr.mode r) → k ≠ slot t.cpsr.mode 14#4 →
      t.regs.get k = s.regs.get k

/-- Only the stores of R56 change memory; no next state follows a write into the code region (R63).
-/
def Obligations.MemoryOnlyByStores : Prop :=
  ∀ (i : Instr) (s t : State), Memory.wf s.mem → exec i s = .next t →
    (storesMemory i = false → t.mem = s.mem) ∧
      ∀ c ∈ s.params.code, ∀ a, c.base ≤ a → a < c.base + c.size → t.byteAt a = s.byteAt a

/-- Privilege buys a Thumb instruction nothing (R268): User and System mode, which share their
registers, behave alike, the mode itself, or the mode an exception saves, apart. -/
def Obligations.UserAndSystemAgree : Prop :=
  ∀ (i : Instr) (s : State), s.cpsr.mode = .user →
    (∀ f, exec i s = .fault f ↔ exec i s.asSystem = .fault f) ∧
    ∀ t, exec i s = .next t → exec i s.asSystem = .next t.systemTwin

/-- The rows of R107, each `fault Unpredictable`. -/
def Obligations.ConstrainedFieldsFault : Prop :=
  ∀ s : State,
    (∀ rd rm : RegNum, rd.getLsbD 3 = false → rm.getLsbD 3 = false →
      exec (.addHi rd rm) s = .fault .unpredictable ∧
      exec (.cmpHi rd rm) s = .fault .unpredictable ∧
      exec (.movHi rd rm) s = .fault .unpredictable) ∧
    (∀ rm, exec (.cmpHi 15#4 rm) s = .fault .unpredictable) ∧
    (∀ rm sbz, sbz ≠ 0#3 → exec (.bx rm sbz) s = .fault .unpredictable ∧
      (s.params.arch5t = true → exec (.blxReg rm sbz) s = .fault .unpredictable)) ∧
    (∀ sbz, s.params.arch5t = true → exec (.blxReg 15#4 sbz) s = .fault .unpredictable) ∧
    (∀ rm, (s.reg rm).extractLsb' 0 2 = 0b10#2 → exec (.bx rm 0#3) s = .fault .unpredictable) ∧
    (∀ rn, exec (.ldmia rn 0#8) s = .fault .unpredictable ∧
      exec (.stmia rn 0#8) s = .fault .unpredictable) ∧
    exec (.push false 0#8) s = .fault .unpredictable ∧
    exec (.pop false 0#8) s = .fault .unpredictable ∧
    (∀ (rn : Lo) (l : BitVec 8), l.getLsbD rn.toNat = true → (∃ j < rn.toNat, l.getLsbD j = true) →
      exec (.stmia rn l) s = .fault .unpredictable) ∧
    (∀ (l : BitVec 8) (v : Word), s.params.arch5t = true →
      s.allowsWords .read s.sp (listSize l + 1) → ReadsAs s 4 (s.sp.toNat + 4 * listSize l) v →
      v.extractLsb' 0 2 = 0b10#2 → exec (.pop true l) s = .fault .unpredictable) ∧
    (∀ off11, s.lr.getLsbD 0 = true → exec (.blSuffix off11) s = .fault .unpredictable)

/-- ADD of formats 1, 2 and 3 (R153, R155, R159). -/
def Obligations.AddResults : Prop :=
  ∀ (rd rn rm : Lo) (imm3 : BitVec 3) (imm8 : BitVec 8),
    decode (0b000110#6 ++ 0b0#1 ++ rm ++ rn ++ rd) = .ok (.addReg rd rn rm) ∧
    decode (0b000111#6 ++ 0b0#1 ++ imm3 ++ rn ++ rd) = .ok (.addImm3 rd rn imm3) ∧
    decode (0b001#3 ++ 0b10#2 ++ rd ++ imm8) = .ok (.addImm8 rd imm8) ∧
    ∀ s : State, s.pc ≠ 0xFFFFFFFE#32 →
      (∃ t, exec (.addReg rd rn rm) s = .next t ∧ Summed rd (s.lo rn) (s.lo rm) false s t) ∧
      (∃ t, exec (.addImm3 rd rn imm3) s = .next t ∧
        Summed rd (s.lo rn) (imm3.setWidth 32) false s t) ∧
      ∃ t, exec (.addImm8 rd imm8) s = .next t ∧
        Summed rd (s.lo rd) (imm8.setWidth 32) false s t

/-- SUB of formats 1, 2 and 3 (R154, R156, R160). -/
def Obligations.SubResults : Prop :=
  ∀ (rd rn rm : Lo) (imm3 : BitVec 3) (imm8 : BitVec 8),
    decode (0b000110#6 ++ 0b1#1 ++ rm ++ rn ++ rd) = .ok (.subReg rd rn rm) ∧
    decode (0b000111#6 ++ 0b1#1 ++ imm3 ++ rn ++ rd) = .ok (.subImm3 rd rn imm3) ∧
    decode (0b001#3 ++ 0b11#2 ++ rd ++ imm8) = .ok (.subImm8 rd imm8) ∧
    ∀ s : State, s.pc ≠ 0xFFFFFFFE#32 →
      (∃ t, exec (.subReg rd rn rm) s = .next t ∧ Subtracted rd (s.lo rn) (s.lo rm) false s t) ∧
      (∃ t, exec (.subImm3 rd rn imm3) s = .next t ∧
        Subtracted rd (s.lo rn) (imm3.setWidth 32) false s t) ∧
      ∃ t, exec (.subImm8 rd imm8) s = .next t ∧
        Subtracted rd (s.lo rd) (imm8.setWidth 32) false s t

/-- ADC, SBC and NEG (R169, R170, R173). -/
def Obligations.AdcSbcNegResults : Prop :=
  ∀ rd rm : Lo,
    decode (0b010000#6 ++ 0b0101#4 ++ rm ++ rd) = .ok (.adcReg rd rm) ∧
    decode (0b010000#6 ++ 0b0110#4 ++ rm ++ rd) = .ok (.sbcReg rd rm) ∧
    decode (0b010000#6 ++ 0b1001#4 ++ rm ++ rd) = .ok (.negReg rd rm) ∧
    ∀ s : State, s.pc ≠ 0xFFFFFFFE#32 →
      (∃ t, exec (.adcReg rd rm) s = .next t ∧ Summed rd (s.lo rd) (s.lo rm) s.cpsr.c s t) ∧
      (∃ t, exec (.sbcReg rd rm) s = .next t ∧
        Subtracted rd (s.lo rd) (s.lo rm) (!s.cpsr.c) s t) ∧
      ∃ t, exec (.negReg rd rm) s = .next t ∧ Subtracted rd 0#32 (s.lo rm) false s t

/-- The comparisons on Lo registers and TST (R158, R172, R174, R175). -/
def Obligations.CompareAndTestResults : Prop :=
  ∀ (rn rm : Lo) (imm8 : BitVec 8),
    decode (0b001#3 ++ 0b01#2 ++ rn ++ imm8) = .ok (.cmpImm8 rn imm8) ∧
    decode (0b010000#6 ++ 0b1000#4 ++ rm ++ rn) = .ok (.tstReg rn rm) ∧
    decode (0b010000#6 ++ 0b1010#4 ++ rm ++ rn) = .ok (.cmpReg rn rm) ∧
    decode (0b010000#6 ++ 0b1011#4 ++ rm ++ rn) = .ok (.cmnReg rn rm) ∧
    ∀ s : State, s.pc ≠ 0xFFFFFFFE#32 →
      (∃ t, exec (.cmpImm8 rn imm8) s = .next t ∧
        FlagsOfDifference (s.lo rn) (imm8.setWidth 32) false t ∧ TouchesOnly [] s t ∧
        t.pc = s.pc + 2#32) ∧
      (∃ t, exec (.tstReg rn rm) s = .next t ∧
        t.cpsr.n = ((s.lo rn).getLsbD 31 && (s.lo rm).getLsbD 31) ∧
        (t.cpsr.z = true ↔ ∀ j < 32, ¬((s.lo rn).getLsbD j = true ∧ (s.lo rm).getLsbD j = true)) ∧
        t.cpsr.c = s.cpsr.c ∧ t.cpsr.v = s.cpsr.v ∧ TouchesOnly [] s t ∧ t.pc = s.pc + 2#32) ∧
      (∃ t, exec (.cmpReg rn rm) s = .next t ∧ FlagsOfDifference (s.lo rn) (s.lo rm) false t ∧
        TouchesOnly [] s t ∧ t.pc = s.pc + 2#32) ∧
      ∃ t, exec (.cmnReg rn rm) s = .next t ∧ FlagsOfSum (s.lo rn) (s.lo rm) false t ∧
        TouchesOnly [] s t ∧ t.pc = s.pc + 2#32

/-- The logical operations and MOV of an immediate (R157, R164, R165, R176, R178, R179). -/
def Obligations.LogicalResults : Prop :=
  ∀ (rd rm : Lo) (imm8 : BitVec 8),
    decode (0b001#3 ++ 0b00#2 ++ rd ++ imm8) = .ok (.movImm8 rd imm8) ∧
    decode (0b010000#6 ++ 0b0000#4 ++ rm ++ rd) = .ok (.andReg rd rm) ∧
    decode (0b010000#6 ++ 0b0001#4 ++ rm ++ rd) = .ok (.eorReg rd rm) ∧
    decode (0b010000#6 ++ 0b1100#4 ++ rm ++ rd) = .ok (.orrReg rd rm) ∧
    decode (0b010000#6 ++ 0b1110#4 ++ rm ++ rd) = .ok (.bicReg rd rm) ∧
    decode (0b010000#6 ++ 0b1111#4 ++ rm ++ rd) = .ok (.mvnReg rd rm) ∧
    ∀ s : State, s.pc ≠ 0xFFFFFFFE#32 →
      (∃ t, exec (.movImm8 rd imm8) s = .next t ∧ LogicalResult rd (fun j => imm8.getLsbD j) s t ∧
        t.cpsr.n = false) ∧
      (∃ t, exec (.andReg rd rm) s = .next t ∧
        LogicalResult rd (fun j => (s.lo rd).getLsbD j && (s.lo rm).getLsbD j) s t) ∧
      (∃ t, exec (.eorReg rd rm) s = .next t ∧
        LogicalResult rd (fun j => (s.lo rd).getLsbD j ^^ (s.lo rm).getLsbD j) s t) ∧
      (∃ t, exec (.orrReg rd rm) s = .next t ∧
        LogicalResult rd (fun j => (s.lo rd).getLsbD j || (s.lo rm).getLsbD j) s t) ∧
      (∃ t, exec (.bicReg rd rm) s = .next t ∧
        LogicalResult rd (fun j => (s.lo rd).getLsbD j && !(s.lo rm).getLsbD j) s t) ∧
      ∃ t, exec (.mvnReg rd rm) s = .next t ∧
        LogicalResult rd (fun j => !(s.lo rm).getLsbD j) s t

/-- The shifts by an immediate (R161, R162, R163). -/
def Obligations.ImmediateShifts : Prop :=
  ∀ (rd rm : Lo) (sh : BitVec 5),
    decode (0b000#3 ++ 0b00#2 ++ sh ++ rm ++ rd) = .ok (.lslImm rd rm sh) ∧
    decode (0b000#3 ++ 0b01#2 ++ sh ++ rm ++ rd) = .ok (.lsrImm rd rm sh) ∧
    decode (0b000#3 ++ 0b10#2 ++ sh ++ rm ++ rd) = .ok (.asrImm rd rm sh) ∧
    ∀ s : State, s.pc ≠ 0xFFFFFFFE#32 →
      (sh = 0#5 → ∃ t, exec (.lslImm rd rm sh) s = .next t ∧
        Shifted rd (s.lo rm) s.cpsr.c s t) ∧
      (sh ≠ 0#5 → ∃ t, exec (.lslImm rd rm sh) s = .next t ∧
        Shifted rd (BitVec.ofNat 32 ((s.lo rm).toNat * 2 ^ sh.toNat))
          ((s.lo rm).getLsbD (32 - sh.toNat)) s t) ∧
      ∀ n, n = (if sh = 0#5 then 32 else sh.toNat) →
        (∃ t, exec (.lsrImm rd rm sh) s = .next t ∧
          Shifted rd (BitVec.ofNat 32 ((s.lo rm).toNat / 2 ^ n)) ((s.lo rm).getLsbD (n - 1)) s t) ∧
        ∃ t, exec (.asrImm rd rm sh) s = .next t ∧
          Shifted rd (BitVec.ofInt 32 ((s.lo rm).toInt / 2 ^ n)) ((s.lo rm).getLsbD (n - 1)) s t

/-- The shifts by a register (R166, R167, R168). -/
def Obligations.RegisterShifts : Prop :=
  ∀ rd rs : Lo,
    decode (0b010000#6 ++ 0b0010#4 ++ rs ++ rd) = .ok (.lslReg rd rs) ∧
    decode (0b010000#6 ++ 0b0011#4 ++ rs ++ rd) = .ok (.lsrReg rd rs) ∧
    decode (0b010000#6 ++ 0b0100#4 ++ rs ++ rd) = .ok (.asrReg rd rs) ∧
    ∀ (s : State) (v : Word) (n : Nat), s.pc ≠ 0xFFFFFFFE#32 → v = s.lo rd →
      n = (s.lo rs).toNat % 256 →
      (n = 0 →
        (∃ t, exec (.lslReg rd rs) s = .next t ∧ Shifted rd v s.cpsr.c s t) ∧
        (∃ t, exec (.lsrReg rd rs) s = .next t ∧ Shifted rd v s.cpsr.c s t) ∧
        ∃ t, exec (.asrReg rd rs) s = .next t ∧ Shifted rd v s.cpsr.c s t) ∧
      (1 ≤ n → n < 32 →
        (∃ t, exec (.lslReg rd rs) s = .next t ∧
          Shifted rd (BitVec.ofNat 32 (v.toNat * 2 ^ n)) (v.getLsbD (32 - n)) s t) ∧
        (∃ t, exec (.lsrReg rd rs) s = .next t ∧
          Shifted rd (BitVec.ofNat 32 (v.toNat / 2 ^ n)) (v.getLsbD (n - 1)) s t) ∧
        ∃ t, exec (.asrReg rd rs) s = .next t ∧
          Shifted rd (BitVec.ofInt 32 (v.toInt / 2 ^ n)) (v.getLsbD (n - 1)) s t) ∧
      (32 ≤ n →
        (∃ t, exec (.lslReg rd rs) s = .next t ∧
          Shifted rd 0#32 (decide (n = 32) && v.getLsbD 0) s t) ∧
        (∃ t, exec (.lsrReg rd rs) s = .next t ∧
          Shifted rd 0#32 (decide (n = 32) && v.getLsbD 31) s t) ∧
        ∃ t, exec (.asrReg rd rs) s = .next t ∧
          Shifted rd (if v.getLsbD 31 then 0xFFFFFFFF#32 else 0#32) (v.getLsbD 31) s t)

/-- ROR (R171): for every amount the result is one rotation, and C its top bit but for amount 0. -/
def Obligations.RotateResult : Prop :=
  ∀ rd rs : Lo, decode (0b010000#6 ++ 0b0111#4 ++ rs ++ rd) = .ok (.rorReg rd rs) ∧
    ∀ (s : State) (n : Nat), s.pc ≠ 0xFFFFFFFE#32 → n = (s.lo rs).toNat % 256 →
      ∃ t, exec (.rorReg rd rs) s = .next t ∧
        (∀ j < 32, (t.lo rd).getLsbD j = (s.lo rd).getLsbD ((j + n) % 32)) ∧
        Shifted rd (t.lo rd) (if n = 0 then s.cpsr.c else (t.lo rd).getLsbD 31) s t

/-- MUL (R177, D15). That the C flag before v5T is the free value `Config.freeBit` of the counter
`draws`, which moves on by one, is the model's coding of the draw (assumption log 8): the statement
holds for every value of it. -/
def Obligations.MultiplyResult : Prop :=
  ∀ rd rm : Lo, decode (0b010000#6 ++ 0b1101#4 ++ rm ++ rd) = .ok (.mulReg rd rm) ∧
    ∀ s : State, s.pc ≠ 0xFFFFFFFE#32 →
      ∃ t, exec (.mulReg rd rm) s = .next t ∧ t.lo rd = s.lo rd * s.lo rm ∧
        FlagsNZ (t.lo rd) t ∧ t.cpsr.v = s.cpsr.v ∧ KeepsRegs [loNum rd] s t ∧
        KeepsControl s t ∧ KeepsSaved s t ∧ KeepsOutside s t ∧ KeepsMemory s t ∧
        t.pc = s.pc + 2#32 ∧
        (s.params.arch5t = true → t.cpsr.c = s.cpsr.c ∧ t.draws = s.draws) ∧
        (s.params.arch5t = false →
          t.cpsr.c = Config.freeBit s.draws ∧ t.draws = s.draws + 1)

/-- ADD and MOV of format 6 (R180, R181, R183). -/
def Obligations.HiAddMovResults : Prop :=
  ∀ rd rm : RegNum,
    decode (0b010001#6 ++ 0b00#2 ++ rd.extractLsb' 3 1 ++ rm ++ rd.extractLsb' 0 3) =
      .ok (.addHi rd rm) ∧
    decode (0b010001#6 ++ 0b10#2 ++ rd.extractLsb' 3 1 ++ rm ++ rd.extractLsb' 0 3) =
      .ok (.movHi rd rm) ∧
    ∀ s : State, s.reg 15#4 = s.pc + 4#32 ∧
      ((rd.getLsbD 3 = true ∨ rm.getLsbD 3 = true) → rd ≠ 15#4 → s.pc ≠ 0xFFFFFFFE#32 →
        (∃ t, exec (.addHi rd rm) s = .next t ∧ Moved rd (s.reg rd + s.reg rm) s t) ∧
        ∃ t, exec (.movHi rd rm) s = .next t ∧ Moved rd (s.reg rm) s t) ∧
      (rd = 15#4 →
        exec (.addHi rd rm) s =
          .next { s with pc := (s.pc + 4#32 + s.reg rm) &&& 0xFFFFFFFE#32 } ∧
        exec (.movHi rd rm) s = .next { s with pc := s.reg rm &&& 0xFFFFFFFE#32 }) ∧
      (rd.getLsbD 3 = false → rm.getLsbD 3 = false →
        exec (.addHi rd rm) s = .fault .unpredictable ∧
        exec (.movHi rd rm) s = .fault .unpredictable)

/-- CMP of format 6 (R182). -/
def Obligations.HiCompareResult : Prop :=
  ∀ rn rm : RegNum,
    decode (0b010001#6 ++ 0b01#2 ++ rn.extractLsb' 3 1 ++ rm ++ rn.extractLsb' 0 3) =
      .ok (.cmpHi rn rm) ∧
    ∀ s : State, s.reg 15#4 = s.pc + 4#32 ∧
      ((rn.getLsbD 3 = true ∨ rm.getLsbD 3 = true) → rn ≠ 15#4 → s.pc ≠ 0xFFFFFFFE#32 →
        ∃ t, exec (.cmpHi rn rm) s = .next t ∧ FlagsOfDifference (s.reg rn) (s.reg rm) false t ∧
          TouchesOnly [] s t ∧ t.pc = s.pc + 2#32) ∧
      (rn = 15#4 ∨ (rn.getLsbD 3 = false ∧ rm.getLsbD 3 = false) →
        exec (.cmpHi rn rm) s = .fault .unpredictable)

/-- Address generation and stack pointer adjustment (R184 to R187). -/
def Obligations.AddressAndStackAdjust : Prop :=
  ∀ (rd : Lo) (imm8 : BitVec 8) (imm7 : BitVec 7),
    decode (0b1010#4 ++ 0b0#1 ++ rd ++ imm8) = .ok (.addRdPc rd imm8) ∧
    decode (0b1010#4 ++ 0b1#1 ++ rd ++ imm8) = .ok (.addRdSp rd imm8) ∧
    decode (0b10110000#8 ++ 0b0#1 ++ imm7) = .ok (.addSp imm7) ∧
    decode (0b10110000#8 ++ 0b1#1 ++ imm7) = .ok (.subSp imm7) ∧
    ∀ s : State, s.pc ≠ 0xFFFFFFFE#32 →
      (∃ t, exec (.addRdPc rd imm8) s = .next t ∧
        Moved (loNum rd) (((s.pc + 4#32) &&& 0xFFFFFFFC#32) + BitVec.ofNat 32 (4 * imm8.toNat))
          s t) ∧
      (∃ t, exec (.addRdSp rd imm8) s = .next t ∧
        Moved (loNum rd) (s.sp + BitVec.ofNat 32 (4 * imm8.toNat)) s t) ∧
      (∃ t, exec (.addSp imm7) s = .next t ∧
        Moved 13#4 (s.sp + BitVec.ofNat 32 (4 * imm7.toNat)) s t) ∧
      ∃ t, exec (.subSp imm7) s = .next t ∧
        Moved 13#4 (s.sp - BitVec.ofNat 32 (4 * imm7.toNat)) s t

/-- The conditional branches (R120) with the conditions of R103. -/
def Obligations.ConditionalBranches : Prop :=
  ∀ off8 : BitVec 8,
    decode (0b1101#4 ++ 0b0000#4 ++ off8) = .ok (.beq off8) ∧
    decode (0b1101#4 ++ 0b0001#4 ++ off8) = .ok (.bne off8) ∧
    decode (0b1101#4 ++ 0b0010#4 ++ off8) = .ok (.bcs off8) ∧
    decode (0b1101#4 ++ 0b0011#4 ++ off8) = .ok (.bcc off8) ∧
    decode (0b1101#4 ++ 0b0100#4 ++ off8) = .ok (.bmi off8) ∧
    decode (0b1101#4 ++ 0b0101#4 ++ off8) = .ok (.bpl off8) ∧
    decode (0b1101#4 ++ 0b0110#4 ++ off8) = .ok (.bvs off8) ∧
    decode (0b1101#4 ++ 0b0111#4 ++ off8) = .ok (.bvc off8) ∧
    decode (0b1101#4 ++ 0b1000#4 ++ off8) = .ok (.bhi off8) ∧
    decode (0b1101#4 ++ 0b1001#4 ++ off8) = .ok (.bls off8) ∧
    decode (0b1101#4 ++ 0b1010#4 ++ off8) = .ok (.bge off8) ∧
    decode (0b1101#4 ++ 0b1011#4 ++ off8) = .ok (.blt off8) ∧
    decode (0b1101#4 ++ 0b1100#4 ++ off8) = .ok (.bgt off8) ∧
    decode (0b1101#4 ++ 0b1101#4 ++ off8) = .ok (.ble off8) ∧
    ∀ s : State,
      BranchesWhen (s.cpsr.z = true) (.beq off8) off8 s ∧
      BranchesWhen (s.cpsr.z = false) (.bne off8) off8 s ∧
      BranchesWhen (s.cpsr.c = true) (.bcs off8) off8 s ∧
      BranchesWhen (s.cpsr.c = false) (.bcc off8) off8 s ∧
      BranchesWhen (s.cpsr.n = true) (.bmi off8) off8 s ∧
      BranchesWhen (s.cpsr.n = false) (.bpl off8) off8 s ∧
      BranchesWhen (s.cpsr.v = true) (.bvs off8) off8 s ∧
      BranchesWhen (s.cpsr.v = false) (.bvc off8) off8 s ∧
      BranchesWhen (s.cpsr.c = true ∧ s.cpsr.z = false) (.bhi off8) off8 s ∧
      BranchesWhen (s.cpsr.c = false ∨ s.cpsr.z = true) (.bls off8) off8 s ∧
      BranchesWhen (s.cpsr.n = s.cpsr.v) (.bge off8) off8 s ∧
      BranchesWhen (s.cpsr.n ≠ s.cpsr.v) (.blt off8) off8 s ∧
      BranchesWhen (s.cpsr.z = false ∧ s.cpsr.n = s.cpsr.v) (.bgt off8) off8 s ∧
      BranchesWhen (s.cpsr.z = true ∨ s.cpsr.n ≠ s.cpsr.v) (.ble off8) off8 s

/-- The unconditional branch (R121). -/
def Obligations.UnconditionalBranch : Prop :=
  ∀ (off11 : BitVec 11) (s : State), decode (0b11100#5 ++ off11) = .ok (.b off11) ∧
    exec (.b off11) s = .next { s with pc := branchTarget s.pc (2 * off11.toInt) }

/-- The two halves of BL (R122, R123). -/
def Obligations.BranchLinkHalves : Prop :=
  ∀ (off11 : BitVec 11) (s : State),
    decode (0b1111#4 ++ 0b0#1 ++ off11) = .ok (.blPrefix off11) ∧
    decode (0b1111#4 ++ 0b1#1 ++ off11) = .ok (.blSuffix off11) ∧
    (s.pc ≠ 0xFFFFFFFE#32 → ∃ t, exec (.blPrefix off11) s = .next t ∧
      Moved 14#4 (branchTarget s.pc (4096 * off11.toInt)) s t) ∧
    (s.lr.getLsbD 0 = false → ∃ t, exec (.blSuffix off11) s = .next t ∧
      t.lr = s.pc + 3#32 ∧ t.pc = s.lr + BitVec.ofNat 32 (2 * off11.toNat) ∧
      KeepsFlags s t ∧ TouchesOnly [14#4] s t) ∧
    (s.lr.getLsbD 0 = true → exec (.blSuffix off11) s = .fault .unpredictable)

/-- The net effect of a pair at A and A + 2 (R127). -/
def Obligations.BranchLinkPairs : Prop :=
  ∀ (hi lo : BitVec 11) (lo10 : BitVec 10) (s : State),
    s.pc.getLsbD 0 = false → s.pc ≠ 0xFFFFFFFE#32 →
    (∃ t u, exec (.blPrefix hi) s = .next t ∧ exec (.blSuffix lo) t = .next u ∧
      u.pc = branchTarget s.pc (hi ++ lo ++ 0#1).toInt ∧ u.lr = (s.pc + 4#32) ||| 1#32 ∧
      KeepsFlags s u ∧ TouchesOnly [14#4] s u) ∧
    (s.params.arch5t = true →
      ∃ t u, exec (.blPrefix hi) s = .next t ∧ exec (.blxSuffix lo10) t = .next u ∧
        u.lr = (s.pc + 4#32) ||| 1#32 ∧
        EntersArm [14#4]
          (branchTarget s.pc (hi ++ lo10 ++ 0#2).toInt &&& 0xFFFFFFFC#32) s u)

/-- The second half of BLX (R124). -/
def Obligations.BlxSuffixResult : Prop :=
  ∀ (off10 : BitVec 10) (s : State),
    decode (0b11101#5 ++ off10 ++ 0b0#1) = .ok (.blxSuffix off10) ∧
    (s.params.arch5t = true → ∃ t, exec (.blxSuffix off10) s = .next t ∧
      t.lr = s.pc + 3#32 ∧
      EntersArm [14#4] ((s.lr + BitVec.ofNat 32 (4 * off10.toNat)) &&& 0xFFFFFFFC#32) s t) ∧
    (s.params.arch5t = false → s.params.undefTraps = false →
      exec (.blxSuffix off10) s = .fault .undefinedInstruction)

/-- BX (R125). -/
def Obligations.BranchExchangeResult : Prop :=
  ∀ (rm : RegNum) (sbz : BitVec 3) (s : State),
    decode (0b01000111#8 ++ 0b0#1 ++ rm ++ 0b000#3) = .ok (.bx rm 0#3) ∧
    s.reg 15#4 = s.pc + 4#32 ∧
    ((s.reg rm).getLsbD 0 = true → exec (.bx rm 0#3) s =
      .next { s with pc := s.reg rm &&& 0xFFFFFFFE#32, cpsr := { s.cpsr with t := true } }) ∧
    ((s.reg rm).extractLsb' 0 2 = 0b00#2 → exec (.bx rm 0#3) s =
      .next { s with pc := s.reg rm, cpsr := { s.cpsr with t := false } }) ∧
    ((s.reg rm).extractLsb' 0 2 = 0b10#2 → exec (.bx rm 0#3) s = .fault .unpredictable) ∧
    (sbz ≠ 0#3 → exec (.bx rm sbz) s = .fault .unpredictable)

/-- BLX to a register (R126). -/
def Obligations.BranchLinkExchangeResult : Prop :=
  ∀ (rm : RegNum) (sbz : BitVec 3) (s : State),
    decode (0b01000111#8 ++ 0b1#1 ++ rm ++ 0b000#3) = .ok (.blxReg rm 0#3) ∧
    (s.params.arch5t = true → s.cpsr.t = true →
      (rm ≠ 15#4 → (s.reg rm).getLsbD 0 = true → ∃ t, exec (.blxReg rm 0#3) s = .next t ∧
        t.lr = s.pc + 3#32 ∧ StaysThumb [14#4] (s.reg rm &&& 0xFFFFFFFE#32) s t) ∧
      (rm ≠ 15#4 → (s.reg rm).extractLsb' 0 2 = 0b00#2 →
        ∃ t, exec (.blxReg rm 0#3) s = .next t ∧
          t.lr = s.pc + 3#32 ∧ EntersArm [14#4] (s.reg rm) s t) ∧
      (rm ≠ 15#4 → (s.reg rm).extractLsb' 0 2 = 0b10#2 →
        exec (.blxReg rm 0#3) s = .fault .unpredictable) ∧
      (rm = 15#4 ∨ sbz ≠ 0#3 → exec (.blxReg rm sbz) s = .fault .unpredictable)) ∧
    (s.params.arch5t = false → s.params.undefTraps = false →
      exec (.blxReg rm sbz) s = .fault .undefinedInstruction)

/-- LDR, LDRB and LDRH with a 5-bit offset (R202, R204, R206). What a Data Abort leaves (all kept
but the registers named open) is the model's choice where R256 defines no state (assumption log 7).
-/
def Obligations.LoadsWithOffset : Prop :=
  ∀ (rd rn : Lo) (off5 : BitVec 5),
    decode (0b011#3 ++ 0b0#1 ++ 0b1#1 ++ off5 ++ rn ++ rd) = .ok (.ldrImm rd rn off5) ∧
    decode (0b011#3 ++ 0b1#1 ++ 0b1#1 ++ off5 ++ rn ++ rd) = .ok (.ldrbImm rd rn off5) ∧
    decode (0b1000#4 ++ 0b1#1 ++ off5 ++ rn ++ rd) = .ok (.ldrhImm rd rn off5) ∧
    ∀ s : State,
      LoadResult (.ldrImm rd rn off5) rd .word id (s.lo rn + BitVec.ofNat 32 (4 * off5.toNat))
        [loNum rd, loNum rn] s ∧
      LoadResult (.ldrbImm rd rn off5) rd .byte id (s.lo rn + BitVec.ofNat 32 off5.toNat)
        [loNum rd, loNum rn] s ∧
      LoadResult (.ldrhImm rd rn off5) rd .half id (s.lo rn + BitVec.ofNat 32 (2 * off5.toNat))
        [loNum rd, loNum rn] s

/-- LDR, LDRH and LDRB with a register offset (R211, R212, R213). What a Data Abort leaves (all kept
but the registers named open) is the model's choice where R256 defines no state (assumption log 7).
-/
def Obligations.LoadsIndexed : Prop :=
  ∀ rd rn rm : Lo,
    decode (0b0101#4 ++ 0b100#3 ++ rm ++ rn ++ rd) = .ok (.ldrReg rd rn rm) ∧
    decode (0b0101#4 ++ 0b101#3 ++ rm ++ rn ++ rd) = .ok (.ldrhReg rd rn rm) ∧
    decode (0b0101#4 ++ 0b110#3 ++ rm ++ rn ++ rd) = .ok (.ldrbReg rd rn rm) ∧
    ∀ s : State,
      LoadResult (.ldrReg rd rn rm) rd .word id (s.lo rn + s.lo rm) [loNum rd, loNum rn] s ∧
      LoadResult (.ldrhReg rd rn rm) rd .half id (s.lo rn + s.lo rm) [loNum rd, loNum rn] s ∧
      LoadResult (.ldrbReg rd rn rm) rd .byte id (s.lo rn + s.lo rm) [loNum rd, loNum rn] s

/-- The sign-extending loads (R210, R214). What a Data Abort leaves (all kept but the registers
named open) is the model's choice where R256 defines no state (assumption log 7). -/
def Obligations.LoadsSigned : Prop :=
  ∀ rd rn rm : Lo,
    decode (0b0101#4 ++ 0b011#3 ++ rm ++ rn ++ rd) = .ok (.ldrsbReg rd rn rm) ∧
    decode (0b0101#4 ++ 0b111#3 ++ rm ++ rn ++ rd) = .ok (.ldrshReg rd rn rm) ∧
    ∀ s : State,
      LoadResult (.ldrsbReg rd rn rm) rd .byte
        (fun v => BitVec.ofInt 32 (if v.toNat < 128 then v.toNat else (v.toNat : Int) - 256))
        (s.lo rn + s.lo rm) [loNum rd, loNum rn] s ∧
      LoadResult (.ldrshReg rd rn rm) rd .half
        (fun v => BitVec.ofInt 32 (if v.toNat < 32768 then v.toNat else (v.toNat : Int) - 65536))
        (s.lo rn + s.lo rm) [loNum rd, loNum rn] s

/-- LDR relative to the PC and to the SP (R216, R218). What a Data Abort leaves (all kept but the
registers named open) is the model's choice where R256 defines no state (assumption log 7). -/
def Obligations.LoadsPcAndSp : Prop :=
  ∀ (rd : Lo) (off8 : BitVec 8),
    decode (0b01001#5 ++ rd ++ off8) = .ok (.ldrPc rd off8) ∧
    decode (0b1001#4 ++ 0b1#1 ++ rd ++ off8) = .ok (.ldrSp rd off8) ∧
    ∀ s : State,
      (((s.pc + 4#32) &&& 0xFFFFFFFC#32) + BitVec.ofNat 32 (4 * off8.toNat)).toNat % 4 = 0 ∧
      LoadResult (.ldrPc rd off8) rd .word id
        (((s.pc + 4#32) &&& 0xFFFFFFFC#32) + BitVec.ofNat 32 (4 * off8.toNat)) [loNum rd] s ∧
      LoadResult (.ldrSp rd off8) rd .word id (s.sp + BitVec.ofNat 32 (4 * off8.toNat))
        [loNum rd, 13#4] s

/-- STR, STRB and STRH with a 5-bit offset (R201, R203, R205). That the code region is checked
between alignment and admission is deduced (assumption log 15). What a Data Abort leaves (all kept
but the registers named open) is the model's choice where R256 defines no state (assumption log 7).
-/
def Obligations.StoresWithOffset : Prop :=
  ∀ (rd rn : Lo) (off5 : BitVec 5),
    decode (0b011#3 ++ 0b0#1 ++ 0b0#1 ++ off5 ++ rn ++ rd) = .ok (.strImm rd rn off5) ∧
    decode (0b011#3 ++ 0b1#1 ++ 0b0#1 ++ off5 ++ rn ++ rd) = .ok (.strbImm rd rn off5) ∧
    decode (0b1000#4 ++ 0b0#1 ++ off5 ++ rn ++ rd) = .ok (.strhImm rd rn off5) ∧
    ∀ s : State, Memory.wf s.mem →
      StoreResult (.strImm rd rn off5) rd .word (s.lo rn + BitVec.ofNat 32 (4 * off5.toNat))
        [loNum rn] s ∧
      StoreResult (.strbImm rd rn off5) rd .byte (s.lo rn + BitVec.ofNat 32 off5.toNat)
        [loNum rn] s ∧
      StoreResult (.strhImm rd rn off5) rd .half (s.lo rn + BitVec.ofNat 32 (2 * off5.toNat))
        [loNum rn] s

/-- STR, STRH, STRB with a register offset and STR relative to the SP (R207, R208, R209, R217). That
the code region is checked between alignment and admission is deduced (assumption log 15). What a
Data Abort leaves (all kept but the registers named open) is the model's choice where R256 defines
no state (assumption log 7). -/
def Obligations.StoresIndexedAndSp : Prop :=
  ∀ (rd rn rm : Lo) (off8 : BitVec 8),
    decode (0b0101#4 ++ 0b000#3 ++ rm ++ rn ++ rd) = .ok (.strReg rd rn rm) ∧
    decode (0b0101#4 ++ 0b001#3 ++ rm ++ rn ++ rd) = .ok (.strhReg rd rn rm) ∧
    decode (0b0101#4 ++ 0b010#3 ++ rm ++ rn ++ rd) = .ok (.strbReg rd rn rm) ∧
    decode (0b1001#4 ++ 0b0#1 ++ rd ++ off8) = .ok (.strSp rd off8) ∧
    ∀ s : State, Memory.wf s.mem →
      StoreResult (.strReg rd rn rm) rd .word (s.lo rn + s.lo rm) [loNum rn] s ∧
      StoreResult (.strhReg rd rn rm) rd .half (s.lo rn + s.lo rm) [loNum rn] s ∧
      StoreResult (.strbReg rd rn rm) rd .byte (s.lo rn + s.lo rm) [loNum rn] s ∧
      StoreResult (.strSp rd off8) rd .word (s.sp + BitVec.ofNat 32 (4 * off8.toNat)) [13#4] s

/-- What `MemWrite` and `MemRead` do to the same and to other bytes (R52, R54, R60). -/
def Obligations.ReadAfterWrite : Prop :=
  ∀ (s u : State) (w : Width) (a v : Word), Memory.wf s.mem → memWrite w a v s = .ok u →
    (u.load w a).toNat = v.toNat % 256 ^ widthBytes w ∧
      KeepsMemoryOutside a.toNat (widthBytes w) s u ∧ Memory.wf u.mem ∧
      (u.admits w .read a = true → memRead w .read a u = .ok (u.load w a))

/-- LDMIA (R231, with the stops of R238). AddressWrap where the range ends exactly at 2^32 is
deduced (assumption log 9). What a Data Abort leaves (all kept but the registers named open) is the
model's choice where R256 defines no state (assumption log 7). -/
def Obligations.LdmiaResult : Prop :=
  ∀ (rn : Lo) (l : BitVec 8) (s : State),
    decode (0b1100#4 ++ 0b1#1 ++ rn ++ l) = .ok (.ldmia rn l) ∧
    (l = 0#8 → exec (.ldmia rn l) s = .fault .unpredictable) ∧
    (l ≠ 0#8 →
      (s.allowsWords .read (s.lo rn) (listSize l) → s.pc ≠ 0xFFFFFFFE#32 →
        ∃ t, exec (.ldmia rn l) s = .next t ∧ ListLoaded l (s.lo rn).toNat s t ∧
          (l.getLsbD rn.toNat = false →
            t.lo rn = s.lo rn + BitVec.ofNat 32 (4 * listSize l)) ∧
          KeepsFlags s t ∧ TouchesOnly (loNum rn :: listedNums l) s t ∧ t.pc = s.pc + 2#32) ∧
      TransferStops (.ldmia rn l) .read (s.lo rn) (listSize l) (loNum rn :: listedNums l) s)

/-- STMIA (R232, with the stops of R238). AddressWrap where the range ends exactly at 2^32 is
deduced (assumption log 9). That the code region is checked between alignment and admission is
deduced (assumption log 15). What a Data Abort leaves (all kept but the registers named open) is the
model's choice where R256 defines no state (assumption log 7). -/
def Obligations.StmiaResult : Prop :=
  ∀ (rn : Lo) (l : BitVec 8) (s : State), Memory.wf s.mem →
    decode (0b1100#4 ++ 0b0#1 ++ rn ++ l) = .ok (.stmia rn l) ∧
    (l = 0#8 ∨ (l.getLsbD rn.toNat = true ∧ ∃ j < rn.toNat, l.getLsbD j = true) →
      exec (.stmia rn l) s = .fault .unpredictable) ∧
    (l ≠ 0#8 → (l.getLsbD rn.toNat = true → ∀ j < rn.toNat, l.getLsbD j = false) →
      (s.allowsWords .write (s.lo rn) (listSize l) → s.pc ≠ 0xFFFFFFFE#32 →
        ∃ t, exec (.stmia rn l) s = .next t ∧
          (∀ r : Lo, l.getLsbD r.toNat = true →
            WordAt t ((s.lo rn).toNat + 4 * listRank l r) (s.lo r)) ∧
          t.lo rn = s.lo rn + BitVec.ofNat 32 (4 * listSize l) ∧ KeepsFlags s t ∧
          TouchesOnlyAt [loNum rn] (s.lo rn).toNat (4 * listSize l) s t ∧
          t.pc = s.pc + 2#32) ∧
      TransferStops (.stmia rn l) .write (s.lo rn) (listSize l) [loNum rn] s)

/-- PUSH (R233, with the stops of R238). AddressWrap where the range ends exactly at 2^32 is deduced
(assumption log 9). So PUSH with SP = 0 is AddressWrap. That the code region is checked between
alignment and admission is deduced (assumption log 15). What a Data Abort leaves (all kept but the
registers named open) is the model's choice where R256 defines no state (assumption log 7). -/
def Obligations.PushResult : Prop :=
  ∀ (r : Bool) (l : BitVec 8) (s : State) (n : Nat) (start : Word), Memory.wf s.mem →
    n = listSize l + r.toNat → start = s.sp - BitVec.ofNat 32 (4 * n) →
    decode (0b1011#4 ++ 0b0#1 ++ 0b10#2 ++ BitVec.ofBool r ++ l) = .ok (.push r l) ∧
    (n = 0 → exec (.push r l) s = .fault .unpredictable) ∧
    (n ≠ 0 →
      (s.allowsWords .write start n → s.pc ≠ 0xFFFFFFFE#32 →
        ∃ t, exec (.push r l) s = .next t ∧
          (∀ j : Lo, l.getLsbD j.toNat = true →
            WordAt t (start.toNat + 4 * listRank l j) (s.lo j)) ∧
          (r = true → WordAt t (start.toNat + 4 * listSize l) s.lr) ∧
          t.sp = start ∧ KeepsFlags s t ∧ TouchesOnlyAt [13#4] start.toNat (4 * n) s t ∧
          t.pc = s.pc + 2#32) ∧
      TransferStops (.push r l) .write start n [13#4] s)

/-- POP (R234, with the stops of R238). AddressWrap where the range ends exactly at 2^32 is deduced
(assumption log 9). What a Data Abort leaves (all kept but the registers named open) is the model's
choice where R256 defines no state (assumption log 7). -/
def Obligations.PopResult : Prop :=
  ∀ (r : Bool) (l : BitVec 8) (s : State) (n : Nat), n = listSize l + r.toNat →
    decode (0b1011#4 ++ 0b1#1 ++ 0b10#2 ++ BitVec.ofBool r ++ l) = .ok (.pop r l) ∧
    (n = 0 → exec (.pop r l) s = .fault .unpredictable) ∧
    (n ≠ 0 → TransferStops (.pop r l) .read s.sp n (13#4 :: listedNums l) s) ∧
    (n ≠ 0 → s.allowsWords .read s.sp n →
      (r = false → s.pc ≠ 0xFFFFFFFE#32 → ∃ t, exec (.pop r l) s = .next t ∧
        ListLoaded l s.sp.toNat s t ∧ t.sp = s.sp + BitVec.ofNat 32 (4 * n) ∧ KeepsFlags s t ∧
        TouchesOnly (13#4 :: listedNums l) s t ∧ t.pc = s.pc + 2#32) ∧
      (r = true → s.cpsr.t = true → ∃ v, ReadsAs s 4 (s.sp.toNat + 4 * listSize l) v ∧
        (s.params.arch5t = false ∨ v.getLsbD 0 = true → ∃ t, exec (.pop r l) s = .next t ∧
          ListLoaded l s.sp.toNat s t ∧ t.sp = s.sp + BitVec.ofNat 32 (4 * n) ∧
          StaysThumb (13#4 :: listedNums l) (v &&& 0xFFFFFFFE#32) s t) ∧
        (s.params.arch5t = true → v.extractLsb' 0 2 = 0b00#2 →
          ∃ t, exec (.pop r l) s = .next t ∧
            ListLoaded l s.sp.toNat s t ∧ t.sp = s.sp + BitVec.ofNat 32 (4 * n) ∧
            EntersArm (13#4 :: listedNums l) v s t) ∧
        (s.params.arch5t = true → v.extractLsb' 0 2 = 0b10#2 →
          exec (.pop r l) s = .fault .unpredictable)))

/-- PUSH and POP of the same list are inverse (R230, R233, R234; the note of section 2.7 of the
vectors). -/
def Obligations.PushPopInverse : Prop :=
  ∀ (r : Bool) (l : BitVec 8) (s : State) (n : Nat) (start : Word), Memory.wf s.mem →
    n = listSize l + r.toNat → n ≠ 0 → start = s.sp - BitVec.ofNat 32 (4 * n) →
    s.allowsWords .write start n → s.allowsWords .read start n → s.pc ≠ 0xFFFFFFFE#32 →
    (r = false → s.pc ≠ 0xFFFFFFFC#32 →
      ∃ t u, exec (.push r l) s = .next t ∧ exec (.pop r l) t = .next u ∧ u.regs = s.regs) ∧
    (r = true → s.cpsr.t = true → s.lr.getLsbD 0 = true →
      ∃ t u, exec (.push r l) s = .next t ∧ exec (.pop r l) t = .next u ∧ u.regs = s.regs ∧
        u.cpsr = s.cpsr ∧ u.pc = s.lr &&& 0xFFFFFFFE#32)

/-- The entry to Reset (R252, R259). The link and the saved status are not defined. That everything
else is kept, as R252 says and where R37 and R290 give no value, is the model's choice (assumption
log 11). -/
def Obligations.ResetEntry : Prop :=
  ∀ s : State, ∃ link saved, Entered .reset link saved s (takeException .reset s) ∧
    (takeException .reset s).cpsr.mode = .supervisor ∧
    (takeException .reset s).cpsr.f = true ∧
    (takeException .reset s).pc = 0x00000000#32
end

