-- ==== Sys2Proof/Laws/State.lean ====
section
/-! SUPPORT. One lemma for each field of the state and each update of it, so that no proof unfolds a
record update. -/

namespace Sys2Proof.Machine

@[simp] theorem State.setBankReg_regs (s : State) (m : Mode) (r : RegNum) (v : Word) : (s.setBankReg m r v).regs = s.regs.set (slot m r) v := rfl
@[simp] theorem State.setBankReg_pc (s : State) (m : Mode) (r : RegNum) (v : Word) : (s.setBankReg m r v).pc = s.pc := rfl
@[simp] theorem State.setBankReg_cpsr (s : State) (m : Mode) (r : RegNum) (v : Word) : (s.setBankReg m r v).cpsr = s.cpsr := rfl
@[simp] theorem State.setBankReg_spsrFiq (s : State) (m : Mode) (r : RegNum) (v : Word) : (s.setBankReg m r v).spsrFiq = s.spsrFiq := rfl
@[simp] theorem State.setBankReg_spsrIrq (s : State) (m : Mode) (r : RegNum) (v : Word) : (s.setBankReg m r v).spsrIrq = s.spsrIrq := rfl
@[simp] theorem State.setBankReg_spsrSvc (s : State) (m : Mode) (r : RegNum) (v : Word) : (s.setBankReg m r v).spsrSvc = s.spsrSvc := rfl
@[simp] theorem State.setBankReg_spsrAbt (s : State) (m : Mode) (r : RegNum) (v : Word) : (s.setBankReg m r v).spsrAbt = s.spsrAbt := rfl
@[simp] theorem State.setBankReg_spsrUnd (s : State) (m : Mode) (r : RegNum) (v : Word) : (s.setBankReg m r v).spsrUnd = s.spsrUnd := rfl
@[simp] theorem State.setBankReg_mem (s : State) (m : Mode) (r : RegNum) (v : Word) : (s.setBankReg m r v).mem = s.mem := rfl
@[simp] theorem State.setBankReg_params (s : State) (m : Mode) (r : RegNum) (v : Word) : (s.setBankReg m r v).params = s.params := rfl
@[simp] theorem State.setBankReg_lines (s : State) (m : Mode) (r : RegNum) (v : Word) : (s.setBankReg m r v).lines = s.lines := rfl
@[simp] theorem State.setBankReg_output (s : State) (m : Mode) (r : RegNum) (v : Word) : (s.setBankReg m r v).output = s.output := rfl
@[simp] theorem State.setBankReg_ended (s : State) (m : Mode) (r : RegNum) (v : Word) : (s.setBankReg m r v).ended = s.ended := rfl
@[simp] theorem State.setBankReg_draws (s : State) (m : Mode) (r : RegNum) (v : Word) : (s.setBankReg m r v).draws = s.draws := rfl

@[simp] theorem State.setThumbPc_pc (s : State) (v : Word) : (s.setThumbPc v).pc = v &&& 0xFFFFFFFE#32 := rfl
@[simp] theorem State.setThumbPc_regs (s : State) (v : Word) : (s.setThumbPc v).regs = s.regs := rfl
@[simp] theorem State.setThumbPc_cpsr (s : State) (v : Word) : (s.setThumbPc v).cpsr = s.cpsr := rfl
@[simp] theorem State.setThumbPc_spsrFiq (s : State) (v : Word) : (s.setThumbPc v).spsrFiq = s.spsrFiq := rfl
@[simp] theorem State.setThumbPc_spsrIrq (s : State) (v : Word) : (s.setThumbPc v).spsrIrq = s.spsrIrq := rfl
@[simp] theorem State.setThumbPc_spsrSvc (s : State) (v : Word) : (s.setThumbPc v).spsrSvc = s.spsrSvc := rfl
@[simp] theorem State.setThumbPc_spsrAbt (s : State) (v : Word) : (s.setThumbPc v).spsrAbt = s.spsrAbt := rfl
@[simp] theorem State.setThumbPc_spsrUnd (s : State) (v : Word) : (s.setThumbPc v).spsrUnd = s.spsrUnd := rfl
@[simp] theorem State.setThumbPc_mem (s : State) (v : Word) : (s.setThumbPc v).mem = s.mem := rfl
@[simp] theorem State.setThumbPc_params (s : State) (v : Word) : (s.setThumbPc v).params = s.params := rfl
@[simp] theorem State.setThumbPc_lines (s : State) (v : Word) : (s.setThumbPc v).lines = s.lines := rfl
@[simp] theorem State.setThumbPc_output (s : State) (v : Word) : (s.setThumbPc v).output = s.output := rfl
@[simp] theorem State.setThumbPc_ended (s : State) (v : Word) : (s.setThumbPc v).ended = s.ended := rfl
@[simp] theorem State.setThumbPc_draws (s : State) (v : Word) : (s.setThumbPc v).draws = s.draws := rfl

@[simp] theorem State.setReg_cpsr (s : State) (r : RegNum) (v : Word) : (s.setReg r v).cpsr = s.cpsr := by
  unfold State.setReg; split <;> rfl
@[simp] theorem State.setReg_spsrFiq (s : State) (r : RegNum) (v : Word) : (s.setReg r v).spsrFiq = s.spsrFiq := by
  unfold State.setReg; split <;> rfl
@[simp] theorem State.setReg_spsrIrq (s : State) (r : RegNum) (v : Word) : (s.setReg r v).spsrIrq = s.spsrIrq := by
  unfold State.setReg; split <;> rfl
@[simp] theorem State.setReg_spsrSvc (s : State) (r : RegNum) (v : Word) : (s.setReg r v).spsrSvc = s.spsrSvc := by
  unfold State.setReg; split <;> rfl
@[simp] theorem State.setReg_spsrAbt (s : State) (r : RegNum) (v : Word) : (s.setReg r v).spsrAbt = s.spsrAbt := by
  unfold State.setReg; split <;> rfl
@[simp] theorem State.setReg_spsrUnd (s : State) (r : RegNum) (v : Word) : (s.setReg r v).spsrUnd = s.spsrUnd := by
  unfold State.setReg; split <;> rfl
@[simp] theorem State.setReg_mem (s : State) (r : RegNum) (v : Word) : (s.setReg r v).mem = s.mem := by
  unfold State.setReg; split <;> rfl
@[simp] theorem State.setReg_params (s : State) (r : RegNum) (v : Word) : (s.setReg r v).params = s.params := by
  unfold State.setReg; split <;> rfl
@[simp] theorem State.setReg_lines (s : State) (r : RegNum) (v : Word) : (s.setReg r v).lines = s.lines := by
  unfold State.setReg; split <;> rfl
@[simp] theorem State.setReg_output (s : State) (r : RegNum) (v : Word) : (s.setReg r v).output = s.output := by
  unfold State.setReg; split <;> rfl
@[simp] theorem State.setReg_ended (s : State) (r : RegNum) (v : Word) : (s.setReg r v).ended = s.ended := by
  unfold State.setReg; split <;> rfl
@[simp] theorem State.setReg_draws (s : State) (r : RegNum) (v : Word) : (s.setReg r v).draws = s.draws := by
  unfold State.setReg; split <;> rfl

@[simp] theorem State.setLo_cpsr (s : State) (r : Lo) (v : Word) : (s.setLo r v).cpsr = s.cpsr := by
  simp [State.setLo]
@[simp] theorem State.setLo_spsrFiq (s : State) (r : Lo) (v : Word) : (s.setLo r v).spsrFiq = s.spsrFiq := by
  simp [State.setLo]
@[simp] theorem State.setLo_spsrIrq (s : State) (r : Lo) (v : Word) : (s.setLo r v).spsrIrq = s.spsrIrq := by
  simp [State.setLo]
@[simp] theorem State.setLo_spsrSvc (s : State) (r : Lo) (v : Word) : (s.setLo r v).spsrSvc = s.spsrSvc := by
  simp [State.setLo]
@[simp] theorem State.setLo_spsrAbt (s : State) (r : Lo) (v : Word) : (s.setLo r v).spsrAbt = s.spsrAbt := by
  simp [State.setLo]
@[simp] theorem State.setLo_spsrUnd (s : State) (r : Lo) (v : Word) : (s.setLo r v).spsrUnd = s.spsrUnd := by
  simp [State.setLo]
@[simp] theorem State.setLo_mem (s : State) (r : Lo) (v : Word) : (s.setLo r v).mem = s.mem := by
  simp [State.setLo]
@[simp] theorem State.setLo_params (s : State) (r : Lo) (v : Word) : (s.setLo r v).params = s.params := by
  simp [State.setLo]
@[simp] theorem State.setLo_lines (s : State) (r : Lo) (v : Word) : (s.setLo r v).lines = s.lines := by
  simp [State.setLo]
@[simp] theorem State.setLo_output (s : State) (r : Lo) (v : Word) : (s.setLo r v).output = s.output := by
  simp [State.setLo]
@[simp] theorem State.setLo_ended (s : State) (r : Lo) (v : Word) : (s.setLo r v).ended = s.ended := by
  simp [State.setLo]
@[simp] theorem State.setLo_draws (s : State) (r : Lo) (v : Word) : (s.setLo r v).draws = s.draws := by
  simp [State.setLo]

@[simp] theorem State.setSp_cpsr (s : State) (v : Word) : (s.setSp v).cpsr = s.cpsr := by
  simp [State.setSp]
@[simp] theorem State.setSp_spsrFiq (s : State) (v : Word) : (s.setSp v).spsrFiq = s.spsrFiq := by
  simp [State.setSp]
@[simp] theorem State.setSp_spsrIrq (s : State) (v : Word) : (s.setSp v).spsrIrq = s.spsrIrq := by
  simp [State.setSp]
@[simp] theorem State.setSp_spsrSvc (s : State) (v : Word) : (s.setSp v).spsrSvc = s.spsrSvc := by
  simp [State.setSp]
@[simp] theorem State.setSp_spsrAbt (s : State) (v : Word) : (s.setSp v).spsrAbt = s.spsrAbt := by
  simp [State.setSp]
@[simp] theorem State.setSp_spsrUnd (s : State) (v : Word) : (s.setSp v).spsrUnd = s.spsrUnd := by
  simp [State.setSp]
@[simp] theorem State.setSp_mem (s : State) (v : Word) : (s.setSp v).mem = s.mem := by
  simp [State.setSp]
@[simp] theorem State.setSp_params (s : State) (v : Word) : (s.setSp v).params = s.params := by
  simp [State.setSp]
@[simp] theorem State.setSp_lines (s : State) (v : Word) : (s.setSp v).lines = s.lines := by
  simp [State.setSp]
@[simp] theorem State.setSp_output (s : State) (v : Word) : (s.setSp v).output = s.output := by
  simp [State.setSp]
@[simp] theorem State.setSp_ended (s : State) (v : Word) : (s.setSp v).ended = s.ended := by
  simp [State.setSp]
@[simp] theorem State.setSp_draws (s : State) (v : Word) : (s.setSp v).draws = s.draws := by
  simp [State.setSp]

@[simp] theorem State.setLr_cpsr (s : State) (v : Word) : (s.setLr v).cpsr = s.cpsr := by
  simp [State.setLr]
@[simp] theorem State.setLr_spsrFiq (s : State) (v : Word) : (s.setLr v).spsrFiq = s.spsrFiq := by
  simp [State.setLr]
@[simp] theorem State.setLr_spsrIrq (s : State) (v : Word) : (s.setLr v).spsrIrq = s.spsrIrq := by
  simp [State.setLr]
@[simp] theorem State.setLr_spsrSvc (s : State) (v : Word) : (s.setLr v).spsrSvc = s.spsrSvc := by
  simp [State.setLr]
@[simp] theorem State.setLr_spsrAbt (s : State) (v : Word) : (s.setLr v).spsrAbt = s.spsrAbt := by
  simp [State.setLr]
@[simp] theorem State.setLr_spsrUnd (s : State) (v : Word) : (s.setLr v).spsrUnd = s.spsrUnd := by
  simp [State.setLr]
@[simp] theorem State.setLr_mem (s : State) (v : Word) : (s.setLr v).mem = s.mem := by
  simp [State.setLr]
@[simp] theorem State.setLr_params (s : State) (v : Word) : (s.setLr v).params = s.params := by
  simp [State.setLr]
@[simp] theorem State.setLr_lines (s : State) (v : Word) : (s.setLr v).lines = s.lines := by
  simp [State.setLr]
@[simp] theorem State.setLr_output (s : State) (v : Word) : (s.setLr v).output = s.output := by
  simp [State.setLr]
@[simp] theorem State.setLr_ended (s : State) (v : Word) : (s.setLr v).ended = s.ended := by
  simp [State.setLr]
@[simp] theorem State.setLr_draws (s : State) (v : Word) : (s.setLr v).draws = s.draws := by
  simp [State.setLr]

@[simp] theorem State.setSpsr_regs (s : State) (m : Mode) (p : Psr) : (s.setSpsr m p).regs = s.regs := by
  cases m <;> rfl
@[simp] theorem State.setSpsr_pc (s : State) (m : Mode) (p : Psr) : (s.setSpsr m p).pc = s.pc := by
  cases m <;> rfl
@[simp] theorem State.setSpsr_cpsr (s : State) (m : Mode) (p : Psr) : (s.setSpsr m p).cpsr = s.cpsr := by
  cases m <;> rfl
@[simp] theorem State.setSpsr_mem (s : State) (m : Mode) (p : Psr) : (s.setSpsr m p).mem = s.mem := by
  cases m <;> rfl
@[simp] theorem State.setSpsr_params (s : State) (m : Mode) (p : Psr) : (s.setSpsr m p).params = s.params := by
  cases m <;> rfl
@[simp] theorem State.setSpsr_lines (s : State) (m : Mode) (p : Psr) : (s.setSpsr m p).lines = s.lines := by
  cases m <;> rfl
@[simp] theorem State.setSpsr_output (s : State) (m : Mode) (p : Psr) : (s.setSpsr m p).output = s.output := by
  cases m <;> rfl
@[simp] theorem State.setSpsr_ended (s : State) (m : Mode) (p : Psr) : (s.setSpsr m p).ended = s.ended := by
  cases m <;> rfl
@[simp] theorem State.setSpsr_draws (s : State) (m : Mode) (p : Psr) : (s.setSpsr m p).draws = s.draws := by
  cases m <;> rfl

@[simp] theorem State.tick_lines (s : State) : (s.tick).lines = s.lines.tail := rfl
@[simp] theorem State.tick_regs (s : State) : (s.tick).regs = s.regs := rfl
@[simp] theorem State.tick_pc (s : State) : (s.tick).pc = s.pc := rfl
@[simp] theorem State.tick_cpsr (s : State) : (s.tick).cpsr = s.cpsr := rfl
@[simp] theorem State.tick_spsrFiq (s : State) : (s.tick).spsrFiq = s.spsrFiq := rfl
@[simp] theorem State.tick_spsrIrq (s : State) : (s.tick).spsrIrq = s.spsrIrq := rfl
@[simp] theorem State.tick_spsrSvc (s : State) : (s.tick).spsrSvc = s.spsrSvc := rfl
@[simp] theorem State.tick_spsrAbt (s : State) : (s.tick).spsrAbt = s.spsrAbt := rfl
@[simp] theorem State.tick_spsrUnd (s : State) : (s.tick).spsrUnd = s.spsrUnd := rfl
@[simp] theorem State.tick_mem (s : State) : (s.tick).mem = s.mem := rfl
@[simp] theorem State.tick_params (s : State) : (s.tick).params = s.params := rfl
@[simp] theorem State.tick_output (s : State) : (s.tick).output = s.output := rfl
@[simp] theorem State.tick_ended (s : State) : (s.tick).ended = s.ended := rfl
@[simp] theorem State.tick_draws (s : State) : (s.tick).draws = s.draws := rfl

@[simp] theorem State.store_mem (s : State) (w : Width) (a v : Word) : (s.store w a v).mem = Memory.writeBytes s.mem a.toNat (storeBytes s.params.bigEnd w v) := rfl
@[simp] theorem State.store_regs (s : State) (w : Width) (a v : Word) : (s.store w a v).regs = s.regs := rfl
@[simp] theorem State.store_pc (s : State) (w : Width) (a v : Word) : (s.store w a v).pc = s.pc := rfl
@[simp] theorem State.store_cpsr (s : State) (w : Width) (a v : Word) : (s.store w a v).cpsr = s.cpsr := rfl
@[simp] theorem State.store_spsrFiq (s : State) (w : Width) (a v : Word) : (s.store w a v).spsrFiq = s.spsrFiq := rfl
@[simp] theorem State.store_spsrIrq (s : State) (w : Width) (a v : Word) : (s.store w a v).spsrIrq = s.spsrIrq := rfl
@[simp] theorem State.store_spsrSvc (s : State) (w : Width) (a v : Word) : (s.store w a v).spsrSvc = s.spsrSvc := rfl
@[simp] theorem State.store_spsrAbt (s : State) (w : Width) (a v : Word) : (s.store w a v).spsrAbt = s.spsrAbt := rfl
@[simp] theorem State.store_spsrUnd (s : State) (w : Width) (a v : Word) : (s.store w a v).spsrUnd = s.spsrUnd := rfl
@[simp] theorem State.store_params (s : State) (w : Width) (a v : Word) : (s.store w a v).params = s.params := rfl
@[simp] theorem State.store_lines (s : State) (w : Width) (a v : Word) : (s.store w a v).lines = s.lines := rfl
@[simp] theorem State.store_output (s : State) (w : Width) (a v : Word) : (s.store w a v).output = s.output := rfl
@[simp] theorem State.store_ended (s : State) (w : Width) (a v : Word) : (s.store w a v).ended = s.ended := rfl
@[simp] theorem State.store_draws (s : State) (w : Width) (a v : Word) : (s.store w a v).draws = s.draws := rfl

@[simp] theorem State.freeReg_draws (s : State) (r : RegNum) : (s.freeReg r).draws = s.draws + 1 := by
  simp [State.freeReg]
@[simp] theorem State.freeReg_cpsr (s : State) (r : RegNum) : (s.freeReg r).cpsr = s.cpsr := by
  simp [State.freeReg]
@[simp] theorem State.freeReg_spsrFiq (s : State) (r : RegNum) : (s.freeReg r).spsrFiq = s.spsrFiq := by
  simp [State.freeReg]
@[simp] theorem State.freeReg_spsrIrq (s : State) (r : RegNum) : (s.freeReg r).spsrIrq = s.spsrIrq := by
  simp [State.freeReg]
@[simp] theorem State.freeReg_spsrSvc (s : State) (r : RegNum) : (s.freeReg r).spsrSvc = s.spsrSvc := by
  simp [State.freeReg]
@[simp] theorem State.freeReg_spsrAbt (s : State) (r : RegNum) : (s.freeReg r).spsrAbt = s.spsrAbt := by
  simp [State.freeReg]
@[simp] theorem State.freeReg_spsrUnd (s : State) (r : RegNum) : (s.freeReg r).spsrUnd = s.spsrUnd := by
  simp [State.freeReg]
@[simp] theorem State.freeReg_mem (s : State) (r : RegNum) : (s.freeReg r).mem = s.mem := by
  simp [State.freeReg]
@[simp] theorem State.freeReg_params (s : State) (r : RegNum) : (s.freeReg r).params = s.params := by
  simp [State.freeReg]
@[simp] theorem State.freeReg_lines (s : State) (r : RegNum) : (s.freeReg r).lines = s.lines := by
  simp [State.freeReg]
@[simp] theorem State.freeReg_output (s : State) (r : RegNum) : (s.freeReg r).output = s.output := by
  simp [State.freeReg]
@[simp] theorem State.freeReg_ended (s : State) (r : RegNum) : (s.freeReg r).ended = s.ended := by
  simp [State.freeReg]

@[simp] theorem State.placeInstr_lines (s : State) (h : Half) : (s.placeInstr h).lines = [] := rfl
@[simp] theorem State.placeInstr_ended (s : State) (h : Half) : (s.placeInstr h).ended = false := rfl
@[simp] theorem State.placeInstr_cpsr (s : State) (h : Half) : (s.placeInstr h).cpsr = { s.cpsr with t := true } := rfl
@[simp] theorem State.placeInstr_params (s : State) (h : Half) : (s.placeInstr h).params = s.admitFetch := rfl
@[simp] theorem State.placeInstr_mem (s : State) (h : Half) : (s.placeInstr h).mem = Memory.writeBytes s.mem s.pc.toNat (splitHalf s.params.bigEnd h) := rfl
@[simp] theorem State.placeInstr_regs (s : State) (h : Half) : (s.placeInstr h).regs = s.regs := rfl
@[simp] theorem State.placeInstr_pc (s : State) (h : Half) : (s.placeInstr h).pc = s.pc := rfl
@[simp] theorem State.placeInstr_spsrFiq (s : State) (h : Half) : (s.placeInstr h).spsrFiq = s.spsrFiq := rfl
@[simp] theorem State.placeInstr_spsrIrq (s : State) (h : Half) : (s.placeInstr h).spsrIrq = s.spsrIrq := rfl
@[simp] theorem State.placeInstr_spsrSvc (s : State) (h : Half) : (s.placeInstr h).spsrSvc = s.spsrSvc := rfl
@[simp] theorem State.placeInstr_spsrAbt (s : State) (h : Half) : (s.placeInstr h).spsrAbt = s.spsrAbt := rfl
@[simp] theorem State.placeInstr_spsrUnd (s : State) (h : Half) : (s.placeInstr h).spsrUnd = s.spsrUnd := rfl
@[simp] theorem State.placeInstr_output (s : State) (h : Half) : (s.placeInstr h).output = s.output := rfl
@[simp] theorem State.placeInstr_draws (s : State) (h : Half) : (s.placeInstr h).draws = s.draws := rfl

@[simp] theorem enterException_regs (e : Exception) (l : Word) (p : Psr) (s : State) : (enterException e l p s).regs = s.regs.set (slot e.mode 14#4) l := by
  simp [enterException]
@[simp] theorem enterException_pc (e : Exception) (l : Word) (p : Psr) (s : State) : (enterException e l p s).pc = e.vector := by
  simp [enterException]
@[simp] theorem enterException_cpsr (e : Exception) (l : Word) (p : Psr) (s : State) : (enterException e l p s).cpsr = s.cpsr.entered e := by
  simp [enterException]
@[simp] theorem enterException_mem (e : Exception) (l : Word) (p : Psr) (s : State) : (enterException e l p s).mem = s.mem := by
  simp [enterException]
@[simp] theorem enterException_params (e : Exception) (l : Word) (p : Psr) (s : State) : (enterException e l p s).params = s.params := by
  simp [enterException]
@[simp] theorem enterException_lines (e : Exception) (l : Word) (p : Psr) (s : State) : (enterException e l p s).lines = s.lines := by
  simp [enterException]
@[simp] theorem enterException_output (e : Exception) (l : Word) (p : Psr) (s : State) : (enterException e l p s).output = s.output := by
  simp [enterException]
@[simp] theorem enterException_ended (e : Exception) (l : Word) (p : Psr) (s : State) : (enterException e l p s).ended = s.ended := by
  simp [enterException]
@[simp] theorem enterException_draws (e : Exception) (l : Word) (p : Psr) (s : State) : (enterException e l p s).draws = s.draws := by
  simp [enterException]

@[simp] theorem takeException_pc (e : Exception) (s : State) : (takeException e s).pc = e.vector := by
  cases e <;> simp [takeException]
@[simp] theorem takeException_cpsr (e : Exception) (s : State) : (takeException e s).cpsr = s.cpsr.entered e := by
  cases e <;> simp [takeException]
@[simp] theorem takeException_mem (e : Exception) (s : State) : (takeException e s).mem = s.mem := by
  cases e <;> simp [takeException]
@[simp] theorem takeException_params (e : Exception) (s : State) : (takeException e s).params = s.params := by
  cases e <;> simp [takeException]
@[simp] theorem takeException_lines (e : Exception) (s : State) : (takeException e s).lines = s.lines := by
  cases e <;> simp [takeException]
@[simp] theorem takeException_output (e : Exception) (s : State) : (takeException e s).output = s.output := by
  cases e <;> simp [takeException]
@[simp] theorem takeException_ended (e : Exception) (s : State) : (takeException e s).ended = s.ended := by
  cases e <;> simp [takeException]

@[simp] theorem Psr.setNZ_n (p : Psr) (r : Word) : (p.setNZ r).n = r.getLsbD 31 := rfl
@[simp] theorem Psr.setNZ_z (p : Psr) (r : Word) : (p.setNZ r).z = (r == 0#32) := rfl
@[simp] theorem Psr.setNZ_c (p : Psr) (r : Word) : (p.setNZ r).c = p.c := rfl
@[simp] theorem Psr.setNZ_v (p : Psr) (r : Word) : (p.setNZ r).v = p.v := rfl
@[simp] theorem Psr.setNZ_unused (p : Psr) (r : Word) : (p.setNZ r).unused = p.unused := rfl
@[simp] theorem Psr.setNZ_i (p : Psr) (r : Word) : (p.setNZ r).i = p.i := rfl
@[simp] theorem Psr.setNZ_f (p : Psr) (r : Word) : (p.setNZ r).f = p.f := rfl
@[simp] theorem Psr.setNZ_t (p : Psr) (r : Word) : (p.setNZ r).t = p.t := rfl
@[simp] theorem Psr.setNZ_mode (p : Psr) (r : Word) : (p.setNZ r).mode = p.mode := rfl

@[simp] theorem Psr.setArith_n (p : Psr) (a : AddResult) : (p.setArith a).n = a.value.getLsbD 31 := rfl
@[simp] theorem Psr.setArith_z (p : Psr) (a : AddResult) : (p.setArith a).z = (a.value == 0#32) := rfl
@[simp] theorem Psr.setArith_c (p : Psr) (a : AddResult) : (p.setArith a).c = a.carry := rfl
@[simp] theorem Psr.setArith_v (p : Psr) (a : AddResult) : (p.setArith a).v = a.overflow := rfl
@[simp] theorem Psr.setArith_unused (p : Psr) (a : AddResult) : (p.setArith a).unused = p.unused := rfl
@[simp] theorem Psr.setArith_i (p : Psr) (a : AddResult) : (p.setArith a).i = p.i := rfl
@[simp] theorem Psr.setArith_f (p : Psr) (a : AddResult) : (p.setArith a).f = p.f := rfl
@[simp] theorem Psr.setArith_t (p : Psr) (a : AddResult) : (p.setArith a).t = p.t := rfl
@[simp] theorem Psr.setArith_mode (p : Psr) (a : AddResult) : (p.setArith a).mode = p.mode := rfl

@[simp] theorem Psr.setShift_n (p : Psr) (r : ShiftResult) : (p.setShift r).n = r.value.getLsbD 31 := rfl
@[simp] theorem Psr.setShift_z (p : Psr) (r : ShiftResult) : (p.setShift r).z = (r.value == 0#32) := rfl
@[simp] theorem Psr.setShift_c (p : Psr) (r : ShiftResult) : (p.setShift r).c = r.carry.getD p.c := rfl
@[simp] theorem Psr.setShift_v (p : Psr) (r : ShiftResult) : (p.setShift r).v = p.v := rfl
@[simp] theorem Psr.setShift_unused (p : Psr) (r : ShiftResult) : (p.setShift r).unused = p.unused := rfl
@[simp] theorem Psr.setShift_i (p : Psr) (r : ShiftResult) : (p.setShift r).i = p.i := rfl
@[simp] theorem Psr.setShift_f (p : Psr) (r : ShiftResult) : (p.setShift r).f = p.f := rfl
@[simp] theorem Psr.setShift_t (p : Psr) (r : ShiftResult) : (p.setShift r).t = p.t := rfl
@[simp] theorem Psr.setShift_mode (p : Psr) (r : ShiftResult) : (p.setShift r).mode = p.mode := rfl

@[simp] theorem Psr.entered_n (p : Psr) (e : Exception) : (p.entered e).n = p.n := rfl
@[simp] theorem Psr.entered_z (p : Psr) (e : Exception) : (p.entered e).z = p.z := rfl
@[simp] theorem Psr.entered_c (p : Psr) (e : Exception) : (p.entered e).c = p.c := rfl
@[simp] theorem Psr.entered_v (p : Psr) (e : Exception) : (p.entered e).v = p.v := rfl
@[simp] theorem Psr.entered_unused (p : Psr) (e : Exception) : (p.entered e).unused = p.unused := rfl
@[simp] theorem Psr.entered_i (p : Psr) (e : Exception) : (p.entered e).i = true := rfl
@[simp] theorem Psr.entered_f (p : Psr) (e : Exception) : (p.entered e).f = (p.f || e.disablesFiq) := rfl
@[simp] theorem Psr.entered_t (p : Psr) (e : Exception) : (p.entered e).t = false := rfl
@[simp] theorem Psr.entered_mode (p : Psr) (e : Exception) : (p.entered e).mode = e.mode := rfl

/-- The SPSR of a mode after a write to the SPSR of a mode that has one. -/
theorem State.spsr_setSpsr (s : State) (m m' : Mode) (p : Psr) (h : (s.spsr m).isSome) :
    (s.setSpsr m p).spsr m' = if m' = m then some p else s.spsr m' := by
  cases m <;> cases m' <;> first | rfl | simp_all [State.spsr]

end Sys2Proof.Machine
end

