-- ==== Sys2Proof/Laws/Memory.lean ====
section
/-! SUPPORT. The memory's basic laws: a byte is read back, a write leaves every other byte alone, and
every write keeps the canonical form (20_memory.md R50 to R54). -/

namespace Sys2Proof.Machine

theorem Memory.read_eq_blank {m : Memory} {a : Nat} (h : ∀ c ∈ m, a < c.1) :
    Memory.read m a = Memory.blank := by
  induction m with
  | nil => rfl
  | cons c m ih =>
    have hc := h c (by simp)
    rw [Memory.read, if_neg (by omega)]
    exact ih fun d hd => h d (by simp [hd])

/-- The byte just written is read back, and every other byte is as before (R54). -/
theorem Memory.read_write {m : Memory} (h : Memory.wf m) (a a' : Nat) (b : Byte) :
    Memory.read (Memory.write m a b) a' = if a' = a then b else Memory.read m a' := by
  obtain ⟨hs, -⟩ := h
  induction m with
  | nil =>
    unfold Memory.write
    split <;> simp_all [Memory.read]
  | cons c m ih =>
    obtain ⟨k, x⟩ := c
    have hk : ∀ c ∈ m, k < c.1 := fun c hc => (List.pairwise_cons.mp hs).1 c hc
    have ih := ih (List.pairwise_cons.mp hs).2
    unfold Memory.write
    by_cases h1 : a < k
    · rw [if_pos h1]
      have hb : Memory.read ((k, x) :: m) a = Memory.blank := by
        apply Memory.read_eq_blank
        intro d hd
        rcases List.mem_cons.mp hd with rfl | hd
        · exact h1
        · exact Nat.lt_trans h1 (hk d hd)
      by_cases h2 : b = Memory.blank
      · rw [if_pos h2]
        by_cases h3 : a' = a
        · subst h3
          rw [if_pos rfl, hb, h2]
        · rw [if_neg h3]
      · rw [if_neg h2, Memory.read]
    · rw [if_neg h1]
      by_cases h2 : a = k
      · subst h2
        rw [if_pos rfl]
        by_cases h3 : b = Memory.blank
        · rw [if_pos h3]
          by_cases h4 : a' = a
          · subst h4
            rw [if_pos rfl, h3]
            exact Memory.read_eq_blank hk
          · rw [if_neg h4, Memory.read, if_neg h4]
        · rw [if_neg h3]
          simp only [Memory.read]
          split <;> rfl
      · rw [if_neg h2]
        simp only [Memory.read]
        by_cases h4 : a' = k
        · subst h4
          rw [if_pos rfl, if_neg (fun e => h2 e.symm), if_pos rfl]
        · rw [if_neg h4, if_neg h4]
          exact ih

theorem Memory.mem_write {m : Memory} {a : Nat} {b : Byte} {c : Host.Cell}
    (h : c ∈ Memory.write m a b) : (c = (a, b) ∧ b ≠ Memory.blank) ∨ c ∈ m := by
  induction m with
  | nil =>
    unfold Memory.write at h
    split at h
    · simp at h
    · simp_all
  | cons d m ih =>
    obtain ⟨k, x⟩ := d
    unfold Memory.write at h
    split at h
    · split at h
      · exact .inr h
      · rcases List.mem_cons.mp h with rfl | h
        · exact .inl ⟨rfl, by assumption⟩
        · exact .inr h
    · split at h
      · split at h
        · exact .inr (List.mem_cons_of_mem _ h)
        · rcases List.mem_cons.mp h with rfl | h
          · exact .inl ⟨rfl, by assumption⟩
          · exact .inr (List.mem_cons_of_mem _ h)
      · rcases List.mem_cons.mp h with rfl | h
        · exact .inr (by simp)
        · rcases ih h with h | h
          · exact .inl h
          · exact .inr (List.mem_cons_of_mem _ h)

theorem Memory.pairwise_write {m : Memory} (a : Nat) (b : Byte)
    (h : m.Pairwise fun c d => c.1 < d.1) :
    (Memory.write m a b).Pairwise fun c d => c.1 < d.1 := by
  induction m with
  | nil =>
    unfold Memory.write
    split <;> simp
  | cons d m ih =>
    obtain ⟨k, x⟩ := d
    obtain ⟨hk, hm⟩ := List.pairwise_cons.mp h
    unfold Memory.write
    by_cases h1 : a < k
    · rw [if_pos h1]
      split
      · exact h
      · refine List.pairwise_cons.mpr ⟨fun c hc => ?_, h⟩
        rcases List.mem_cons.mp hc with rfl | hc
        · exact h1
        · exact Nat.lt_trans h1 (hk c hc)
    · rw [if_neg h1]
      by_cases h2 : a = k
      · subst h2
        rw [if_pos rfl]
        split
        · exact hm
        · exact List.pairwise_cons.mpr ⟨hk, hm⟩
      · rw [if_neg h2]
        refine List.pairwise_cons.mpr ⟨fun c hc => ?_, ih hm⟩
        rcases Memory.mem_write hc with ⟨rfl, -⟩ | hc
        · show k < a
          omega
        · exact hk c hc

/-- A write inside the 32-bit space keeps the canonical form. -/
theorem Memory.wf_write {m : Memory} (h : Memory.wf m) {a : Nat} (ha : a < 4294967296) (b : Byte) :
    Memory.wf (Memory.write m a b) := by
  refine ⟨Memory.pairwise_write a b h.1, fun c hc => ?_⟩
  rcases Memory.mem_write hc with ⟨rfl, hb⟩ | hc
  · exact ⟨ha, hb⟩
  · exact h.2 c hc

theorem Memory.wf_writeBytes {m : Memory} (h : Memory.wf m) {a : Nat} {bs : List Byte}
    (ha : a + bs.length ≤ 4294967296) : Memory.wf (Memory.writeBytes m a bs) := by
  induction bs generalizing m a with
  | nil => exact h
  | cons b bs ih =>
    simp only [List.length_cons] at ha
    exact ih (Memory.wf_write h (by omega) b) (by omega)

/-- Each byte written is read back at its place, and every other byte is as before. -/
theorem Memory.read_writeBytes {m : Memory} (h : Memory.wf m) {a : Nat} {bs : List Byte}
    (ha : a + bs.length ≤ 4294967296) (a' : Nat) :
    Memory.read (Memory.writeBytes m a bs) a' =
      if h : a ≤ a' ∧ a' < a + bs.length then bs[a' - a]'(by omega) else Memory.read m a' := by
  induction bs generalizing m a with
  | nil =>
    rw [dif_neg (by simp only [List.length_nil]; omega)]
    rfl
  | cons b bs ih =>
    simp only [List.length_cons] at ha
    rw [Memory.writeBytes, ih (Memory.wf_write h (by omega) b) (by omega)]
    by_cases h1 : a' = a
    · subst h1
      rw [dif_neg (by omega), dif_pos (by simp), Memory.read_write h, if_pos rfl]
      simp
    · by_cases h2 : a + 1 ≤ a' ∧ a' < a + 1 + bs.length
      · rw [dif_pos h2, dif_pos (by simp only [List.length_cons]; omega)]
        have e : a' - a = (a' - (a + 1)) + 1 := by omega
        simp [e]
      · rw [dif_neg h2, dif_neg (by simp only [List.length_cons]; omega),
          Memory.read_write h, if_neg h1]

theorem length_storeBytes (big : Bool) (w : Width) (v : Word) :
    (storeBytes big w v).length = widthBytes w := by
  cases w <;> cases big <;> rfl

/-- The bytes of an aligned access lie in the 32-bit space (R66). -/
theorem aligned_end {w : Width} {addr : Word} (h : alignedTo w addr = true) :
    addr.toNat + widthBytes w ≤ 4294967296 := by
  have := addr.isLt
  cases w <;> simp [alignedTo, widthBytes] at * <;> omega

/-- An aligned store keeps the canonical form. -/
theorem State.store_wf {s : State} (hs : Memory.wf s.mem) {w : Width} {addr v : Word}
    (h : alignedTo w addr = true) : Memory.wf (s.store w addr v).mem := by
  apply Memory.wf_writeBytes hs
  rw [length_storeBytes]
  exact aligned_end h

/-- An aligned store changes the bytes of the access alone (R54). -/
theorem State.byteAt_store {s : State} (hs : Memory.wf s.mem) {w : Width} {addr v : Word}
    (h : alignedTo w addr = true) {a : Nat}
    (ha : a < addr.toNat ∨ addr.toNat + widthBytes w ≤ a) :
    (s.store w addr v).byteAt a = s.byteAt a := by
  have hb := length_storeBytes s.params.bigEnd w v
  unfold State.byteAt State.store
  rw [Memory.read_writeBytes hs (by rw [hb]; exact aligned_end h), dif_neg (by omega)]

/-- The bytes of an aligned store, each at its place. -/
theorem State.byteAt_store_of_lt {s : State} (hs : Memory.wf s.mem) {w : Width} {addr v : Word}
    (h : alignedTo w addr = true) {k : Nat} (hk : k < widthBytes w) :
    (s.store w addr v).byteAt (addr.toNat + k) =
      (storeBytes s.params.bigEnd w v)[k]'(by rw [length_storeBytes]; exact hk) := by
  have hb := length_storeBytes s.params.bigEnd w v
  unfold State.byteAt State.store
  rw [Memory.read_writeBytes hs (by rw [hb]; exact aligned_end h), dif_pos (by omega)]
  simp

/-- The memory at reset is in canonical form. -/
theorem State.reset_mem_wf : Memory.wf State.reset.mem := by decide

end Sys2Proof.Machine
end

