-- ==== Sys2Proof/Laws/Regs.lean ====
section
/-! SUPPORT. Reading a register after writing one (10_state.md R20 to R24). -/

namespace Sys2Proof.Machine

/-- Two registers r0 to r14 of one mode share no storage (R23). -/
theorem slot_inj : ∀ (m : Mode) (r r' : RegNum), r ≠ 15#4 → r' ≠ 15#4 →
    slot m r = slot m r' → r = r' := by
  intro m
  cases m <;> decide

/-- The link register of an exception mode is r14 of that mode and of no other register number. -/
theorem slot_eq_link : ∀ (m m' : Mode) (r : RegNum), r ≠ 15#4 → slot m r = slot m' 14#4 →
    r = 14#4 ∧ m.bank = m'.bank := by
  intro m m'
  cases m <;> cases m' <;> decide

theorem loNum_ne_pc : ∀ r : Lo, loNum r ≠ 15#4 := by decide

theorem loNum_inj : ∀ r r' : Lo, loNum r = loNum r' ↔ r = r' := by decide

/-- r0 to r7 are one storage in every mode (R23). -/
theorem slot_loNum : ∀ (m m' : Mode) (r : Lo), slot m (loNum r) = slot m' (loNum r) := by
  intro m m'
  cases m <;> cases m' <;> decide

theorem get_set_slot (v : Vector Word 30) (k k' : Fin 30) (x : Word) :
    (v.set k x).get k' = if k' = k then x else v.get k' := by
  rw [Vector.get_eq_getElem, Vector.getElem_set, Vector.get_eq_getElem]
  by_cases h : k' = k
  · simp [h]
  · rw [if_neg (fun e => h (Fin.ext e.symm)), if_neg h]

@[simp] theorem State.regs_get_setBankReg (s : State) (m : Mode) (r : RegNum) (v : Word)
    (k : Fin 30) :
    (s.setBankReg m r v).regs.get k = if k = slot m r then v else s.regs.get k := by
  simp [get_set_slot]

/-- Storage after a register write, r15 apart. -/
theorem State.regs_get_setReg (s : State) (r : RegNum) (v : Word) (k : Fin 30) (h : r ≠ 15#4) :
    (s.setReg r v).regs.get k = if k = slot s.cpsr.mode r then v else s.regs.get k := by
  simp [State.setReg, h, get_set_slot]

/-- A write to a register r0 to r14 is read back, and no other register changes. -/
theorem State.reg_setReg (s : State) (r r' : RegNum) (v : Word) (h : r ≠ 15#4) :
    (s.setReg r v).reg r' = if r' = r then v else s.reg r' := by
  by_cases h' : r' = 15#4
  · subst h'
    rw [if_neg (Ne.symm h)]
    simp [State.reg, State.setReg, h]
  · by_cases e : r' = r
    · subst e
      simp [State.reg, h', State.bankReg, State.regs_get_setReg _ _ _ _ h]
    · have : slot s.cpsr.mode r' ≠ slot s.cpsr.mode r := fun q => e (slot_inj _ _ _ h' h q)
      simp [State.reg, h', e, State.bankReg, State.regs_get_setReg _ _ _ _ h, this]

/-- A write to r0 to r14 leaves the pc. -/
theorem State.setReg_pc (s : State) (r : RegNum) (v : Word) (h : r ≠ 15#4) :
    (s.setReg r v).pc = s.pc := by
  simp [State.setReg, h]

@[simp] theorem State.setLo_pc (s : State) (r : Lo) (v : Word) : (s.setLo r v).pc = s.pc :=
  s.setReg_pc _ v (loNum_ne_pc r)

@[simp] theorem State.setSp_pc (s : State) (v : Word) : (s.setSp v).pc = s.pc :=
  s.setReg_pc _ v (by decide)

@[simp] theorem State.setLr_pc (s : State) (v : Word) : (s.setLr v).pc = s.pc :=
  s.setReg_pc _ v (by decide)

@[simp] theorem State.lo_setLo (s : State) (r r' : Lo) (v : Word) :
    (s.setLo r v).lo r' = if r' = r then v else s.lo r' := by
  unfold State.lo State.setLo
  rw [State.reg_setReg _ _ _ _ (loNum_ne_pc r)]
  simp only [loNum_inj]

@[simp] theorem State.regs_get_setLo (s : State) (r : Lo) (v : Word) (k : Fin 30) :
    (s.setLo r v).regs.get k = if k = slot s.cpsr.mode (loNum r) then v else s.regs.get k :=
  s.regs_get_setReg _ v k (loNum_ne_pc r)

@[simp] theorem State.sp_setSp (s : State) (v : Word) : (s.setSp v).sp = v := by
  simp [State.sp, State.setSp, State.reg_setReg]

@[simp] theorem State.lr_setLr (s : State) (v : Word) : (s.setLr v).lr = v := by
  simp [State.lr, State.setLr, State.reg_setReg]

@[simp] theorem State.regs_get_setSp (s : State) (v : Word) (k : Fin 30) :
    (s.setSp v).regs.get k = if k = slot s.cpsr.mode 13#4 then v else s.regs.get k :=
  s.regs_get_setReg _ v k (by decide)

@[simp] theorem State.regs_get_setLr (s : State) (v : Word) (k : Fin 30) :
    (s.setLr v).regs.get k = if k = slot s.cpsr.mode 14#4 then v else s.regs.get k :=
  s.regs_get_setReg _ v k (by decide)

/-- A register r0 to r14 depends on the storage and the mode alone. -/
theorem State.reg_congr (s t : State) (r : RegNum) (h : r ≠ 15#4) (hr : t.regs = s.regs)
    (hm : t.cpsr.mode = s.cpsr.mode) : t.reg r = s.reg r := by
  simp [State.reg, h, State.bankReg, hr, hm]

theorem State.lo_congr (s t : State) (r : Lo) (hr : t.regs = s.regs)
    (hm : t.cpsr.mode = s.cpsr.mode) : t.lo r = s.lo r :=
  s.reg_congr t _ (loNum_ne_pc r) hr hm

end Sys2Proof.Machine
end

