-- ==== Sys2Proof/Laws/Ops.lean ====
section
/-! SUPPORT. For each shared operation, once, everything it can do. -/

namespace Sys2Proof.Machine

/-! ### Ends of an instruction -/

theorem advance_eq (s : State) (h : s.pc ≠ 0xFFFFFFFE#32) :
    advance s = .next { s with pc := s.pc + 2#32 } := by
  rw [advance, if_neg h]

theorem advance_top {s : State} (h : s.pc = 0xFFFFFFFE#32) : advance s = .fault .pcWrap := by
  rw [advance, if_pos h]

theorem advance_next {s t : State} :
    advance s = .next t ↔ s.pc ≠ 0xFFFFFFFE#32 ∧ t = { s with pc := s.pc + 2#32 } := by
  unfold advance
  split <;> simp_all [@eq_comm _ t]

theorem undefinedInstruction_next {s t : State} :
    undefinedInstruction s = .next t ↔
      s.params.undefTraps = true ∧ t = takeException .undefined s := by
  unfold undefinedInstruction
  split <;> simp_all [@eq_comm _ t]

theorem accessStop_next {e : MemStop} {left t : State} :
    accessStop e left = .next t ↔
      e = .refused ∧ left.params.abortTraps = true ∧ t = takeException .dataAbort left := by
  cases e <;> simp only [accessStop] <;> try simp
  split <;> simp_all [@eq_comm _ t]

theorem fetchStop_next {e : MemStop} {s t : State} :
    fetchStop e s = .next t ↔
      e = .refused ∧ s.params.abortTraps = true ∧ t = takeException .prefetchAbort s := by
  cases e <;> simp only [fetchStop] <;> try simp
  split <;> simp_all [@eq_comm _ t]

/-- What BX, BLX and a popped PC can do (R125): go on in Thumb state, or enter ARM state at a word
address. -/
theorem exchange_next {v : Word} {s t : State} :
    exchange v s = .next t ↔
      (v.getLsbD 0 = true ∧
        t = { s with pc := v &&& 0xFFFFFFFE#32, cpsr := { s.cpsr with t := true } }) ∨
      (v.getLsbD 0 = false ∧ v.getLsbD 1 = false ∧
        t = { s with pc := v, cpsr := { s.cpsr with t := false } }) := by
  unfold exchange State.setThumbPc
  split
  · simp_all [@eq_comm _ t]
  · split <;> simp_all [@eq_comm _ t]

theorem branchIf_next {c : Cond} {off : Word} {s t : State} :
    branchIf c off s = .next t ↔
      (condHolds s.cpsr c = true ∧ t = { s with pc := s.pc + 4#32 + off }) ∨
      (condHolds s.cpsr c = false ∧ s.pc ≠ 0xFFFFFFFE#32 ∧ t = { s with pc := s.pc + 2#32 }) := by
  unfold branchIf branchBy
  split
  · simp_all [@eq_comm _ t]
  · simp_all [advance_next]

theorem finishArith_next {rd : Lo} {a : AddResult} {s t : State} :
    finishArith rd a s = .next t ↔ s.pc ≠ 0xFFFFFFFE#32 ∧
      t = { s.setLo rd a.value with cpsr := s.cpsr.setArith a, pc := s.pc + 2#32 } := by
  simp [finishArith, advance_next]

theorem finishCompare_next {a : AddResult} {s t : State} :
    finishCompare a s = .next t ↔ s.pc ≠ 0xFFFFFFFE#32 ∧
      t = { s with cpsr := s.cpsr.setArith a, pc := s.pc + 2#32 } := by
  simp [finishCompare, advance_next]

theorem finishLogic_next {rd : Lo} {r : Word} {s t : State} :
    finishLogic rd r s = .next t ↔ s.pc ≠ 0xFFFFFFFE#32 ∧
      t = { s.setLo rd r with cpsr := s.cpsr.setNZ r, pc := s.pc + 2#32 } := by
  simp [finishLogic, advance_next]

theorem finishTest_next {r : Word} {s t : State} :
    finishTest r s = .next t ↔ s.pc ≠ 0xFFFFFFFE#32 ∧
      t = { s with cpsr := s.cpsr.setNZ r, pc := s.pc + 2#32 } := by
  simp [finishTest, advance_next]

theorem finishShift_next {rd : Lo} {r : ShiftResult} {s t : State} :
    finishShift rd r s = .next t ↔ s.pc ≠ 0xFFFFFFFE#32 ∧
      t = { s.setLo rd r.value with cpsr := s.cpsr.setShift r, pc := s.pc + 2#32 } := by
  simp [finishShift, advance_next]

theorem finishMove_next {rd : RegNum} {v : Word} {s t : State} :
    finishMove rd v s = .next t ↔
      (rd = 15#4 ∧ t = { s with pc := v &&& 0xFFFFFFFE#32 }) ∨
      (rd ≠ 15#4 ∧ s.pc ≠ 0xFFFFFFFE#32 ∧ t = { s.setReg rd v with pc := s.pc + 2#32 }) := by
  unfold finishMove
  by_cases h : rd = 15#4
  · simp [h, State.setReg, State.setThumbPc, @eq_comm _ t]
  · simp [h, advance_next, State.setReg_pc]

/-! ### Memory accesses -/

theorem memRead_ok {w : Width} {k : AccessKind} {a v : Word} {s : State} :
    memRead w k a s = .ok v ↔
      alignedTo w a = true ∧ s.admits w k a = true ∧ v = s.load w a := by
  unfold memRead
  split
  · simp_all
  · split <;> simp_all [@eq_comm _ v]

theorem memRead_refused {w : Width} {k : AccessKind} {a : Word} {s : State} :
    memRead w k a s = .error .refused ↔ alignedTo w a = true ∧ s.admits w k a = false := by
  unfold memRead
  split
  · simp_all
  · split <;> simp_all

/-- An access is in the code region exactly when one of its bytes is (R63): an empty range has none. -/
theorem State.inCode_iff {s : State} {w : Width} {a : Word} :
    s.inCode w a = true ↔ ∃ c ∈ s.params.code, ∃ b, c.base ≤ b ∧ b < c.base + c.size ∧
      a.toNat ≤ b ∧ b < a.toNat + widthBytes w := by
  unfold State.inCode rangeMeets
  simp only [List.any_eq_true, decide_eq_true_eq]
  constructor
  · rintro ⟨c, hc, h⟩
    exact ⟨c, hc, max c.base a.toNat, by omega⟩
  · rintro ⟨c, hc, b, h⟩
    exact ⟨c, hc, by omega⟩

theorem memWrite_ok {w : Width} {a v : Word} {s t : State} :
    memWrite w a v s = .ok t ↔
      alignedTo w a = true ∧ s.inCode w a = false ∧ s.admits w .write a = true ∧
        t = s.store w a v := by
  unfold memWrite
  split
  · simp_all
  · split
    · simp_all
    · split <;> simp_all [@eq_comm _ t]

theorem finishLoad_next {rd : Lo} {base : List RegNum} {w : Width} {ext : Word → Word} {a : Word}
    {s t : State} :
    finishLoad rd base w ext a s = .next t ↔
      (alignedTo w a = true ∧ s.admits w .read a = true ∧ s.pc ≠ 0xFFFFFFFE#32 ∧
        t = { s.setLo rd (ext (s.load w a)) with pc := s.pc + 2#32 }) ∨
      (alignedTo w a = true ∧ s.admits w .read a = false ∧
        (s.freeRegs (loNum rd :: base)).params.abortTraps = true ∧
        t = takeException .dataAbort (s.freeRegs (loNum rd :: base))) := by
  unfold finishLoad
  cases h : memRead w .read a s with
  | ok v =>
    obtain ⟨ha, hm, rfl⟩ := memRead_ok.mp h
    simp [advance_next, ha, hm]
  | error e =>
    have hno : ¬(alignedTo w a = true ∧ s.admits w .read a = true) := fun hh =>
      by simp [memRead, hh.1, hh.2] at h
    rw [accessStop_next]
    constructor
    · rintro ⟨rfl, h1, h2⟩
      obtain ⟨ha, hm⟩ := memRead_refused.mp h
      exact .inr ⟨ha, hm, h1, h2⟩
    · rintro (⟨h1, h2, -⟩ | ⟨h1, h2, h3, h4⟩)
      · exact absurd ⟨h1, h2⟩ hno
      · have := memRead_refused.mpr ⟨h1, h2⟩
        rw [h] at this
        exact ⟨by injection this, h3, h4⟩

theorem finishStore_next {base : List RegNum} {w : Width} {a v : Word} {s t : State} :
    finishStore base w a v s = .next t ↔
      (alignedTo w a = true ∧ s.inCode w a = false ∧ s.admits w .write a = true ∧
        s.pc ≠ 0xFFFFFFFE#32 ∧ t = { s.store w a v with pc := s.pc + 2#32 }) ∨
      (alignedTo w a = true ∧ s.inCode w a = false ∧ s.admits w .write a = false ∧
        (s.freeRegs base).params.abortTraps = true ∧
        t = takeException .dataAbort (s.freeRegs base)) := by
  unfold finishStore memWrite
  by_cases h1 : alignedTo w a = true
  · by_cases h2 : s.inCode w a = true
    · simp [h1, h2, accessStop_next]
    · by_cases h3 : s.admits w .write a = true
      · simp [h1, h2, h3, advance_next]
      · simp [h1, h2, h3, accessStop_next]
  · simp [h1, accessStop_next]

/-! ### Free values change registers, memory words and the counter alone -/

theorem State.freeReg_mode (s : State) (r : RegNum) : (s.freeReg r).cpsr = s.cpsr := by simp

theorem State.freeRegs_keeps (s : State) (rs : List RegNum) :
    (s.freeRegs rs).cpsr = s.cpsr ∧ (s.freeRegs rs).mem = s.mem ∧
      (s.freeRegs rs).params = s.params ∧ (s.freeRegs rs).lines = s.lines ∧
      (s.freeRegs rs).output = s.output ∧ (s.freeRegs rs).ended = s.ended ∧
      (s.freeRegs rs).spsrFiq = s.spsrFiq ∧ (s.freeRegs rs).spsrIrq = s.spsrIrq ∧
      (s.freeRegs rs).spsrSvc = s.spsrSvc ∧ (s.freeRegs rs).spsrAbt = s.spsrAbt ∧
      (s.freeRegs rs).spsrUnd = s.spsrUnd := by
  induction rs generalizing s with
  | nil => simp [State.freeRegs]
  | cons r rs ih =>
    have := ih (s.freeReg r)
    simpa [State.freeRegs] using this

/-- Registers r0 to r14 outside the list keep their values. -/
theorem State.regs_get_freeRegs (s : State) (rs : List RegNum) (k : Fin 30)
    (hr : ∀ r ∈ rs, r ≠ 15#4) (hk : ∀ r ∈ rs, k ≠ slot s.cpsr.mode r) :
    (s.freeRegs rs).regs.get k = s.regs.get k := by
  induction rs generalizing s with
  | nil => rfl
  | cons r rs ih =>
    have h1 := hr r (by simp)
    show ((s.freeReg r).freeRegs rs).regs.get k = _
    rw [ih (s.freeReg r) (fun q hq => hr q (by simp [hq])) (fun q hq => by
      simpa using hk q (by simp [hq]))]
    have : (s.freeReg r).regs = (s.setReg r (Config.freeWord s.draws)).regs := rfl
    rw [this, State.regs_get_setReg _ _ _ _ h1, if_neg (hk r (by simp))]

theorem State.freeStored_wf {s : State} (h : Memory.wf s.mem) (a : Word) :
    Memory.wf (s.freeStored a).mem := by
  unfold State.freeStored
  split
  · rename_i s' h'
    obtain ⟨ha, -, -, rfl⟩ := memWrite_ok.mp h'
    exact State.store_wf h ha
  · exact h

theorem State.freeStored_keeps (s : State) (a : Word) :
    (s.freeStored a).regs = s.regs ∧ (s.freeStored a).cpsr = s.cpsr ∧
      (s.freeStored a).params = s.params ∧ (s.freeStored a).lines = s.lines ∧
      (s.freeStored a).output = s.output ∧ (s.freeStored a).ended = s.ended ∧
      (s.freeStored a).pc = s.pc := by
  unfold State.freeStored
  split
  · rename_i s' h'
    obtain ⟨-, -, -, rfl⟩ := memWrite_ok.mp h'
    simp
  · simp

theorem State.freeStoredWords_wf {s : State} (h : Memory.wf s.mem) (a : Word) (n : Nat) :
    Memory.wf (s.freeStoredWords a n).mem := by
  unfold State.freeStoredWords
  induction n with
  | zero => exact h
  | succ n ih =>
    rw [List.range_succ, List.foldl_append]
    exact State.freeStored_wf ih _

theorem State.freeStoredWords_keeps (s : State) (a : Word) (n : Nat) :
    (s.freeStoredWords a n).regs = s.regs ∧ (s.freeStoredWords a n).cpsr = s.cpsr ∧
      (s.freeStoredWords a n).params = s.params ∧ (s.freeStoredWords a n).lines = s.lines ∧
      (s.freeStoredWords a n).output = s.output ∧ (s.freeStoredWords a n).ended = s.ended ∧
      (s.freeStoredWords a n).pc = s.pc := by
  unfold State.freeStoredWords
  induction n with
  | zero => simp
  | succ n ih =>
    rw [List.range_succ, List.foldl_append]
    have := State.freeStored_keeps
      ((List.range n).foldl (fun t k => t.freeStored (wordAddr a k)) s) (wordAddr a n)
    simpa [ih] using this

/-! ### Multiple transfers -/

/-- The words a multiple load reads, when it reads them all (R57, R230). -/
theorem readWords_ok {n : Nat} {a : Word} {s : State} {vs : List Word}
    (h : readWords n a s = .ok vs) :
    vs.length = n ∧ ∀ k (hk : k < vs.length), vs[k] = s.load .word (wordAddr a k) ∧
      alignedTo .word (wordAddr a k) = true ∧ s.admits .word .read (wordAddr a k) = true := by
  induction n generalizing a vs with
  | zero =>
    simp only [readWords] at h
    injection h with h
    subst h
    simp
  | succ n ih =>
    simp only [readWords] at h
    cases h1 : memRead .word .read a s with
    | error e => simp [h1] at h
    | ok v =>
      cases h2 : readWords n (a + 4#32) s with
      | error e => simp [h1, h2] at h
      | ok ws =>
        simp only [h1, h2] at h
        injection h with h
        subst h
        obtain ⟨ha, hm, rfl⟩ := memRead_ok.mp h1
        obtain ⟨hl, hw⟩ := ih h2
        refine ⟨by simp [hl], fun k hk => ?_⟩
        cases k with
        | zero => simp [wordAddr, ha, hm]
        | succ k =>
          have e : wordAddr (a + 4#32) k = wordAddr a (k + 1) := by
            unfold wordAddr
            rw [BitVec.add_assoc, ← BitVec.ofNat_add]
            congr 2
            omega
          have := hw k (by simpa using hk)
          rw [e] at this
          simpa using this

/-- A multiple store changes memory alone, and keeps its canonical form (R57, R230). -/
theorem writeWords_ok {vs : List Word} {a : Word} {s t : State}
    (h : writeWords vs a s = .ok t) :
    t = { s with mem := t.mem } ∧ (Memory.wf s.mem → Memory.wf t.mem) := by
  induction vs generalizing a s with
  | nil =>
    simp only [writeWords] at h
    injection h with h
    subst h
    exact ⟨rfl, id⟩
  | cons v vs ih =>
    simp only [writeWords] at h
    cases h1 : memWrite .word a v s with
    | error e => simp [h1] at h
    | ok s' =>
      simp only [h1] at h
      obtain ⟨ha, -, -, rfl⟩ := memWrite_ok.mp h1
      obtain ⟨h2, h3⟩ := ih h
      exact ⟨h2, fun hw => h3 (State.store_wf hw ha)⟩

theorem multiRead_ok {n : Nat} {a : Word} {s : State} {vs : List Word} :
    multiRead n a s = .ok vs ↔
      alignedTo .word a = true ∧ passesTop a n = false ∧ readWords n a s = .ok vs := by
  unfold multiRead
  split
  · simp_all
  · split <;> simp_all

theorem multiWrite_ok {vs : List Word} {a : Word} {s t : State} :
    multiWrite vs a s = .ok t ↔
      alignedTo .word a = true ∧ passesTop a vs.length = false ∧ writeWords vs a s = .ok t := by
  unfold multiWrite
  split
  · simp_all
  · split <;> simp_all

/-- Loading a list of registers changes Lo registers alone. -/
theorem State.setList_keeps (s : State) (rs : List Lo) (vs : List Word) :
    (s.setList rs vs).cpsr = s.cpsr ∧ (s.setList rs vs).mem = s.mem ∧
      (s.setList rs vs).pc = s.pc ∧ (s.setList rs vs).params = s.params ∧
      (s.setList rs vs).lines = s.lines ∧ (s.setList rs vs).output = s.output ∧
      (s.setList rs vs).ended = s.ended ∧ (s.setList rs vs).draws = s.draws := by
  unfold State.setList
  generalize rs.zip vs = ps
  induction ps generalizing s with
  | nil => simp
  | cons p ps ih =>
    have := ih (s.setLo p.1 p.2)
    simpa using this

/-! ### Exceptions -/

/-- Where taking an exception writes (R252): r14 of the new mode, and no other register. -/
theorem takeException_regs (e : Exception) (s : State) (he : e ≠ .reset) (k : Fin 30) :
    (takeException e s).regs.get k =
      if k = slot e.mode 14#4 then s.pc + e.linkOffset else s.regs.get k := by
  cases e <;> first | exact absurd rfl he | simp [takeException, get_set_slot]

/-- Taking an exception saves the CPSR in the SPSR of the new mode and in no other (R252). -/
theorem takeException_spsr (e : Exception) (s : State) (he : e ≠ .reset) (m : Mode) :
    (takeException e s).spsr m = if m = e.mode then some s.cpsr else s.spsr m := by
  cases e <;> first
    | exact absurd rfl he
    | (cases m <;> rfl)

end Sys2Proof.Machine
end

