-- ==== Sys2Proof/Laws/Exec.lean ====
section
/-! SUPPORT. What running one instruction can do to everything but its results: said once, for all
instructions, by `exec_cases`. -/

namespace Sys2Proof.Machine

/-! ### Taking an exception -/

/-- Every vector is a multiple of 4 (R260). -/
theorem takeException_aligned (e : Exception) (s : State) : (takeException e s).PcAligned := by
  unfold State.PcAligned
  simp
  cases e <;> decide

/-! ### States that differ in registers of the current mode alone -/

/-- `u` is `s` with other values in registers r0 to r14 of the current mode. -/
structure RegsOnly (s u : State) : Prop where
  eq : u = { s with regs := u.regs }
  banks : ∀ k, (∀ r : RegNum, r ≠ 15#4 → k ≠ slot s.cpsr.mode r) → u.regs.get k = s.regs.get k

theorem RegsOnly.refl (s : State) : RegsOnly s s := ⟨rfl, fun _ _ => rfl⟩

theorem RegsOnly.setReg {s u : State} (h : RegsOnly s u) (r : RegNum) (v : Word) (hr : r ≠ 15#4) :
    RegsOnly s (u.setReg r v) := by
  refine ⟨?_, fun k hk => ?_⟩
  · rw [h.eq]
    simp [State.setReg, hr, State.setBankReg]
  · have : u.cpsr = s.cpsr := by rw [h.eq]
    rw [State.regs_get_setReg _ _ _ _ hr, this, if_neg (hk r hr)]
    exact h.banks k hk

theorem RegsOnly.setLo {s u : State} (h : RegsOnly s u) (r : Lo) (v : Word) :
    RegsOnly s (u.setLo r v) :=
  h.setReg _ v (loNum_ne_pc r)

theorem RegsOnly.setSp {s u : State} (h : RegsOnly s u) (v : Word) : RegsOnly s (u.setSp v) :=
  h.setReg _ v (by decide)

theorem RegsOnly.setLr {s u : State} (h : RegsOnly s u) (v : Word) : RegsOnly s (u.setLr v) :=
  h.setReg _ v (by decide)

theorem RegsOnly.setList {s u : State} (h : RegsOnly s u) (rs : List Lo) (vs : List Word) :
    RegsOnly s (u.setList rs vs) := by
  unfold State.setList
  generalize rs.zip vs = ps
  induction ps generalizing u with
  | nil => exact h
  | cons p ps ih => exact ih (h.setLo _ _)

theorem RegsOnly.writeBackBase {s u : State} (h : RegsOnly s u) (rn : Lo) (l : BitVec 8)
    (a : Word) : RegsOnly s (u.writeBackBase rn l a) := by
  unfold State.writeBackBase
  split
  · exact h
  · exact h.setLo _ _

/-- Registers apart, such a state keeps everything, whatever pc it is given. -/
theorem RegsOnly.keeps {s u : State} (h : RegsOnly s u) (p : Word) :
    KeepsFlags s { u with pc := p } ∧ KeepsControl s { u with pc := p } ∧
      KeepsSaved s { u with pc := p } ∧ KeepsOutside s { u with pc := p } ∧
      KeepsMemory s { u with pc := p } ∧ u.draws = s.draws ∧ u.pc = s.pc ∧ u.cpsr = s.cpsr := by
  obtain ⟨h, -⟩ := h
  generalize u.regs = rg at h
  subst h
  exact ⟨⟨rfl, rfl, rfl, rfl⟩, ⟨rfl, rfl, rfl, rfl, rfl⟩, fun m => by cases m <;> rfl,
    ⟨rfl, rfl, rfl, rfl⟩, fun _ => rfl, rfl, rfl, rfl⟩

/-! ### Stores and the code region -/

/-- Every byte of the declared code region reads as before (R63). -/
def CodeKept (s t : State) : Prop :=
  ∀ c ∈ s.params.code, ∀ a, c.base ≤ a → a < c.base + c.size → t.byteAt a = s.byteAt a

theorem CodeKept.refl (s : State) : CodeKept s s := fun _ _ _ _ _ => rfl

theorem codeKept_store {s : State} {w : Width} {a v : Word} (hw : Memory.wf s.mem)
    (ha : alignedTo w a = true) (hc : s.inCode w a = false) : CodeKept s (s.store w a v) := by
  intro c hcm b hb1 hb2
  apply State.byteAt_store hw ha
  by_contra hcon
  have : s.inCode w a = true := State.inCode_iff.mpr ⟨c, hcm, b, by omega⟩
  simp [this] at hc

theorem codeKept_writeWords {vs : List Word} {a : Word} {s t : State}
    (h : writeWords vs a s = .ok t) (hw : Memory.wf s.mem) : CodeKept s t := by
  induction vs generalizing a s with
  | nil =>
    simp only [writeWords] at h
    injection h with h
    subst h
    exact CodeKept.refl s
  | cons v vs ih =>
    simp only [writeWords] at h
    cases h1 : memWrite .word a v s with
    | error e => simp [h1] at h
    | ok s' =>
      simp only [h1] at h
      obtain ⟨ha, hc, -, rfl⟩ := memWrite_ok.mp h1
      have h3 := ih h (State.store_wf hw ha)
      intro c hcm b hb1 hb2
      rw [h3 c hcm b hb1 hb2, codeKept_store hw ha hc c hcm b hb1 hb2]

theorem codeKept_freeStoredWords {s : State} (hw : Memory.wf s.mem) (a : Word) (n : Nat) :
    CodeKept s (s.freeStoredWords a n) := by
  unfold State.freeStoredWords
  induction n with
  | zero => exact CodeKept.refl s
  | succ n ih =>
    rw [List.range_succ, List.foldl_append]
    have hwf := State.freeStoredWords_wf hw a n
    have hk := State.freeStoredWords_keeps s a n
    unfold State.freeStoredWords at hwf hk
    generalize (List.range n).foldl (fun t k => t.freeStored (wordAddr a k)) s = u at *
    simp only [List.foldl]
    intro c hcm b h1 h2
    rw [← ih c hcm b h1 h2]
    unfold State.freeStored
    split
    · rename_i s' h'
      obtain ⟨ha, hc, -, rfl⟩ := memWrite_ok.mp h'
      exact codeKept_store hwf ha hc c (by rw [hk.2.2.1]; exact hcm) b h1 h2
    · rfl

theorem State.spsr_freeStoredWords (s : State) (a : Word) (n : Nat) (m : Mode) :
    (s.freeStoredWords a n).spsr m = s.spsr m := by
  unfold State.freeStoredWords
  induction n with
  | zero => rfl
  | succ n ih =>
    rw [List.range_succ, List.foldl_append]
    simp only [List.foldl]
    rw [← ih]
    unfold State.freeStored
    split
    · rename_i s' h'
      obtain ⟨-, -, -, rfl⟩ := memWrite_ok.mp h'
      cases m <;> rfl
    · rfl

theorem State.pc_freeRegs (s : State) (rs : List RegNum) (hr : ∀ r ∈ rs, r ≠ 15#4) :
    (s.freeRegs rs).pc = s.pc := by
  induction rs generalizing s with
  | nil => rfl
  | cons r rs ih =>
    show ((s.freeReg r).freeRegs rs).pc = _
    rw [ih _ (fun q hq => hr q (by simp [hq]))]
    exact State.setReg_pc _ _ _ (hr r (by simp))

/-! ### The two ways an instruction ends in a next state -/

/-- What an instruction that takes no exception leaves alone. -/
structure Ordinary (i : Instr) (s t : State) : Prop where
  mode : t.cpsr.mode = s.cpsr.mode
  irqMask : t.cpsr.i = s.cpsr.i
  fiqMask : t.cpsr.f = s.cpsr.f
  unused : t.cpsr.unused = s.cpsr.unused
  saved : KeepsSaved s t
  thumb : t.cpsr.t = s.cpsr.t ∨ t.cpsr.t = true ∨ exchanges s.params.arch5t i = true
  params : t.params = s.params
  lines : t.lines = s.lines
  output : t.output = s.output ∨ ∃ b, t.output = s.output ++ [b]
  mem : t.mem = s.mem ∨ storesMemory i = true
  wf : Memory.wf s.mem → Memory.wf t.mem ∧ CodeKept s t
  banks : ∀ k, (∀ r : RegNum, r ≠ 15#4 → k ≠ slot s.cpsr.mode r) → t.regs.get k = s.regs.get k
  flags : setsFlags i = true ∨ KeepsFlags s t
  pc : WritesPc i s ∨ (t.pc = s.pc + 2#32 ∧ s.pc ≠ 0xFFFFFFFE#32)
  aligned : s.cpsr.t = true → s.pc.getLsbD 0 = false → t.PcAligned

/-- The state an exception is entered from: an aborted instruction may have left its registers and the
words it stores with free values (R256), and nothing else. -/
structure Interrupted (i : Instr) (s u : State) : Prop where
  cpsr : u.cpsr = s.cpsr
  pc : u.pc = s.pc
  saved : KeepsSaved s u
  params : u.params = s.params
  lines : u.lines = s.lines
  output : u.output = s.output
  mem : u.mem = s.mem ∨ storesMemory i = true
  wf : Memory.wf s.mem → Memory.wf u.mem ∧ CodeKept s u
  banks : ∀ k, (∀ r : RegNum, r ≠ 15#4 → k ≠ slot s.cpsr.mode r) → u.regs.get k = s.regs.get k

/-- An instruction that answers a next state runs to its end or takes one of three exceptions. -/
inductive Ends (i : Instr) (s t : State) : Prop
  | ordinary (h : Ordinary i s t)
  | exception (e : Exception) (u : State) (h : Interrupted i s u) (ht : t = takeException e u)
      (why : (e = .swi ∧ ∃ n, i = .swi n ∧ s.hostAction n = none) ∨
        (e = .dataAbort ∧ accessesMemory i = true ∧ s.params.abortTraps = true) ∨
        (e = .undefined ∧ onlyV5t i = true ∧ s.params.arch5t = false ∧
          s.params.undefTraps = true))

theorem Interrupted.refl (i : Instr) (s : State) : Interrupted i s s :=
  ⟨rfl, rfl, fun _ => rfl, rfl, rfl, rfl, .inl rfl, fun h => ⟨h, CodeKept.refl s⟩, fun _ _ => rfl⟩

theorem Interrupted.freeRegs {i : Instr} {s u : State} (h : Interrupted i s u) (rs : List RegNum)
    (hr : ∀ r ∈ rs, r ≠ 15#4) : Interrupted i s (u.freeRegs rs) := by
  obtain ⟨k1, k2, k3, k4, k5, k6, k7, k8, k9, k10, k11⟩ := State.freeRegs_keeps u rs
  refine ⟨k1.trans h.cpsr, (State.pc_freeRegs u rs hr).trans h.pc, fun m => ?_, k3.trans h.params,
    k4.trans h.lines, k5.trans h.output, ?_, fun hw => ?_, fun k hk => ?_⟩
  · rw [← h.saved m]
    cases m <;> simp [State.spsr, *]
  · rw [k2]
    exact h.mem
  · rw [k2]
    refine ⟨(h.wf hw).1, fun c hc a h1 h2 => ?_⟩
    rw [← (h.wf hw).2 c hc a h1 h2]
    unfold State.byteAt
    rw [k2]
  · rw [State.regs_get_freeRegs _ _ _ hr (fun r hr' => by rw [h.cpsr]; exact hk r (hr r hr'))]
    exact h.banks k hk

theorem Interrupted.freeStoredWords {i : Instr} (s : State) (a : Word) (n : Nat)
    (h : storesMemory i = true) : Interrupted i s (s.freeStoredWords a n) := by
  obtain ⟨k1, k2, k3, k4, k5, k6, k7⟩ := State.freeStoredWords_keeps s a n
  exact ⟨k2, k7, State.spsr_freeStoredWords s a n, k3, k4, k5, .inr h,
    fun hw => ⟨State.freeStoredWords_wf hw a n, codeKept_freeStoredWords hw a n⟩,
    fun k _ => by rw [k1]⟩

/-- A state given by its changed fields is an ordinary end. -/
theorem Ends.mk {i : Instr} {s u t : State} (hu : RegsOnly s u) {m : Memory} {p : Psr} {a : Word}
    {o : List Byte} {b : Bool} {d : Nat}
    (ht : t = { u with cpsr := p, pc := a, mem := m, output := o, ended := b, draws := d })
    (hp : p = { s.cpsr with n := p.n, z := p.z, c := p.c, v := p.v, t := p.t })
    (htb : p.t = s.cpsr.t ∨ p.t = true ∨ exchanges s.params.arch5t i = true)
    (ho : o = s.output ∨ ∃ b, o = s.output ++ [b]) (hm : m = s.mem ∨ storesMemory i = true)
    (hwf : Memory.wf s.mem → Memory.wf m ∧ CodeKept s { s with mem := m })
    (hfl : setsFlags i = true ∨
      (p.n = s.cpsr.n ∧ p.z = s.cpsr.z ∧ p.c = s.cpsr.c ∧ p.v = s.cpsr.v))
    (hpc : WritesPc i s ∨ (a = s.pc + 2#32 ∧ s.pc ≠ 0xFFFFFFFE#32))
    (hal : s.cpsr.t = true → s.pc.getLsbD 0 = false →
      a.getLsbD 0 = false ∧ (p.t = false → a.getLsbD 1 = false)) : Ends i s t := by
  obtain ⟨he, hb⟩ := hu
  subst ht
  generalize u.regs = rg at he hb
  subst he
  exact .ordinary ⟨by rw [hp], by rw [hp], by rw [hp], by rw [hp], fun m => by cases m <;> rfl, htb,
    rfl, rfl, ho, hm, fun hw => ⟨(hwf hw).1, (hwf hw).2⟩, hb, hfl, hpc, hal⟩

theorem even_add (p q : Word) (h : p.getLsbD 0 = false) (h' : q.getLsbD 0 = false) :
    (p + q).getLsbD 0 = false := by
  have := BitVec.getLsbD_add (i := 0) (by decide) p q
  rw [this]
  simp [BitVec.carry] at *
  simp [h, h']
  omega

theorem even_mask (v : Word) : (v &&& 0xFFFFFFFE#32).getLsbD 0 = false := by simp

theorem even_offset8 (o : BitVec 8) : (offset8 o).getLsbD 0 = false := by
  revert o
  decide

theorem even_offset11 (o : BitVec 11) : (offset11 o).getLsbD 0 = false := by
  unfold offset11
  rw [BitVec.getLsbD_signExtend, BitVec.getLsbD_append]
  simp

/-- The end that moves on by one instruction. -/
theorem Ends.sequential {i : Instr} {s u t : State} (hu : RegsOnly s u) {p : Psr} {d : Nat}
    (hne : s.pc ≠ 0xFFFFFFFE#32)
    (ht : t = { u with cpsr := p, pc := s.pc + 2#32, draws := d })
    (hp : p = { s.cpsr with n := p.n, z := p.z, c := p.c, v := p.v })
    (hfl : setsFlags i = true ∨
      (p.n = s.cpsr.n ∧ p.z = s.cpsr.z ∧ p.c = s.cpsr.c ∧ p.v = s.cpsr.v)) : Ends i s t := by
  have hb : p.t = s.cpsr.t := by rw [hp]
  refine Ends.mk (m := s.mem) (o := s.output) (b := s.ended) (d := d) hu ?_ ?_ (.inl hb) (.inl rfl)
    (.inl rfl) (fun h => ⟨h, CodeKept.refl s⟩) hfl (.inr ⟨rfl, hne⟩) ?_
  · rw [ht, hu.eq]
  · rw [hp]
  · intro h1 h2
    exact ⟨even_add _ _ h2 (by decide), by rw [hb, h1]; simp⟩

theorem ends_finishArith {i : Instr} {rd : Lo} {a : AddResult} {s t : State}
    (hs : setsFlags i = true) (h : finishArith rd a s = .next t) : Ends i s t := by
  obtain ⟨h1, h2⟩ := finishArith_next.mp h
  exact Ends.sequential (d := (s.setLo rd a.value).draws) ((RegsOnly.refl s).setLo rd a.value) h1
    h2 rfl (.inl hs)

theorem ends_finishCompare {i : Instr} {a : AddResult} {s t : State} (hs : setsFlags i = true)
    (h : finishCompare a s = .next t) : Ends i s t := by
  obtain ⟨h1, h2⟩ := finishCompare_next.mp h
  exact Ends.sequential (d := s.draws) (RegsOnly.refl s) h1 h2 rfl (.inl hs)

theorem ends_finishLogic {i : Instr} {rd : Lo} {a : Word} {s t : State} (hs : setsFlags i = true)
    (h : finishLogic rd a s = .next t) : Ends i s t := by
  obtain ⟨h1, h2⟩ := finishLogic_next.mp h
  exact Ends.sequential (d := (s.setLo rd a).draws) ((RegsOnly.refl s).setLo rd a) h1 h2 rfl
    (.inl hs)

theorem ends_finishShift {i : Instr} {rd : Lo} {a : ShiftResult} {s t : State}
    (hs : setsFlags i = true) (h : finishShift rd a s = .next t) : Ends i s t := by
  obtain ⟨h1, h2⟩ := finishShift_next.mp h
  exact Ends.sequential (d := (s.setLo rd a.value).draws) ((RegsOnly.refl s).setLo rd a.value) h1
    h2 rfl (.inl hs)

theorem ends_finishTest {i : Instr} {a : Word} {s t : State} (hs : setsFlags i = true)
    (h : finishTest a s = .next t) : Ends i s t := by
  obtain ⟨h1, h2⟩ := finishTest_next.mp h
  exact Ends.sequential (d := s.draws) (RegsOnly.refl s) h1 h2 rfl (.inl hs)

theorem ends_finishMove {i : Instr} {rd : RegNum} {v : Word} {s t : State}
    (hw : rd = 15#4 → WritesPc i s) (h : finishMove rd v s = .next t) : Ends i s t := by
  rcases finishMove_next.mp h with ⟨h1, h2⟩ | ⟨h0, h1, h2⟩
  · exact Ends.mk (m := s.mem) (p := s.cpsr) (o := s.output) (b := s.ended) (d := s.draws)
      (RegsOnly.refl s) h2 rfl (.inl rfl) (.inl rfl) (.inl rfl) (fun h => ⟨h, CodeKept.refl s⟩)
      (.inr ⟨rfl, rfl, rfl, rfl⟩) (.inl (hw h1)) (fun h3 _ => ⟨even_mask _, by simp [h3]⟩)
  · exact Ends.sequential (p := s.cpsr) (d := (s.setReg rd v).draws)
      ((RegsOnly.refl s).setReg rd v h0) h1 (by rw [h2]; simp) rfl (.inr ⟨rfl, rfl, rfl, rfl⟩)

theorem ends_advance {i : Instr} {s u t : State} (hu : RegsOnly s u) (h : advance u = .next t) :
    Ends i s t := by
  obtain ⟨h1, h2⟩ := advance_next.mp h
  obtain ⟨-, -, -, -, -, -, hp, hc⟩ := hu.keeps 0
  rw [hp] at h1 h2
  exact Ends.sequential (p := s.cpsr) (d := u.draws) hu h1 (by rw [h2, hc]) rfl
    (.inr ⟨rfl, rfl, rfl, rfl⟩)

theorem ends_finishLoad {i : Instr} {rd : Lo} {base : List RegNum} {w : Width} {ext : Word → Word}
    {a : Word} {s t : State} (hb : ∀ r ∈ base, r ≠ 15#4) (hi : accessesMemory i = true)
    (h : finishLoad rd base w ext a s = .next t) : Ends i s t := by
  rcases finishLoad_next.mp h with ⟨-, -, h1, h2⟩ | ⟨-, -, h1, h2⟩
  · exact Ends.sequential (p := s.cpsr) (d := (s.setLo rd (ext (s.load w a))).draws)
      ((RegsOnly.refl s).setLo rd (ext (s.load w a))) h1 (by rw [h2]; simp) rfl
      (.inr ⟨rfl, rfl, rfl, rfl⟩)
  · have hb' : ∀ r ∈ loNum rd :: base, r ≠ 15#4 := by
      intro r hr
      rcases List.mem_cons.mp hr with rfl | hr
      · exact loNum_ne_pc _
      · exact hb r hr
    rw [(State.freeRegs_keeps s _).2.2.1] at h1
    exact .exception .dataAbort _ ((Interrupted.refl i s).freeRegs _ hb') h2
      (.inr (.inl ⟨rfl, hi, h1⟩))

theorem ends_finishStore {i : Instr} {base : List RegNum} {w : Width} {a v : Word} {s t : State}
    (hb : ∀ r ∈ base, r ≠ 15#4) (hi : accessesMemory i = true) (hi' : storesMemory i = true)
    (h : finishStore base w a v s = .next t) : Ends i s t := by
  rcases finishStore_next.mp h with ⟨ha, hc, -, h1, h2⟩ | ⟨-, -, -, h1, h2⟩
  · exact Ends.mk (m := (s.store w a v).mem) (p := s.cpsr) (a := s.pc + 2#32) (o := s.output)
      (b := s.ended) (d := s.draws) (RegsOnly.refl s) (by rw [h2]; rfl) rfl (.inl rfl) (.inl rfl)
      (.inr hi') (fun hw => ⟨State.store_wf hw ha, codeKept_store hw ha hc⟩)
      (.inr ⟨rfl, rfl, rfl, rfl⟩) (.inr ⟨rfl, h1⟩)
      (fun h3 h4 => ⟨even_add _ _ h4 (by decide), by simp [h3]⟩)
  · rw [(State.freeRegs_keeps s _).2.2.1] at h1
    exact .exception .dataAbort _ ((Interrupted.refl i s).freeRegs _ hb) h2
      (.inr (.inl ⟨rfl, hi, h1⟩))

theorem ends_exchange {i : Instr} {v : Word} {s u t : State} (hu : RegsOnly s u)
    (hw : WritesPc i s) (he : exchanges s.params.arch5t i = true) (h : exchange v u = .next t) :
    Ends i s t := by
  obtain ⟨-, -, -, -, -, -, -, hc⟩ := hu.keeps 0
  rcases exchange_next.mp h with ⟨-, h2⟩ | ⟨h0, h1, h2⟩
  · exact Ends.mk (m := s.mem) (p := { s.cpsr with t := true }) (a := v &&& 0xFFFFFFFE#32)
      (o := s.output) (b := s.ended) (d := s.draws) hu (by rw [h2, hc, hu.eq]) rfl
      (.inr (.inl rfl)) (.inl rfl) (.inl rfl) (fun h => ⟨h, CodeKept.refl s⟩)
      (.inr ⟨rfl, rfl, rfl, rfl⟩) (.inl hw) (fun _ _ => ⟨even_mask _, by simp⟩)
  · exact Ends.mk (m := s.mem) (p := { s.cpsr with t := false }) (a := v)
      (o := s.output) (b := s.ended) (d := s.draws) hu (by rw [h2, hc, hu.eq]) rfl
      (.inr (.inr he)) (.inl rfl) (.inl rfl) (fun h => ⟨h, CodeKept.refl s⟩)
      (.inr ⟨rfl, rfl, rfl, rfl⟩) (.inl hw) (fun _ _ => ⟨h0, fun _ => h1⟩)

theorem ends_branchIf {i : Instr} {c : Cond} {o : BitVec 8} {s t : State}
    (hw : condHolds s.cpsr c = true → WritesPc i s) (h : branchIf c (offset8 o) s = .next t) :
    Ends i s t := by
  rcases branchIf_next.mp h with ⟨h1, h2⟩ | ⟨-, h1, h2⟩
  · exact Ends.mk (m := s.mem) (p := s.cpsr) (o := s.output) (b := s.ended) (d := s.draws)
      (RegsOnly.refl s) h2 rfl (.inl rfl) (.inl rfl) (.inl rfl) (fun h => ⟨h, CodeKept.refl s⟩)
      (.inr ⟨rfl, rfl, rfl, rfl⟩) (.inl (hw h1))
      (fun h3 h4 => ⟨even_add _ _ (even_add _ _ h4 (by decide)) (even_offset8 o), by simp [h3]⟩)
  · exact Ends.sequential (p := s.cpsr) (d := s.draws) (RegsOnly.refl s) h1 h2 rfl
      (.inr ⟨rfl, rfl, rfl, rfl⟩)

theorem ends_undefined {i : Instr} {s t : State} (hi : onlyV5t i = true)
    (h5 : s.params.arch5t = false) (h : undefinedInstruction s = .next t) : Ends i s t := by
  obtain ⟨h1, h2⟩ := undefinedInstruction_next.mp h
  exact .exception .undefined s (Interrupted.refl i s) h2 (.inr (.inr ⟨rfl, hi, h5, h1⟩))

/-- A multiple store that is performed: its words, then the base register. -/
theorem ends_multiWrite {i : Instr} {vs : List Word} {a : Word} {s s' u t : State}
    (hi : storesMemory i = true) (hm : multiWrite vs a s = .ok s') (hu : RegsOnly s' u)
    (h : advance u = .next t) : Ends i s t := by
  obtain ⟨h1, h2⟩ := advance_next.mp h
  obtain ⟨hk, hwf⟩ := writeWords_ok (multiWrite_ok.mp hm).2.2
  have hcode := fun hw => codeKept_writeWords (multiWrite_ok.mp hm).2.2 hw
  obtain ⟨he, hb⟩ := hu
  generalize s'.mem = m at *
  subst hk
  generalize u.regs = rg at *
  subst he
  exact Ends.mk (u := { s with regs := rg }) (m := m) (p := s.cpsr) (a := s.pc + 2#32)
    (o := s.output) (b := s.ended) (d := s.draws) ⟨rfl, hb⟩ h2 rfl (.inl rfl) (.inl rfl)
    (.inr hi) (fun hw => ⟨hwf hw, hcode hw⟩) (.inr ⟨rfl, rfl, rfl, rfl⟩) (.inr ⟨rfl, h1⟩)
    (fun h3 h4 => ⟨even_add _ _ h4 (by decide), by simp [h3]⟩)

theorem ends_abortedLoad {i : Instr} {e : MemStop} {rs : List RegNum} {s t : State}
    (hi : accessesMemory i = true) (hr : ∀ r ∈ rs, r ≠ 15#4)
    (h : accessStop e (s.freeRegs rs) = .next t) : Ends i s t := by
  obtain ⟨-, h1, h2⟩ := accessStop_next.mp h
  rw [(State.freeRegs_keeps s rs).2.2.1] at h1
  exact .exception .dataAbort _ ((Interrupted.refl i s).freeRegs rs hr) h2
    (.inr (.inl ⟨rfl, hi, h1⟩))

theorem ends_abortedStore {i : Instr} {e : MemStop} {rs : List RegNum} {s t : State} {a : Word}
    {n : Nat} (hi : accessesMemory i = true) (hi' : storesMemory i = true)
    (hr : ∀ r ∈ rs, r ≠ 15#4)
    (h : accessStop e ((s.freeStoredWords a n).freeRegs rs) = .next t) : Ends i s t := by
  obtain ⟨-, h1, h2⟩ := accessStop_next.mp h
  rw [(State.freeRegs_keeps _ rs).2.2.1, (State.freeStoredWords_keeps s a n).2.2.1] at h1
  exact .exception .dataAbort _ ((Interrupted.freeStoredWords s a n hi').freeRegs rs hr) h2
    (.inr (.inl ⟨rfl, hi, h1⟩))

theorem listNums_ne_pc (l : BitVec 8) : ∀ r ∈ listNums l, r ≠ 15#4 := by
  intro r hr
  obtain ⟨q, -, rfl⟩ := List.mem_map.mp hr
  exact loNum_ne_pc q

theorem cons_listNums_ne_pc {r : RegNum} (hr : r ≠ 15#4) (l : BitVec 8) :
    ∀ q ∈ r :: listNums l, q ≠ 15#4 := by
  intro q hq
  rcases List.mem_cons.mp hq with rfl | hq
  · exact hr
  · exact listNums_ne_pc l q hq

/-- Every instruction that answers a next state ends in one of the two ways. -/
theorem exec_cases {i : Instr} {s t : State} (h : exec i s = .next t) : Ends i s t := by
  cases i
  case swi n =>
    simp only [exec, execSwi, hostWriteC, hostExit] at h
    split at h
    · rename_i hx
      cases h
      exact .exception .swi s (Interrupted.refl _ s) rfl (.inl ⟨rfl, n, rfl, hx⟩)
    · obtain ⟨h1, h2⟩ := advance_next.mp h
      exact Ends.mk (m := s.mem) (p := s.cpsr) (b := s.ended) (d := s.draws) (RegsOnly.refl s) h2
        rfl (.inl rfl) (.inr ⟨_, rfl⟩) (.inl rfl) (fun h => ⟨h, CodeKept.refl s⟩)
        (.inr ⟨rfl, rfl, rfl, rfl⟩) (.inr ⟨rfl, h1⟩)
        (fun h3 h4 => ⟨even_add _ _ h4 (by decide), by simp [h3]⟩)
    · rename_i hx
      have hw : WritesPc (.swi n) s := by simp [WritesPc, hx]
      cases h
      exact Ends.mk (m := s.mem) (p := s.cpsr) (a := s.pc) (o := s.output) (b := true)
        (d := s.draws) (RegsOnly.refl s) rfl rfl (.inl rfl) (.inl rfl) (.inl rfl)
        (fun h => ⟨h, CodeKept.refl s⟩) (.inr ⟨rfl, rfl, rfl, rfl⟩) (.inl hw)
        (fun h3 h4 => ⟨h4, by simp [h3]⟩)
  case mulReg rd rm =>
    simp only [exec, execMulReg] at h
    split at h
    · exact ends_finishLogic rfl h
    · obtain ⟨h1, h2⟩ := finishShift_next.mp h
      exact Ends.sequential (d := s.draws + 1)
        (p := s.cpsr.setShift ⟨BitVec.ofNat 32 ((s.lo rd).toNat * (s.lo rm).toNat),
          some (Config.freeBit s.draws)⟩)
        ((RegsOnly.refl s).setLo rd (BitVec.ofNat 32 ((s.lo rd).toNat * (s.lo rm).toNat))) h1
        (by rw [h2]; simp [State.setLo, State.setReg, loNum_ne_pc, State.setBankReg]) rfl (.inl rfl)
  case addHi rd rm =>
    simp only [exec, execAddHi] at h
    split at h
    · exact ends_finishMove (fun h => h) h
    · contradiction
  case movHi rd rm =>
    simp only [exec, execMovHi] at h
    split at h
    · exact ends_finishMove (fun h => h) h
    · contradiction
  case cmpHi rn rm =>
    simp only [exec, execCmpHi] at h
    split at h
    · contradiction
    · split at h
      · contradiction
      · exact ends_finishCompare rfl h
  case b o =>
    simp only [exec, execB, branchBy] at h
    cases h
    exact Ends.mk (m := s.mem) (p := s.cpsr) (o := s.output) (b := s.ended) (d := s.draws)
      (RegsOnly.refl s) rfl rfl (.inl rfl) (.inl rfl) (.inl rfl) (fun h => ⟨h, CodeKept.refl s⟩)
      (.inr ⟨rfl, rfl, rfl, rfl⟩) (.inl trivial)
      (fun h3 h4 => ⟨even_add _ _ (even_add _ _ h4 (by decide)) (even_offset11 o), by simp [h3]⟩)
  case blPrefix o =>
    simp only [exec, execBlPrefix] at h
    exact ends_advance ((RegsOnly.refl s).setLr _) h
  case blSuffix o =>
    simp only [exec, execBlSuffix] at h
    split at h
    · contradiction
    · rename_i hlr
      cases h
      refine Ends.mk (m := s.mem) (p := s.cpsr) (o := s.output) (b := s.ended) (d := s.draws)
        ((RegsOnly.refl s).setLr s.linkValue) (by simp; rfl) rfl (.inl rfl) (.inl rfl) (.inl rfl)
        (fun h => ⟨h, CodeKept.refl s⟩) (.inr ⟨rfl, rfl, rfl, rfl⟩) (.inl trivial) ?_
      intro h3 h4
      exact ⟨even_add _ _ (by simpa using hlr) (by simp [offsetLow]), by simp [h3]⟩
  case blxSuffix o =>
    simp only [exec, execBlxSuffix] at h
    split at h
    · rename_i h5
      exact ends_undefined rfl (by simpa using h5) h
    · rename_i h5
      cases h
      exact Ends.mk (m := s.mem) (p := { s.cpsr with t := false }) (o := s.output) (b := s.ended)
        (d := s.draws) ((RegsOnly.refl s).setLr s.linkValue) (by simp; rfl) rfl
        (.inr (.inr (by simpa [exchanges] using h5))) (.inl rfl) (.inl rfl)
        (fun h => ⟨h, CodeKept.refl s⟩) (.inr ⟨rfl, rfl, rfl, rfl⟩) (.inl trivial)
        (fun _ _ => ⟨by simp, by simp⟩)
  case bx rm z =>
    simp only [exec, execBx] at h
    split at h
    · contradiction
    · exact ends_exchange (RegsOnly.refl s) trivial rfl h
  case blxReg rm z =>
    simp only [exec, execBlxReg] at h
    split at h
    · rename_i h5
      exact ends_undefined rfl (by simpa using h5) h
    · rename_i h5
      split at h
      · contradiction
      · split at h
        · contradiction
        · exact ends_exchange ((RegsOnly.refl s).setLr _) trivial (by simpa [exchanges] using h5) h
  case stmia rn l =>
    simp only [exec, execStmia] at h
    split at h
    · contradiction
    · split at h
      · contradiction
      · split at h
        · rename_i s' hm
          exact ends_multiWrite rfl hm ((RegsOnly.refl s').setLo _ _) h
        · exact ends_abortedStore rfl rfl (by simp [loNum_ne_pc]) h
  case push r l =>
    simp only [exec, execPush] at h
    split at h
    · contradiction
    · split at h
      · rename_i s' hm
        exact ends_multiWrite rfl hm ((RegsOnly.refl s').setSp _) h
      · exact ends_abortedStore rfl rfl (by decide) h
  case ldmia rn l =>
    simp only [exec, execLdmia] at h
    split at h
    · contradiction
    · split at h
      · exact ends_advance (((RegsOnly.refl s).writeBackBase _ _ _).setList _ _) h
      · exact ends_abortedLoad rfl (cons_listNums_ne_pc (loNum_ne_pc _) l) h
  case pop r l =>
    simp only [exec, execPop] at h
    split at h
    · contradiction
    · split at h
      · rename_i vs hm
        have hu := ((RegsOnly.refl s).setList (listRegs l) vs).setSp
          (afterWords s.sp (stackCount r l))
        split at h
        · rename_i hr
          have hw : WritesPc (.pop r l) s := hr
          generalize (s.setList (listRegs l) vs).setSp (afterWords s.sp (stackCount r l)) = u at *
          have hp : u.params = s.params := by rw [hu.eq]
          unfold popPc at h
          split at h
          · rename_i h5
            exact ends_exchange hu hw (by simp [exchanges, hr, ← hp, h5]) h
          · injection h with h
            exact Ends.mk (m := s.mem) (p := s.cpsr)
              (a := vs.getD (listCount l) 0#32 &&& 0xFFFFFFFE#32) (o := s.output) (b := s.ended)
              (d := s.draws) hu (by rw [← h, hu.eq]; rfl) rfl (.inl rfl) (.inl rfl) (.inl rfl)
              (fun h => ⟨h, CodeKept.refl s⟩) (.inr ⟨rfl, rfl, rfl, rfl⟩) (.inl hw)
              (fun h3 _ => ⟨even_mask _, by simp [h3]⟩)
        · exact ends_advance hu h
      · exact ends_abortedLoad rfl (cons_listNums_ne_pc (by decide) l) h
  case strImm => exact ends_finishStore (by simp [loNum_ne_pc]) rfl rfl h
  case strbImm => exact ends_finishStore (by simp [loNum_ne_pc]) rfl rfl h
  case strhImm => exact ends_finishStore (by simp [loNum_ne_pc]) rfl rfl h
  case strReg => exact ends_finishStore (by simp [loNum_ne_pc]) rfl rfl h
  case strhReg => exact ends_finishStore (by simp [loNum_ne_pc]) rfl rfl h
  case strbReg => exact ends_finishStore (by simp [loNum_ne_pc]) rfl rfl h
  case strSp => exact ends_finishStore (by simp) rfl rfl h
  case ldrImm => exact ends_finishLoad (by simp [loNum_ne_pc]) rfl h
  case ldrbImm => exact ends_finishLoad (by simp [loNum_ne_pc]) rfl h
  case ldrhImm => exact ends_finishLoad (by simp [loNum_ne_pc]) rfl h
  case ldrReg => exact ends_finishLoad (by simp [loNum_ne_pc]) rfl h
  case ldrhReg => exact ends_finishLoad (by simp [loNum_ne_pc]) rfl h
  case ldrbReg => exact ends_finishLoad (by simp [loNum_ne_pc]) rfl h
  case ldrsbReg => exact ends_finishLoad (by simp [loNum_ne_pc]) rfl h
  case ldrshReg => exact ends_finishLoad (by simp [loNum_ne_pc]) rfl h
  case ldrPc => exact ends_finishLoad (by simp) rfl h
  case ldrSp => exact ends_finishLoad (by simp) rfl h
  case addRdPc => exact ends_finishMove (fun h => absurd h (loNum_ne_pc _)) h
  case addRdSp => exact ends_finishMove (fun h => absurd h (loNum_ne_pc _)) h
  case addSp => exact ends_advance ((RegsOnly.refl s).setSp _) h
  case subSp => exact ends_advance ((RegsOnly.refl s).setSp _) h
  case cmpImm8 => exact ends_finishCompare rfl h
  case cmpReg => exact ends_finishCompare rfl h
  case cmnReg => exact ends_finishCompare rfl h
  case tstReg => exact ends_finishTest rfl h
  case lslImm => exact ends_finishShift rfl h
  case lsrImm => exact ends_finishShift rfl h
  case asrImm => exact ends_finishShift rfl h
  case lslReg => exact ends_finishShift rfl h
  case lsrReg => exact ends_finishShift rfl h
  case asrReg => exact ends_finishShift rfl h
  case rorReg => exact ends_finishShift rfl h
  case movImm8 => exact ends_finishLogic rfl h
  case andReg => exact ends_finishLogic rfl h
  case eorReg => exact ends_finishLogic rfl h
  case orrReg => exact ends_finishLogic rfl h
  case bicReg => exact ends_finishLogic rfl h
  case mvnReg => exact ends_finishLogic rfl h
  case addReg => exact ends_finishArith rfl h
  case subReg => exact ends_finishArith rfl h
  case addImm3 => exact ends_finishArith rfl h
  case subImm3 => exact ends_finishArith rfl h
  case addImm8 => exact ends_finishArith rfl h
  case subImm8 => exact ends_finishArith rfl h
  case adcReg => exact ends_finishArith rfl h
  case sbcReg => exact ends_finishArith rfl h
  case negReg => exact ends_finishArith rfl h
  all_goals
    exact ends_branchIf (fun h => by simpa [condHolds, WritesPc] using h) h

end Sys2Proof.Machine
end

