-- ==== Sys2Proof/Laws/Launch.lean ====
section
/-! SUPPORT. What a launch (70_reset_and_hazards.md R291) admits, and what its memory and its registers
hold. -/

namespace Sys2Proof.Machine

/-! ### The addresses of an image -/

theorem mem_insertAddr {a b : Nat} {as : List Nat} : b ∈ insertAddr a as ↔ b = a ∨ b ∈ as := by
  induction as with
  | nil => simp [insertAddr]
  | cons c as ih =>
    unfold insertAddr
    split
    · simp
    · split
      · subst_vars
        simp
      · simp only [List.mem_cons, ih]
        tauto

theorem insertAddr_rising {a : Nat} {as : List Nat} (h : as.Pairwise (· < ·)) :
    (insertAddr a as).Pairwise (· < ·) := by
  induction as with
  | nil => simp [insertAddr]
  | cons c as ih =>
    obtain ⟨h1, h2⟩ := List.pairwise_cons.mp h
    unfold insertAddr
    split
    · rename_i hac
      refine List.pairwise_cons.mpr ⟨fun b hb => ?_, h⟩
      rcases List.mem_cons.mp hb with rfl | hb
      · exact hac
      · exact hac.trans (h1 b hb)
    · split
      · exact h
      · refine List.pairwise_cons.mpr ⟨fun b hb => ?_, ih h2⟩
        rcases mem_insertAddr.mp hb with rfl | hb
        · omega
        · exact h1 b hb

theorem mem_imageAddrs {image : List Host.Cell} {a : Nat} :
    a ∈ imageAddrs image ↔ ∃ c ∈ image, c.1 = a := by
  unfold imageAddrs
  induction image with
  | nil => simp
  | cons c image ih =>
    simp only [List.foldr_cons, mem_insertAddr, ih, List.mem_cons, exists_eq_or_imp, @eq_comm _ a]

theorem imageAddrs_rising (image : List Host.Cell) : (imageAddrs image).Pairwise (· < ·) := by
  unfold imageAddrs
  induction image with
  | nil => simp
  | cons c image ih => exact insertAddr_rising ih

/-! ### Its unbroken runs -/

/-- The runs of `a :: as` are those of `as`, with `a` before the first or a run of its own. -/
theorem addrRuns_cons (a : Nat) (as : List Nat) :
    (∃ r rs, addrRuns as = r :: rs ∧ r.base = a + 1 ∧
        addrRuns (a :: as) = ⟨a, r.size + 1⟩ :: rs) ∨
      ((∀ r rs, addrRuns as = r :: rs → r.base ≠ a + 1) ∧
        addrRuns (a :: as) = ⟨a, 1⟩ :: addrRuns as) := by
  cases h : addrRuns as with
  | nil => exact .inr ⟨by simp, by simp [addrRuns, h]⟩
  | cons r rs =>
    by_cases hr : r.base = a + 1
    · exact .inl ⟨r, rs, rfl, hr, by simp [addrRuns, h, hr]⟩
    · refine .inr ⟨?_, by simp [addrRuns, h, hr]⟩
      rintro r' rs' ⟨⟩
      exact hr

/-- Every address of a run is in the list, and a run has an address. -/
theorem addrRuns_sound {as : List Nat} {r : AddrRange} (h : r ∈ addrRuns as) :
    0 < r.size ∧ ∀ k < r.size, r.base + k ∈ as := by
  induction as generalizing r with
  | nil => simp [addrRuns] at h
  | cons a as ih =>
    rcases addrRuns_cons a as with ⟨r', rs, h1, h2, h3⟩ | ⟨-, h3⟩
    · rw [h3] at h
      rcases List.mem_cons.mp h with rfl | h
      · refine ⟨by simp, fun k hk => ?_⟩
        cases k with
        | zero => simp
        | succ k =>
          have := (ih (by simp [h1] : r' ∈ addrRuns as)).2 k (by simpa using hk)
          rw [h2] at this
          exact List.mem_cons_of_mem _ (by
            have e : a + (k + 1) = a + 1 + k := by omega
            simpa [e] using this)
      · obtain ⟨p, q⟩ := ih (by simp [h1, h] : r ∈ addrRuns as)
        exact ⟨p, fun k hk => List.mem_cons_of_mem _ (q k hk)⟩
    · rw [h3] at h
      rcases List.mem_cons.mp h with rfl | h
      · refine ⟨by simp, fun k hk => ?_⟩
        have : k = 0 := by simpa using hk
        simp [this]
      · obtain ⟨p, q⟩ := ih h
        exact ⟨p, fun k hk => List.mem_cons_of_mem _ (q k hk)⟩

/-- The first run begins with the first address and reaches as far as the list is unbroken. -/
theorem addrRuns_head {x : Nat} {xs : List Nat} (hs : (x :: xs).Pairwise (· < ·)) :
    ∃ m rs, addrRuns (x :: xs) = ⟨x, m⟩ :: rs ∧ ∀ n, (∀ k < n, x + k ∈ x :: xs) → n ≤ m := by
  induction xs generalizing x with
  | nil => exact ⟨1, [], rfl, fun n h => by
      by_contra hn
      simpa using h 1 (by omega)⟩
  | cons y ys ih =>
    obtain ⟨hx, hs'⟩ := List.pairwise_cons.mp hs
    obtain ⟨m, rs, e, hm⟩ := ih hs'
    have hxy := hx y (by simp)
    have hy : ∀ z ∈ ys, y < z := (List.pairwise_cons.mp hs').1
    by_cases h : y = x + 1
    · refine ⟨m + 1, rs, by rw [addrRuns, e]; simp [h], fun n hn => ?_⟩
      have := hm (n - 1) fun k hk => by
        have e : y + k = x + (k + 1) := by omega
        rw [e]
        exact (List.mem_cons.mp (hn (k + 1) (by omega))).resolve_left (by omega)
      omega
    · refine ⟨1, ⟨y, m⟩ :: rs, by rw [addrRuns, e]; simp [h], fun n hn => ?_⟩
      by_contra hlt
      rcases List.mem_cons.mp (hn 1 (by omega)) with e | e
      · omega
      · rcases List.mem_cons.mp e with e | e
        · omega
        · have := hy _ e
          omega

/-- Addresses that follow one another in a rising list lie in one run. -/
theorem addrRuns_complete {as : List Nat} (hs : as.Pairwise (· < ·)) {a n : Nat} (hn : 0 < n)
    (h : ∀ k < n, a + k ∈ as) :
    ∃ r ∈ addrRuns as, r.base ≤ a ∧ a + n ≤ r.base + r.size := by
  induction as with
  | nil => simpa using h 0 hn
  | cons x xs ih =>
    obtain ⟨hx, hs'⟩ := List.pairwise_cons.mp hs
    by_cases hxa : a = x
    · subst hxa
      obtain ⟨m, rs, e, hm⟩ := addrRuns_head hs
      exact ⟨⟨a, m⟩, by simp [e], by simp, by simpa using hm n h⟩
    · have hlt : x < a := hx a ((List.mem_cons.mp (h 0 hn)).resolve_left hxa)
      obtain ⟨r, hr, hb, he⟩ := ih hs' fun k hk =>
        (List.mem_cons.mp (h k hk)).resolve_left (by omega)
      rcases addrRuns_cons x xs with ⟨r', rs, h1, h2, h3⟩ | ⟨-, h3⟩
      · rw [h1] at hr
        rcases List.mem_cons.mp hr with rfl | hr
        · exact ⟨_, by rw [h3]; exact List.mem_cons_self, by simp; omega⟩
        · exact ⟨r, by simp [h3, hr], hb, he⟩
      · exact ⟨r, by simp [h3, hr], hb, he⟩

/-! ### What a launch admits -/

theorem widthBytes_pos (w : Width) : 0 < widthBytes w := by cases w <;> decide

/-- A clipped region admits what the region admits inside the run. -/
theorem regionAdmits_clipRegion (r : Region) (run : AddrRange) (w : Width) (kind : AccessKind)
    (a : Nat) :
    regionAdmits (clipRegion r run) w kind a = true ↔
      regionAdmits r w kind a = true ∧ run.base ≤ a ∧ a + widthBytes w ≤ run.base + run.size := by
  have := widthBytes_pos w
  simp only [regionAdmits, Bool.and_eq_true, decide_eq_true_eq]
  simp only [clipRegion]
  constructor
  · rintro ⟨⟨⟨h1, h2⟩, h3⟩, h4⟩
    exact ⟨⟨⟨⟨by omega, by omega⟩, h3⟩, h4⟩, by omega, by omega⟩
  · rintro ⟨⟨⟨⟨h1, h2⟩, h3⟩, h4⟩, h5, h6⟩
    exact ⟨⟨⟨by omega, by omega⟩, h3⟩, h4⟩

/-- Inside an image the map admits what it names, and nothing else (R291). -/
theorem imageMap_admits (named : List Region) (image : List Host.Cell) (w : Width)
    (kind : AccessKind) (a : Nat) :
    ((imageMap named image).any fun r => regionAdmits r w kind a) = true ↔
      (named.any fun r => regionAdmits r w kind a) = true ∧
        ∀ k < widthBytes w, ∃ c ∈ image, c.1 = a + k := by
  have hpos := widthBytes_pos w
  simp only [imageMap, List.any_eq_true, List.mem_flatMap, List.mem_map, ← mem_imageAddrs]
  constructor
  · rintro ⟨q, ⟨r, hr, run, hrun, rfl⟩, h⟩
    obtain ⟨h1, h2, h3⟩ := (regionAdmits_clipRegion ..).mp h
    refine ⟨⟨r, hr, h1⟩, fun k hk => ?_⟩
    have := (addrRuns_sound hrun).2 (a + k - run.base) (by omega)
    rwa [show run.base + (a + k - run.base) = a + k by omega] at this
  · rintro ⟨⟨r, hr, h1⟩, h⟩
    obtain ⟨run, hrun, h2, h3⟩ := addrRuns_complete (imageAddrs_rising image) hpos h
    exact ⟨_, ⟨r, hr, run, hrun, rfl⟩, (regionAdmits_clipRegion ..).mpr ⟨h1, h2, h3⟩⟩

/-! ### What its memory and its registers hold -/

/-- Writing cells keeps the canonical form, and every byte at an address that none of them names. -/
theorem foldl_write (cells : List Host.Cell) {m : Memory} (hm : Memory.wf m) :
    let f := fun (m : Memory) (c : Host.Cell) =>
      if c.1 < 4294967296 then Memory.write m c.1 c.2 else m
    Memory.wf (cells.foldl f m) ∧
      ∀ a, (∀ c ∈ cells, c.1 ≠ a) → Memory.read (cells.foldl f m) a = Memory.read m a := by
  intro f
  induction cells generalizing m with
  | nil => exact ⟨hm, fun _ _ => rfl⟩
  | cons c cells ih =>
    by_cases hc : c.1 < 4294967296
    · have e : f m c = Memory.write m c.1 c.2 := if_pos hc
      obtain ⟨h1, h2⟩ := ih (Memory.wf_write hm hc c.2)
      rw [List.foldl_cons, e]
      refine ⟨h1, fun a ha => ?_⟩
      rw [h2 a fun d hd => ha d (List.mem_cons_of_mem _ hd), Memory.read_write hm,
        if_neg fun h => ha c List.mem_cons_self h.symm]
    · have e : f m c = m := if_neg hc
      obtain ⟨h1, h2⟩ := ih hm
      rw [List.foldl_cons, e]
      exact ⟨h1, fun a ha => h2 a fun d hd => ha d (List.mem_cons_of_mem _ hd)⟩

theorem wf_imageMemory (image : List Host.Cell) : Memory.wf (imageMemory image) :=
  (foldl_write image (by decide)).1

/-- Of two values for one address the later stands. -/
theorem read_imageMemory (before after : List Host.Cell) (a : Nat) (b : Byte)
    (ha : a < 4294967296) (h : ∀ c ∈ after, c.1 ≠ a) :
    Memory.read (imageMemory (before ++ (a, b) :: after)) a = b := by
  have h0 := wf_imageMemory before
  unfold imageMemory at *
  rw [List.foldl_append, List.foldl_cons]
  simp only [if_pos ha]
  rw [(foldl_write after (Memory.wf_write h0 ha b)).2 a h, Memory.read_write h0, if_pos rfl]

/-- Naming registers changes the register storage alone. -/
theorem State.launchRegs_keeps (s : State) (regs : List (RegNum × Word)) :
    s.launchRegs regs = { s with regs := (s.launchRegs regs).regs } := by
  induction regs generalizing s with
  | nil => rfl
  | cons p regs ih =>
    refine (ih (if p.1 = 15#4 then s else s.setReg p.1 p.2)).trans ?_
    by_cases hp : p.1 = 15#4 <;> simp [State.launchRegs, hp, State.setReg, State.setBankReg]

/-- A register keeps its value where no name is its own. -/
theorem State.reg_launchRegs (s : State) (regs : List (RegNum × Word)) (r : RegNum)
    (h : ∀ p ∈ regs, p.1 ≠ r) : (s.launchRegs regs).reg r = s.reg r := by
  induction regs generalizing s with
  | nil => rfl
  | cons p regs ih =>
    refine (ih (if p.1 = 15#4 then s else s.setReg p.1 p.2) fun q hq =>
      h q (List.mem_cons_of_mem _ hq)).trans ?_
    by_cases hp : p.1 = 15#4
    · rw [if_pos hp]
    · rw [if_neg hp, State.reg_setReg _ _ _ _ hp, if_neg fun e => h p List.mem_cons_self e.symm]

end Sys2Proof.Machine
end

