-- ==== Sys2Proof/Laws/Multiple.lean ====
section
/-! SUPPORT. Register lists and multiple transfers: what a list load puts in each register, what a list
store puts at each address, and where a transfer stops. -/

namespace Sys2Proof.Machine

/-! ### Register lists (44_load_store_multiple.md R230) -/

theorem length_listRegs (l : BitVec 8) : (listRegs l).length = listCount l := rfl

theorem listSize_eq : ∀ l : BitVec 8, listSize l = listCount l := by decide

theorem listedNums_eq : ∀ l : BitVec 8, listedNums l = listNums l := by decide

theorem nodup_listRegs : ∀ l : BitVec 8, (listRegs l).Nodup := by decide

theorem mem_listRegs :
    ∀ (l : BitVec 8) (r : Lo), r ∈ listRegs l ↔ l.getLsbD r.toNat = true := by decide

/-- A listed register stands at its rank. -/
theorem getElem?_listRank : ∀ (l : BitVec 8) (r : Lo), l.getLsbD r.toNat = true →
    (listRegs l)[listRank l r]? = some r := by decide

theorem listRank_lt :
    ∀ (l : BitVec 8) (r : Lo), l.getLsbD r.toNat = true → listRank l r < listCount l := by decide

theorem listCount_pos : ∀ l : BitVec 8, l ≠ 0#8 → 0 < listCount l := by decide

theorem lowerInList_iff : ∀ (rn : Lo) (l : BitVec 8),
    WellFormed.lowerInList rn l = true ↔ ∃ j < rn.toNat, l.getLsbD j = true := by decide

/-- Writes of other Lo registers leave a register. -/
theorem State.lo_foldl_setLo (ps : List (Lo × Word)) (s : State) (q : Lo)
    (h : ∀ p ∈ ps, p.1 ≠ q) : (ps.foldl (fun t p => t.setLo p.1 p.2) s).lo q = s.lo q := by
  induction ps generalizing s with
  | nil => rfl
  | cons p ps ih =>
    simp only [List.foldl]
    rw [ih _ (fun p hp => h p (by simp [hp]))]
    simp [Ne.symm (h p (by simp))]

/-- A register at place `k` of the list gets value `k`. -/
theorem State.lo_setList (s : State) (rs : List Lo) (vs : List Word) (hn : rs.Nodup)
    (hl : rs.length ≤ vs.length) (r : Lo) (k : Nat) (hk : rs[k]? = some r) :
    (s.setList rs vs).lo r = vs[k]! := by
  unfold State.setList
  induction rs generalizing s vs k with
  | nil => simp at hk
  | cons q rs ih =>
    cases vs with
    | nil => simp at hl
    | cons v vs =>
      simp only [List.zip_cons_cons, List.foldl]
      obtain ⟨hq, hn'⟩ := List.nodup_cons.mp hn
      cases k with
      | zero =>
        simp only [List.getElem?_cons_zero, Option.some.injEq] at hk
        subst hk
        rw [State.lo_foldl_setLo]
        · simp
        · intro p hp hpq
          have := (List.of_mem_zip hp).1
          rw [hpq] at this
          exact hq this
      | succ k =>
        have := ih (s.setLo q v) vs hn' (by simpa using hl) k (by simpa using hk)
        simpa using this

/-- A register that is not listed keeps its value. -/
theorem State.lo_setList_of_notMem (s : State) (rs : List Lo) (vs : List Word) (r : Lo)
    (hr : r ∉ rs) : (s.setList rs vs).lo r = s.lo r :=
  State.lo_foldl_setLo _ s r fun _ hp e => hr (e ▸ (List.of_mem_zip hp).1)

/-- Storage that belongs to no listed register keeps its value. -/
theorem State.regs_get_setList (s : State) (rs : List Lo) (vs : List Word) (k : Fin 30)
    (hk : ∀ r ∈ rs, k ≠ slot s.cpsr.mode (loNum r)) :
    (s.setList rs vs).regs.get k = s.regs.get k := by
  unfold State.setList
  have : ∀ (ps : List (Lo × Word)) (u : State), u.cpsr = s.cpsr → (∀ p ∈ ps, p.1 ∈ rs) →
      (ps.foldl (fun t p => t.setLo p.1 p.2) u).regs.get k = u.regs.get k := by
    intro ps
    induction ps with
    | nil => intros; rfl
    | cons p ps ih =>
      intro u hu hp
      simp only [List.foldl]
      rw [ih _ (by simpa using hu) (fun p hp' => hp p (by simp [hp'])), State.regs_get_setLo,
        if_neg]
      rw [hu]
      exact hk _ (hp p (by simp))
  exact this _ s rfl fun _ hp => (List.of_mem_zip hp).1

theorem State.lo_setSp (s : State) (v : Word) (r : Lo) : (s.setSp v).lo r = s.lo r := by
  unfold State.lo State.setSp
  rw [State.reg_setReg _ _ _ _ (by decide), if_neg]
  revert r
  decide

/-! ### Addresses and permission -/

theorem wordAddr_zero (a : Word) : wordAddr a 0 = a := by simp [wordAddr]

theorem wordAddr_succ (a : Word) (k : Nat) : wordAddr (a + 4#32) k = wordAddr a (k + 1) := by
  unfold wordAddr
  rw [BitVec.add_assoc, ← BitVec.ofNat_add]
  congr 2
  omega

theorem toNat_wordAddr (a : Word) (k : Nat) (h : a.toNat + 4 * k < 4294967296) :
    (wordAddr a k).toNat = a.toNat + 4 * k := by
  unfold wordAddr
  rw [BitVec.toNat_add, BitVec.toNat_ofNat]
  omega

theorem alignedTo_word (a : Word) : alignedTo .word a = true ↔ a.toNat % 4 = 0 := by
  simp [alignedTo, widthBytes]

theorem alignedTo_word_add {a : Word} (h : alignedTo .word a = true) :
    alignedTo .word (a + 4#32) = true := by
  simp [alignedTo, widthBytes] at *
  omega

theorem allows_read {s : State} {w : Width} {a : Word} :
    s.allows w .read a = true ↔ alignedTo w a = true ∧ s.admits w .read a = true := by
  have : (AccessKind.read == AccessKind.write) = false := by decide
  simp [State.allows, this]

theorem allows_write {s : State} {w : Width} {a : Word} :
    s.allows w .write a = true ↔
      alignedTo w a = true ∧ s.inCode w a = false ∧ s.admits w .write a = true := by
  simp [State.allows, and_assoc]

/-! ### Reading words -/

theorem readWords_of_allows {n : Nat} {a : Word} {s : State}
    (h : ∀ k < n, s.allows .word .read (wordAddr a k) = true) : ∃ vs, readWords n a s = .ok vs := by
  induction n generalizing a with
  | zero => exact ⟨[], rfl⟩
  | succ n ih =>
    obtain ⟨vs, hvs⟩ := ih (a := a + 4#32) (fun k hk => by
      rw [wordAddr_succ]; exact h (k + 1) (by omega))
    have h0 := allows_read.mp (h 0 (by omega))
    rw [wordAddr_zero] at h0
    refine ⟨s.load .word a :: vs, ?_⟩
    simp only [readWords, hvs, memRead_ok.mpr ⟨h0.1, h0.2, rfl⟩]

/-- The first word that is not admitted stops the reads. -/
theorem readWords_refused {n : Nat} {a : Word} {s : State} (ha : alignedTo .word a = true) (k : Nat)
    (hk : k < n) (hj : ∀ j < k, s.allows .word .read (wordAddr a j) = true)
    (hr : s.admits .word .read (wordAddr a k) = false) : readWords n a s = .error .refused := by
  induction n generalizing a k with
  | zero => omega
  | succ n ih =>
    simp only [readWords]
    cases k with
    | zero =>
      rw [wordAddr_zero] at hr
      rw [memRead_refused.mpr ⟨ha, hr⟩]
    | succ k =>
      have h0 := allows_read.mp (hj 0 (by omega))
      rw [wordAddr_zero] at h0
      rw [memRead_ok.mpr ⟨h0.1, h0.2, rfl⟩]
      rw [ih (alignedTo_word_add ha) k (by omega)
        (fun j hj' => by rw [wordAddr_succ]; exact hj _ (by omega))
        (by rw [wordAddr_succ]; exact hr)]

/-! ### Writing words -/

theorem wordAt_store {s : State} (hw : Memory.wf s.mem) {a : Word} (v : Word)
    (ha : alignedTo .word a = true) : WordAt (s.store .word a v) a.toNat v := by
  intro k hk
  have hp : (s.store .word a v).params = s.params := rfl
  rw [hp]
  have hc : k = 0 ∨ k = 1 ∨ k = 2 ∨ k = 3 := by omega
  cases hb : s.params.bigEnd
  · have := State.byteAt_store_of_lt hw (v := v) ha (k := k) (by simpa [widthBytes] using hk)
    simp only [hb] at this
    rcases hc with rfl | rfl | rfl | rfl <;> simpa [storeBytes, splitWord] using this
  · have := State.byteAt_store_of_lt hw (v := v) ha (k := 3 - k) (by simp [widthBytes]; omega)
    simp only [hb] at this
    rcases hc with rfl | rfl | rfl | rfl <;> simpa [storeBytes, splitWord] using this

/-- A multiple store that may be performed changes memory alone: word `k` at address `a + 4 * k`, and
no byte outside its words (R57, R230). -/
theorem writeWords_of_allows {vs : List Word} {a : Word} {s : State} (hw : Memory.wf s.mem)
    (hr : a.toNat + 4 * vs.length < 4294967296)
    (h : ∀ k < vs.length, s.allows .word .write (wordAddr a k) = true) :
    ∃ t, writeWords vs a s = .ok t ∧ t = { s with mem := t.mem } ∧ Memory.wf t.mem ∧
      (∀ k (hk : k < vs.length), WordAt t (a.toNat + 4 * k) vs[k]) ∧
      KeepsMemoryOutside a.toNat (4 * vs.length) s t := by
  induction vs generalizing a s with
  | nil => exact ⟨s, rfl, rfl, hw, fun k hk => by simp at hk, fun _ _ => rfl⟩
  | cons v vs ih =>
    simp only [List.length_cons] at hr
    have h0 := h 0 (by simp)
    rw [wordAddr_zero] at h0
    obtain ⟨ha, hc, hm⟩ := allows_write.mp h0
    have hpl : (a + 4#32).toNat = a.toNat + 4 := by
      rw [BitVec.toNat_add]
      simp
      omega
    obtain ⟨t, h1, h2, h3, h4, h5⟩ := ih (a := a + 4#32) (s := s.store .word a v)
      (State.store_wf hw ha) (by rw [hpl]; omega) (fun k hk => by
        rw [wordAddr_succ]
        exact h (k + 1) (by simpa using hk))
    refine ⟨t, ?_, ?_, h3, fun k hk => ?_, fun a' ha' => ?_⟩
    · simp only [writeWords, memWrite_ok.mpr ⟨ha, hc, hm, rfl⟩, h1]
    · rw [h2]
      rfl
    · cases k with
      | zero =>
        intro j hj
        have hp : t.params = s.params := by
          rw [h2]
          rfl
        have := wordAt_store hw v ha j hj
        rw [hp, h5 _ ?_]
        · simp only [Nat.mul_zero, Nat.add_zero, List.getElem_cons_zero]
          exact this
        · left
          rw [hpl]
          simp
          split <;> omega
      | succ k =>
        have := h4 k (by simpa using hk)
        rw [hpl, show a.toNat + 4 + 4 * k = a.toNat + 4 * (k + 1) by omega] at this
        simpa using this
    · simp only [List.length_cons] at ha'
      rw [h5 a' (by rw [hpl]; omega)]
      exact State.byteAt_store hw ha (by simp [widthBytes]; omega)

/-- The first word that cannot be accessed stops the writes. -/
theorem writeWords_stops {vs : List Word} {a : Word} {s : State} (ha : alignedTo .word a = true)
    (k : Nat) (hk : k < vs.length)
    (hj : ∀ j < k, s.allows .word .write (wordAddr a j) = true) :
    (s.inCode .word (wordAddr a k) = true → writeWords vs a s = .error .code) ∧
      (s.inCode .word (wordAddr a k) = false → s.admits .word .write (wordAddr a k) = false →
        writeWords vs a s = .error .refused) := by
  induction vs generalizing a k s with
  | nil => simp at hk
  | cons v vs ih =>
    simp only [writeWords]
    cases k with
    | zero =>
      rw [wordAddr_zero]
      exact ⟨fun h => by simp [memWrite, ha, h], fun h h' => by simp [memWrite, ha, h, h']⟩
    | succ k =>
      have h0 := hj 0 (by omega)
      rw [wordAddr_zero] at h0
      obtain ⟨-, hc, hm⟩ := allows_write.mp h0
      rw [memWrite_ok.mpr ⟨ha, hc, hm, rfl⟩]
      have := ih (s := s.store .word a v) (alignedTo_word_add ha) k (by simpa using hk)
        (fun j hj' => by
          rw [wordAddr_succ]
          exact hj _ (by omega))
      rw [wordAddr_succ] at this
      exact this

/-! ### What a data abort leaves (60_exceptions.md R256) -/

theorem abortLeaves_freeRegs {a n : Nat} {s u : State} (h : AbortLeaves [] a n s u)
    (rs : List RegNum) (hr : ∀ r ∈ rs, r ≠ 15#4) : AbortLeaves rs a n s (u.freeRegs rs) := by
  obtain ⟨h1, h2, h3, h4, h5, h6⟩ := h
  obtain ⟨k1, k2, k3, k4, k5, k6, k7, k8, k9, k10, k11⟩ := State.freeRegs_keeps u rs
  refine ⟨fun k hk => ?_, k1.trans h2, (State.pc_freeRegs u rs hr).trans h3, fun m => ?_,
    ⟨k3.trans h5.1, k4.trans h5.2.1, k5.trans h5.2.2.1, k6.trans h5.2.2.2⟩, fun a' ha' => ?_⟩
  · rw [State.regs_get_freeRegs _ _ _ hr (by rw [h2]; exact hk)]
    exact h1 k (by simp)
  · rw [← h4 m]
    cases m <;> simp [State.spsr, *]
  · rw [← h6 a' ha']
    unfold State.byteAt
    rw [k2]

theorem abortLeaves_refl (s : State) (a n : Nat) : AbortLeaves [] a n s s :=
  ⟨fun _ _ => rfl, rfl, rfl, fun _ => rfl, ⟨rfl, rfl, rfl, rfl⟩, fun _ _ => rfl⟩

theorem abortLeaves_freeStoredWords {s : State} (hw : Memory.wf s.mem) (a : Word) (n : Nat)
    (hn : a.toNat + 4 * n < 4294967296) :
    AbortLeaves [] a.toNat (4 * n) s (s.freeStoredWords a n) := by
  obtain ⟨k1, k2, k3, k4, k5, k6, k7⟩ := State.freeStoredWords_keeps s a n
  refine ⟨fun k _ => by rw [k1], k2, k7, State.spsr_freeStoredWords s a n, ⟨k3, k4, k5, k6⟩, ?_⟩
  clear k1 k2 k3 k4 k5 k6 k7
  suffices ∀ m ≤ n, KeepsMemoryOutside a.toNat (4 * n) s (s.freeStoredWords a m) from
    this n (le_refl n)
  intro m hm
  induction m with
  | zero => exact fun _ _ => rfl
  | succ m ih =>
    have ih := ih (by omega)
    have hwf := State.freeStoredWords_wf hw a m
    unfold State.freeStoredWords at *
    rw [List.range_succ, List.foldl_append]
    generalize (List.range m).foldl (fun t k => t.freeStored (wordAddr a k)) s = u at *
    simp only [List.foldl]
    intro a' ha'
    rw [← ih a' ha']
    unfold State.freeStored
    split
    · rename_i s' h'
      obtain ⟨ha, -, -, rfl⟩ := memWrite_ok.mp h'
      have e := toNat_wordAddr a m (by omega)
      exact State.byteAt_store hwf ha (by rw [e]; simp [widthBytes]; omega)
    · rfl

end Sys2Proof.Machine
end

