-- ==== Sys2Proof/Laws/PerInstr.lean ====
section
/-! SUPPORT. Laws stated for every instruction, one lemma for each constructor. `RowMatch`: the
half-word of an instruction is one of the opcode table's, for every value of its fields. -/

namespace Sys2Proof.Laws

/-- Some row of the table covers the instruction's half-word (30_encoding.md R112). -/
def RowMatch.Statement (i : Instr) : Prop :=
  ∃ r ∈ Decode.table, encode i &&& r.mask = r.pattern

theorem RowMatch.addReg : ∀ rd rn rm, RowMatch.Statement (.addReg rd rn rm) := by
  intro rd rn rm
  refine ⟨Decode.table[0], List.getElem_mem _, ?_⟩
  show (0b0001100#7 ++ rm ++ rn ++ rd) &&&
    (0b1111111#7 ++ 0#3 ++ 0#3 ++ 0#3) = _
  simp only [BitVec.and_append, BitVec.and_zero]; rfl

theorem RowMatch.subReg : ∀ rd rn rm, RowMatch.Statement (.subReg rd rn rm) := by
  intro rd rn rm
  refine ⟨Decode.table[1], List.getElem_mem _, ?_⟩
  show (0b0001101#7 ++ rm ++ rn ++ rd) &&&
    (0b1111111#7 ++ 0#3 ++ 0#3 ++ 0#3) = _
  simp only [BitVec.and_append, BitVec.and_zero]; rfl

theorem RowMatch.addImm3 : ∀ rd rn imm3, RowMatch.Statement (.addImm3 rd rn imm3) := by
  intro rd rn imm3
  refine ⟨Decode.table[2], List.getElem_mem _, ?_⟩
  show (0b0001110#7 ++ imm3 ++ rn ++ rd) &&&
    (0b1111111#7 ++ 0#3 ++ 0#3 ++ 0#3) = _
  simp only [BitVec.and_append, BitVec.and_zero]; rfl

theorem RowMatch.subImm3 : ∀ rd rn imm3, RowMatch.Statement (.subImm3 rd rn imm3) := by
  intro rd rn imm3
  refine ⟨Decode.table[3], List.getElem_mem _, ?_⟩
  show (0b0001111#7 ++ imm3 ++ rn ++ rd) &&&
    (0b1111111#7 ++ 0#3 ++ 0#3 ++ 0#3) = _
  simp only [BitVec.and_append, BitVec.and_zero]; rfl

theorem RowMatch.movImm8 : ∀ rd imm8, RowMatch.Statement (.movImm8 rd imm8) := by
  intro rd imm8
  refine ⟨Decode.table[4], List.getElem_mem _, ?_⟩
  show (0b00100#5 ++ rd ++ imm8) &&&
    (0b11111#5 ++ 0#3 ++ 0#8) = _
  simp only [BitVec.and_append, BitVec.and_zero]; rfl

theorem RowMatch.cmpImm8 : ∀ rn imm8, RowMatch.Statement (.cmpImm8 rn imm8) := by
  intro rn imm8
  refine ⟨Decode.table[5], List.getElem_mem _, ?_⟩
  show (0b00101#5 ++ rn ++ imm8) &&&
    (0b11111#5 ++ 0#3 ++ 0#8) = _
  simp only [BitVec.and_append, BitVec.and_zero]; rfl

theorem RowMatch.addImm8 : ∀ rd imm8, RowMatch.Statement (.addImm8 rd imm8) := by
  intro rd imm8
  refine ⟨Decode.table[6], List.getElem_mem _, ?_⟩
  show (0b00110#5 ++ rd ++ imm8) &&&
    (0b11111#5 ++ 0#3 ++ 0#8) = _
  simp only [BitVec.and_append, BitVec.and_zero]; rfl

theorem RowMatch.subImm8 : ∀ rd imm8, RowMatch.Statement (.subImm8 rd imm8) := by
  intro rd imm8
  refine ⟨Decode.table[7], List.getElem_mem _, ?_⟩
  show (0b00111#5 ++ rd ++ imm8) &&&
    (0b11111#5 ++ 0#3 ++ 0#8) = _
  simp only [BitVec.and_append, BitVec.and_zero]; rfl

theorem RowMatch.lslImm : ∀ rd rm sh, RowMatch.Statement (.lslImm rd rm sh) := by
  intro rd rm sh
  refine ⟨Decode.table[8], List.getElem_mem _, ?_⟩
  show (0b00000#5 ++ sh ++ rm ++ rd) &&&
    (0b11111#5 ++ 0#5 ++ 0#3 ++ 0#3) = _
  simp only [BitVec.and_append, BitVec.and_zero]; rfl

theorem RowMatch.lsrImm : ∀ rd rm sh, RowMatch.Statement (.lsrImm rd rm sh) := by
  intro rd rm sh
  refine ⟨Decode.table[9], List.getElem_mem _, ?_⟩
  show (0b00001#5 ++ sh ++ rm ++ rd) &&&
    (0b11111#5 ++ 0#5 ++ 0#3 ++ 0#3) = _
  simp only [BitVec.and_append, BitVec.and_zero]; rfl

theorem RowMatch.asrImm : ∀ rd rm sh, RowMatch.Statement (.asrImm rd rm sh) := by
  intro rd rm sh
  refine ⟨Decode.table[10], List.getElem_mem _, ?_⟩
  show (0b00010#5 ++ sh ++ rm ++ rd) &&&
    (0b11111#5 ++ 0#5 ++ 0#3 ++ 0#3) = _
  simp only [BitVec.and_append, BitVec.and_zero]; rfl

theorem RowMatch.andReg : ∀ rd rm, RowMatch.Statement (.andReg rd rm) := by
  intro rd rm
  refine ⟨Decode.table[11], List.getElem_mem _, ?_⟩
  show (0b010000#6 ++ 0b0000#4 ++ rm ++ rd) &&&
    (0b111111#6 ++ 0b1111#4 ++ 0#3 ++ 0#3) = _
  simp only [BitVec.and_append, BitVec.and_zero]; rfl

theorem RowMatch.eorReg : ∀ rd rm, RowMatch.Statement (.eorReg rd rm) := by
  intro rd rm
  refine ⟨Decode.table[12], List.getElem_mem _, ?_⟩
  show (0b010000#6 ++ 0b0001#4 ++ rm ++ rd) &&&
    (0b111111#6 ++ 0b1111#4 ++ 0#3 ++ 0#3) = _
  simp only [BitVec.and_append, BitVec.and_zero]; rfl

theorem RowMatch.lslReg : ∀ rd rs, RowMatch.Statement (.lslReg rd rs) := by
  intro rd rs
  refine ⟨Decode.table[13], List.getElem_mem _, ?_⟩
  show (0b010000#6 ++ 0b0010#4 ++ rs ++ rd) &&&
    (0b111111#6 ++ 0b1111#4 ++ 0#3 ++ 0#3) = _
  simp only [BitVec.and_append, BitVec.and_zero]; rfl

theorem RowMatch.lsrReg : ∀ rd rs, RowMatch.Statement (.lsrReg rd rs) := by
  intro rd rs
  refine ⟨Decode.table[14], List.getElem_mem _, ?_⟩
  show (0b010000#6 ++ 0b0011#4 ++ rs ++ rd) &&&
    (0b111111#6 ++ 0b1111#4 ++ 0#3 ++ 0#3) = _
  simp only [BitVec.and_append, BitVec.and_zero]; rfl

theorem RowMatch.asrReg : ∀ rd rs, RowMatch.Statement (.asrReg rd rs) := by
  intro rd rs
  refine ⟨Decode.table[15], List.getElem_mem _, ?_⟩
  show (0b010000#6 ++ 0b0100#4 ++ rs ++ rd) &&&
    (0b111111#6 ++ 0b1111#4 ++ 0#3 ++ 0#3) = _
  simp only [BitVec.and_append, BitVec.and_zero]; rfl

theorem RowMatch.adcReg : ∀ rd rm, RowMatch.Statement (.adcReg rd rm) := by
  intro rd rm
  refine ⟨Decode.table[16], List.getElem_mem _, ?_⟩
  show (0b010000#6 ++ 0b0101#4 ++ rm ++ rd) &&&
    (0b111111#6 ++ 0b1111#4 ++ 0#3 ++ 0#3) = _
  simp only [BitVec.and_append, BitVec.and_zero]; rfl

theorem RowMatch.sbcReg : ∀ rd rm, RowMatch.Statement (.sbcReg rd rm) := by
  intro rd rm
  refine ⟨Decode.table[17], List.getElem_mem _, ?_⟩
  show (0b010000#6 ++ 0b0110#4 ++ rm ++ rd) &&&
    (0b111111#6 ++ 0b1111#4 ++ 0#3 ++ 0#3) = _
  simp only [BitVec.and_append, BitVec.and_zero]; rfl

theorem RowMatch.rorReg : ∀ rd rs, RowMatch.Statement (.rorReg rd rs) := by
  intro rd rs
  refine ⟨Decode.table[18], List.getElem_mem _, ?_⟩
  show (0b010000#6 ++ 0b0111#4 ++ rs ++ rd) &&&
    (0b111111#6 ++ 0b1111#4 ++ 0#3 ++ 0#3) = _
  simp only [BitVec.and_append, BitVec.and_zero]; rfl

theorem RowMatch.tstReg : ∀ rn rm, RowMatch.Statement (.tstReg rn rm) := by
  intro rn rm
  refine ⟨Decode.table[19], List.getElem_mem _, ?_⟩
  show (0b010000#6 ++ 0b1000#4 ++ rm ++ rn) &&&
    (0b111111#6 ++ 0b1111#4 ++ 0#3 ++ 0#3) = _
  simp only [BitVec.and_append, BitVec.and_zero]; rfl

theorem RowMatch.negReg : ∀ rd rm, RowMatch.Statement (.negReg rd rm) := by
  intro rd rm
  refine ⟨Decode.table[20], List.getElem_mem _, ?_⟩
  show (0b010000#6 ++ 0b1001#4 ++ rm ++ rd) &&&
    (0b111111#6 ++ 0b1111#4 ++ 0#3 ++ 0#3) = _
  simp only [BitVec.and_append, BitVec.and_zero]; rfl

theorem RowMatch.cmpReg : ∀ rn rm, RowMatch.Statement (.cmpReg rn rm) := by
  intro rn rm
  refine ⟨Decode.table[21], List.getElem_mem _, ?_⟩
  show (0b010000#6 ++ 0b1010#4 ++ rm ++ rn) &&&
    (0b111111#6 ++ 0b1111#4 ++ 0#3 ++ 0#3) = _
  simp only [BitVec.and_append, BitVec.and_zero]; rfl

theorem RowMatch.cmnReg : ∀ rn rm, RowMatch.Statement (.cmnReg rn rm) := by
  intro rn rm
  refine ⟨Decode.table[22], List.getElem_mem _, ?_⟩
  show (0b010000#6 ++ 0b1011#4 ++ rm ++ rn) &&&
    (0b111111#6 ++ 0b1111#4 ++ 0#3 ++ 0#3) = _
  simp only [BitVec.and_append, BitVec.and_zero]; rfl

theorem RowMatch.orrReg : ∀ rd rm, RowMatch.Statement (.orrReg rd rm) := by
  intro rd rm
  refine ⟨Decode.table[23], List.getElem_mem _, ?_⟩
  show (0b010000#6 ++ 0b1100#4 ++ rm ++ rd) &&&
    (0b111111#6 ++ 0b1111#4 ++ 0#3 ++ 0#3) = _
  simp only [BitVec.and_append, BitVec.and_zero]; rfl

theorem RowMatch.mulReg : ∀ rd rm, RowMatch.Statement (.mulReg rd rm) := by
  intro rd rm
  refine ⟨Decode.table[24], List.getElem_mem _, ?_⟩
  show (0b010000#6 ++ 0b1101#4 ++ rm ++ rd) &&&
    (0b111111#6 ++ 0b1111#4 ++ 0#3 ++ 0#3) = _
  simp only [BitVec.and_append, BitVec.and_zero]; rfl

theorem RowMatch.bicReg : ∀ rd rm, RowMatch.Statement (.bicReg rd rm) := by
  intro rd rm
  refine ⟨Decode.table[25], List.getElem_mem _, ?_⟩
  show (0b010000#6 ++ 0b1110#4 ++ rm ++ rd) &&&
    (0b111111#6 ++ 0b1111#4 ++ 0#3 ++ 0#3) = _
  simp only [BitVec.and_append, BitVec.and_zero]; rfl

theorem RowMatch.mvnReg : ∀ rd rm, RowMatch.Statement (.mvnReg rd rm) := by
  intro rd rm
  refine ⟨Decode.table[26], List.getElem_mem _, ?_⟩
  show (0b010000#6 ++ 0b1111#4 ++ rm ++ rd) &&&
    (0b111111#6 ++ 0b1111#4 ++ 0#3 ++ 0#3) = _
  simp only [BitVec.and_append, BitVec.and_zero]; rfl

theorem RowMatch.addHi : ∀ rd rm, RowMatch.Statement (.addHi rd rm) := by
  intro rd rm
  refine ⟨Decode.table[27], List.getElem_mem _, ?_⟩
  show (0b010001#6 ++ 0b00#2 ++ rd.extractLsb' 3 1 ++ rm ++ rd.extractLsb' 0 3) &&&
    (0b111111#6 ++ 0b11#2 ++ 0#1 ++ 0#4 ++ 0#3) = _
  simp only [BitVec.and_append, BitVec.and_zero]; rfl

theorem RowMatch.cmpHi : ∀ rn rm, RowMatch.Statement (.cmpHi rn rm) := by
  intro rn rm
  refine ⟨Decode.table[28], List.getElem_mem _, ?_⟩
  show (0b010001#6 ++ 0b01#2 ++ rn.extractLsb' 3 1 ++ rm ++ rn.extractLsb' 0 3) &&&
    (0b111111#6 ++ 0b11#2 ++ 0#1 ++ 0#4 ++ 0#3) = _
  simp only [BitVec.and_append, BitVec.and_zero]; rfl

theorem RowMatch.movHi : ∀ rd rm, RowMatch.Statement (.movHi rd rm) := by
  intro rd rm
  refine ⟨Decode.table[29], List.getElem_mem _, ?_⟩
  show (0b010001#6 ++ 0b10#2 ++ rd.extractLsb' 3 1 ++ rm ++ rd.extractLsb' 0 3) &&&
    (0b111111#6 ++ 0b11#2 ++ 0#1 ++ 0#4 ++ 0#3) = _
  simp only [BitVec.and_append, BitVec.and_zero]; rfl

theorem RowMatch.addRdPc : ∀ rd imm8, RowMatch.Statement (.addRdPc rd imm8) := by
  intro rd imm8
  refine ⟨Decode.table[30], List.getElem_mem _, ?_⟩
  show (0b10100#5 ++ rd ++ imm8) &&&
    (0b11111#5 ++ 0#3 ++ 0#8) = _
  simp only [BitVec.and_append, BitVec.and_zero]; rfl

theorem RowMatch.addRdSp : ∀ rd imm8, RowMatch.Statement (.addRdSp rd imm8) := by
  intro rd imm8
  refine ⟨Decode.table[31], List.getElem_mem _, ?_⟩
  show (0b10101#5 ++ rd ++ imm8) &&&
    (0b11111#5 ++ 0#3 ++ 0#8) = _
  simp only [BitVec.and_append, BitVec.and_zero]; rfl

theorem RowMatch.addSp : ∀ imm7, RowMatch.Statement (.addSp imm7) := by
  intro imm7
  refine ⟨Decode.table[32], List.getElem_mem _, ?_⟩
  show (0b101100000#9 ++ imm7) &&&
    (0b111111111#9 ++ 0#7) = _
  simp only [BitVec.and_append, BitVec.and_zero]; rfl

theorem RowMatch.subSp : ∀ imm7, RowMatch.Statement (.subSp imm7) := by
  intro imm7
  refine ⟨Decode.table[33], List.getElem_mem _, ?_⟩
  show (0b101100001#9 ++ imm7) &&&
    (0b111111111#9 ++ 0#7) = _
  simp only [BitVec.and_append, BitVec.and_zero]; rfl

theorem RowMatch.beq : ∀ off8, RowMatch.Statement (.beq off8) := by
  intro off8
  refine ⟨Decode.table[34], List.getElem_mem _, ?_⟩
  show (0b1101#4 ++ 0b0000#4 ++ off8) &&&
    (0b1111#4 ++ 0b1111#4 ++ 0#8) = _
  simp only [BitVec.and_append, BitVec.and_zero]; rfl

theorem RowMatch.bne : ∀ off8, RowMatch.Statement (.bne off8) := by
  intro off8
  refine ⟨Decode.table[35], List.getElem_mem _, ?_⟩
  show (0b1101#4 ++ 0b0001#4 ++ off8) &&&
    (0b1111#4 ++ 0b1111#4 ++ 0#8) = _
  simp only [BitVec.and_append, BitVec.and_zero]; rfl

theorem RowMatch.bcs : ∀ off8, RowMatch.Statement (.bcs off8) := by
  intro off8
  refine ⟨Decode.table[36], List.getElem_mem _, ?_⟩
  show (0b1101#4 ++ 0b0010#4 ++ off8) &&&
    (0b1111#4 ++ 0b1111#4 ++ 0#8) = _
  simp only [BitVec.and_append, BitVec.and_zero]; rfl

theorem RowMatch.bcc : ∀ off8, RowMatch.Statement (.bcc off8) := by
  intro off8
  refine ⟨Decode.table[37], List.getElem_mem _, ?_⟩
  show (0b1101#4 ++ 0b0011#4 ++ off8) &&&
    (0b1111#4 ++ 0b1111#4 ++ 0#8) = _
  simp only [BitVec.and_append, BitVec.and_zero]; rfl

theorem RowMatch.bmi : ∀ off8, RowMatch.Statement (.bmi off8) := by
  intro off8
  refine ⟨Decode.table[38], List.getElem_mem _, ?_⟩
  show (0b1101#4 ++ 0b0100#4 ++ off8) &&&
    (0b1111#4 ++ 0b1111#4 ++ 0#8) = _
  simp only [BitVec.and_append, BitVec.and_zero]; rfl

theorem RowMatch.bpl : ∀ off8, RowMatch.Statement (.bpl off8) := by
  intro off8
  refine ⟨Decode.table[39], List.getElem_mem _, ?_⟩
  show (0b1101#4 ++ 0b0101#4 ++ off8) &&&
    (0b1111#4 ++ 0b1111#4 ++ 0#8) = _
  simp only [BitVec.and_append, BitVec.and_zero]; rfl

theorem RowMatch.bvs : ∀ off8, RowMatch.Statement (.bvs off8) := by
  intro off8
  refine ⟨Decode.table[40], List.getElem_mem _, ?_⟩
  show (0b1101#4 ++ 0b0110#4 ++ off8) &&&
    (0b1111#4 ++ 0b1111#4 ++ 0#8) = _
  simp only [BitVec.and_append, BitVec.and_zero]; rfl

theorem RowMatch.bvc : ∀ off8, RowMatch.Statement (.bvc off8) := by
  intro off8
  refine ⟨Decode.table[41], List.getElem_mem _, ?_⟩
  show (0b1101#4 ++ 0b0111#4 ++ off8) &&&
    (0b1111#4 ++ 0b1111#4 ++ 0#8) = _
  simp only [BitVec.and_append, BitVec.and_zero]; rfl

theorem RowMatch.bhi : ∀ off8, RowMatch.Statement (.bhi off8) := by
  intro off8
  refine ⟨Decode.table[42], List.getElem_mem _, ?_⟩
  show (0b1101#4 ++ 0b1000#4 ++ off8) &&&
    (0b1111#4 ++ 0b1111#4 ++ 0#8) = _
  simp only [BitVec.and_append, BitVec.and_zero]; rfl

theorem RowMatch.bls : ∀ off8, RowMatch.Statement (.bls off8) := by
  intro off8
  refine ⟨Decode.table[43], List.getElem_mem _, ?_⟩
  show (0b1101#4 ++ 0b1001#4 ++ off8) &&&
    (0b1111#4 ++ 0b1111#4 ++ 0#8) = _
  simp only [BitVec.and_append, BitVec.and_zero]; rfl

theorem RowMatch.bge : ∀ off8, RowMatch.Statement (.bge off8) := by
  intro off8
  refine ⟨Decode.table[44], List.getElem_mem _, ?_⟩
  show (0b1101#4 ++ 0b1010#4 ++ off8) &&&
    (0b1111#4 ++ 0b1111#4 ++ 0#8) = _
  simp only [BitVec.and_append, BitVec.and_zero]; rfl

theorem RowMatch.blt : ∀ off8, RowMatch.Statement (.blt off8) := by
  intro off8
  refine ⟨Decode.table[45], List.getElem_mem _, ?_⟩
  show (0b1101#4 ++ 0b1011#4 ++ off8) &&&
    (0b1111#4 ++ 0b1111#4 ++ 0#8) = _
  simp only [BitVec.and_append, BitVec.and_zero]; rfl

theorem RowMatch.bgt : ∀ off8, RowMatch.Statement (.bgt off8) := by
  intro off8
  refine ⟨Decode.table[46], List.getElem_mem _, ?_⟩
  show (0b1101#4 ++ 0b1100#4 ++ off8) &&&
    (0b1111#4 ++ 0b1111#4 ++ 0#8) = _
  simp only [BitVec.and_append, BitVec.and_zero]; rfl

theorem RowMatch.ble : ∀ off8, RowMatch.Statement (.ble off8) := by
  intro off8
  refine ⟨Decode.table[47], List.getElem_mem _, ?_⟩
  show (0b1101#4 ++ 0b1101#4 ++ off8) &&&
    (0b1111#4 ++ 0b1111#4 ++ 0#8) = _
  simp only [BitVec.and_append, BitVec.and_zero]; rfl

theorem RowMatch.b : ∀ off11, RowMatch.Statement (.b off11) := by
  intro off11
  refine ⟨Decode.table[48], List.getElem_mem _, ?_⟩
  show (0b11100#5 ++ off11) &&&
    (0b11111#5 ++ 0#11) = _
  simp only [BitVec.and_append, BitVec.and_zero]; rfl

theorem RowMatch.blPrefix : ∀ off11, RowMatch.Statement (.blPrefix off11) := by
  intro off11
  refine ⟨Decode.table[49], List.getElem_mem _, ?_⟩
  show (0b11110#5 ++ off11) &&&
    (0b11111#5 ++ 0#11) = _
  simp only [BitVec.and_append, BitVec.and_zero]; rfl

theorem RowMatch.blSuffix : ∀ off11, RowMatch.Statement (.blSuffix off11) := by
  intro off11
  refine ⟨Decode.table[50], List.getElem_mem _, ?_⟩
  show (0b11111#5 ++ off11) &&&
    (0b11111#5 ++ 0#11) = _
  simp only [BitVec.and_append, BitVec.and_zero]; rfl

theorem RowMatch.blxSuffix : ∀ off10, RowMatch.Statement (.blxSuffix off10) := by
  intro off10
  refine ⟨Decode.table[51], List.getElem_mem _, ?_⟩
  show (0b11101#5 ++ off10 ++ 0#1) &&&
    (0b11111#5 ++ 0#10 ++ 1#1) = _
  simp only [BitVec.and_append, BitVec.and_zero]; rfl

theorem RowMatch.bx : ∀ rm sbz, RowMatch.Statement (.bx rm sbz) := by
  intro rm sbz
  refine ⟨Decode.table[52], List.getElem_mem _, ?_⟩
  show (0b010001110#9 ++ rm ++ sbz) &&&
    (0b111111111#9 ++ 0#4 ++ 0#3) = _
  simp only [BitVec.and_append, BitVec.and_zero]; rfl

theorem RowMatch.blxReg : ∀ rm sbz, RowMatch.Statement (.blxReg rm sbz) := by
  intro rm sbz
  refine ⟨Decode.table[53], List.getElem_mem _, ?_⟩
  show (0b010001111#9 ++ rm ++ sbz) &&&
    (0b111111111#9 ++ 0#4 ++ 0#3) = _
  simp only [BitVec.and_append, BitVec.and_zero]; rfl

theorem RowMatch.swi : ∀ imm8, RowMatch.Statement (.swi imm8) := by
  intro imm8
  refine ⟨Decode.table[54], List.getElem_mem _, ?_⟩
  show (0b11011111#8 ++ imm8) &&&
    (0b11111111#8 ++ 0#8) = (_ : BitVec (8 + 8))
  simp only [BitVec.and_append, BitVec.and_zero]; rfl

theorem RowMatch.strImm : ∀ rd rn off5, RowMatch.Statement (.strImm rd rn off5) := by
  intro rd rn off5
  refine ⟨Decode.table[55], List.getElem_mem _, ?_⟩
  show (0b01100#5 ++ off5 ++ rn ++ rd) &&&
    (0b11111#5 ++ 0#5 ++ 0#3 ++ 0#3) = _
  simp only [BitVec.and_append, BitVec.and_zero]; rfl

theorem RowMatch.ldrImm : ∀ rd rn off5, RowMatch.Statement (.ldrImm rd rn off5) := by
  intro rd rn off5
  refine ⟨Decode.table[56], List.getElem_mem _, ?_⟩
  show (0b01101#5 ++ off5 ++ rn ++ rd) &&&
    (0b11111#5 ++ 0#5 ++ 0#3 ++ 0#3) = _
  simp only [BitVec.and_append, BitVec.and_zero]; rfl

theorem RowMatch.strbImm : ∀ rd rn off5, RowMatch.Statement (.strbImm rd rn off5) := by
  intro rd rn off5
  refine ⟨Decode.table[57], List.getElem_mem _, ?_⟩
  show (0b01110#5 ++ off5 ++ rn ++ rd) &&&
    (0b11111#5 ++ 0#5 ++ 0#3 ++ 0#3) = _
  simp only [BitVec.and_append, BitVec.and_zero]; rfl

theorem RowMatch.ldrbImm : ∀ rd rn off5, RowMatch.Statement (.ldrbImm rd rn off5) := by
  intro rd rn off5
  refine ⟨Decode.table[58], List.getElem_mem _, ?_⟩
  show (0b01111#5 ++ off5 ++ rn ++ rd) &&&
    (0b11111#5 ++ 0#5 ++ 0#3 ++ 0#3) = _
  simp only [BitVec.and_append, BitVec.and_zero]; rfl

theorem RowMatch.strhImm : ∀ rd rn off5, RowMatch.Statement (.strhImm rd rn off5) := by
  intro rd rn off5
  refine ⟨Decode.table[59], List.getElem_mem _, ?_⟩
  show (0b10000#5 ++ off5 ++ rn ++ rd) &&&
    (0b11111#5 ++ 0#5 ++ 0#3 ++ 0#3) = _
  simp only [BitVec.and_append, BitVec.and_zero]; rfl

theorem RowMatch.ldrhImm : ∀ rd rn off5, RowMatch.Statement (.ldrhImm rd rn off5) := by
  intro rd rn off5
  refine ⟨Decode.table[60], List.getElem_mem _, ?_⟩
  show (0b10001#5 ++ off5 ++ rn ++ rd) &&&
    (0b11111#5 ++ 0#5 ++ 0#3 ++ 0#3) = _
  simp only [BitVec.and_append, BitVec.and_zero]; rfl

theorem RowMatch.strReg : ∀ rd rn rm, RowMatch.Statement (.strReg rd rn rm) := by
  intro rd rn rm
  refine ⟨Decode.table[61], List.getElem_mem _, ?_⟩
  show (0b0101#4 ++ 0b000#3 ++ rm ++ rn ++ rd) &&&
    (0b1111#4 ++ 0b111#3 ++ 0#3 ++ 0#3 ++ 0#3) = _
  simp only [BitVec.and_append, BitVec.and_zero]; rfl

theorem RowMatch.strhReg : ∀ rd rn rm, RowMatch.Statement (.strhReg rd rn rm) := by
  intro rd rn rm
  refine ⟨Decode.table[62], List.getElem_mem _, ?_⟩
  show (0b0101#4 ++ 0b001#3 ++ rm ++ rn ++ rd) &&&
    (0b1111#4 ++ 0b111#3 ++ 0#3 ++ 0#3 ++ 0#3) = _
  simp only [BitVec.and_append, BitVec.and_zero]; rfl

theorem RowMatch.strbReg : ∀ rd rn rm, RowMatch.Statement (.strbReg rd rn rm) := by
  intro rd rn rm
  refine ⟨Decode.table[63], List.getElem_mem _, ?_⟩
  show (0b0101#4 ++ 0b010#3 ++ rm ++ rn ++ rd) &&&
    (0b1111#4 ++ 0b111#3 ++ 0#3 ++ 0#3 ++ 0#3) = _
  simp only [BitVec.and_append, BitVec.and_zero]; rfl

theorem RowMatch.ldrsbReg : ∀ rd rn rm, RowMatch.Statement (.ldrsbReg rd rn rm) := by
  intro rd rn rm
  refine ⟨Decode.table[64], List.getElem_mem _, ?_⟩
  show (0b0101#4 ++ 0b011#3 ++ rm ++ rn ++ rd) &&&
    (0b1111#4 ++ 0b111#3 ++ 0#3 ++ 0#3 ++ 0#3) = _
  simp only [BitVec.and_append, BitVec.and_zero]; rfl

theorem RowMatch.ldrReg : ∀ rd rn rm, RowMatch.Statement (.ldrReg rd rn rm) := by
  intro rd rn rm
  refine ⟨Decode.table[65], List.getElem_mem _, ?_⟩
  show (0b0101#4 ++ 0b100#3 ++ rm ++ rn ++ rd) &&&
    (0b1111#4 ++ 0b111#3 ++ 0#3 ++ 0#3 ++ 0#3) = _
  simp only [BitVec.and_append, BitVec.and_zero]; rfl

theorem RowMatch.ldrhReg : ∀ rd rn rm, RowMatch.Statement (.ldrhReg rd rn rm) := by
  intro rd rn rm
  refine ⟨Decode.table[66], List.getElem_mem _, ?_⟩
  show (0b0101#4 ++ 0b101#3 ++ rm ++ rn ++ rd) &&&
    (0b1111#4 ++ 0b111#3 ++ 0#3 ++ 0#3 ++ 0#3) = _
  simp only [BitVec.and_append, BitVec.and_zero]; rfl

theorem RowMatch.ldrbReg : ∀ rd rn rm, RowMatch.Statement (.ldrbReg rd rn rm) := by
  intro rd rn rm
  refine ⟨Decode.table[67], List.getElem_mem _, ?_⟩
  show (0b0101#4 ++ 0b110#3 ++ rm ++ rn ++ rd) &&&
    (0b1111#4 ++ 0b111#3 ++ 0#3 ++ 0#3 ++ 0#3) = _
  simp only [BitVec.and_append, BitVec.and_zero]; rfl

theorem RowMatch.ldrshReg : ∀ rd rn rm, RowMatch.Statement (.ldrshReg rd rn rm) := by
  intro rd rn rm
  refine ⟨Decode.table[68], List.getElem_mem _, ?_⟩
  show (0b0101#4 ++ 0b111#3 ++ rm ++ rn ++ rd) &&&
    (0b1111#4 ++ 0b111#3 ++ 0#3 ++ 0#3 ++ 0#3) = _
  simp only [BitVec.and_append, BitVec.and_zero]; rfl

theorem RowMatch.ldrPc : ∀ rd off8, RowMatch.Statement (.ldrPc rd off8) := by
  intro rd off8
  refine ⟨Decode.table[69], List.getElem_mem _, ?_⟩
  show (0b01001#5 ++ rd ++ off8) &&&
    (0b11111#5 ++ 0#3 ++ 0#8) = _
  simp only [BitVec.and_append, BitVec.and_zero]; rfl

theorem RowMatch.strSp : ∀ rd off8, RowMatch.Statement (.strSp rd off8) := by
  intro rd off8
  refine ⟨Decode.table[70], List.getElem_mem _, ?_⟩
  show (0b10010#5 ++ rd ++ off8) &&&
    (0b11111#5 ++ 0#3 ++ 0#8) = _
  simp only [BitVec.and_append, BitVec.and_zero]; rfl

theorem RowMatch.ldrSp : ∀ rd off8, RowMatch.Statement (.ldrSp rd off8) := by
  intro rd off8
  refine ⟨Decode.table[71], List.getElem_mem _, ?_⟩
  show (0b10011#5 ++ rd ++ off8) &&&
    (0b11111#5 ++ 0#3 ++ 0#8) = _
  simp only [BitVec.and_append, BitVec.and_zero]; rfl

theorem RowMatch.stmia : ∀ rn reglist, RowMatch.Statement (.stmia rn reglist) := by
  intro rn reglist
  refine ⟨Decode.table[72], List.getElem_mem _, ?_⟩
  show (0b11000#5 ++ rn ++ reglist) &&&
    (0b11111#5 ++ 0#3 ++ 0#8) = _
  simp only [BitVec.and_append, BitVec.and_zero]; rfl

theorem RowMatch.ldmia : ∀ rn reglist, RowMatch.Statement (.ldmia rn reglist) := by
  intro rn reglist
  refine ⟨Decode.table[73], List.getElem_mem _, ?_⟩
  show (0b11001#5 ++ rn ++ reglist) &&&
    (0b11111#5 ++ 0#3 ++ 0#8) = _
  simp only [BitVec.and_append, BitVec.and_zero]; rfl

theorem RowMatch.push : ∀ r reglist, RowMatch.Statement (.push r reglist) := by
  intro r reglist
  refine ⟨Decode.table[74], List.getElem_mem _, ?_⟩
  show (0b1011010#7 ++ BitVec.ofBool r ++ reglist) &&&
    (0b1111111#7 ++ 0#1 ++ 0#8) = _
  simp only [BitVec.and_append, BitVec.and_zero]; rfl

theorem RowMatch.pop : ∀ r reglist, RowMatch.Statement (.pop r reglist) := by
  intro r reglist
  refine ⟨Decode.table[75], List.getElem_mem _, ?_⟩
  show (0b1011110#7 ++ BitVec.ofBool r ++ reglist) &&&
    (0b1111111#7 ++ 0#1 ++ 0#8) = _
  simp only [BitVec.and_append, BitVec.and_zero]; rfl

end Sys2Proof.Laws
end

