-- ==== Sys2Proof/Tests/Slice0.lean ====
section
/-! SUPPORT. The model's own tests: the ill-formed terms each check refuses, the words of the spec's
encodings, one step of the vectors of 95_test_vectors.md, and a witness for the hypotheses of each
statement. Expected results come from the spec. -/

namespace Sys2Proof.Tests

open Sys2Proof.Machine

/-! ### Helpers -/

/-- A launch in User mode with the flags NZCV `f`, an image of the `size` bytes from `base` that holds
`data` and else zeros, admitted for reading and writing, and the host table present; then the registers,
also an SP that no launch may name. -/
def boot (pc : Word) (f : BitVec 4) (regs : List (RegNum × Word)) (data : List Host.Cell)
    (base size : Nat) : State :=
  ((launch { entry := pc, mode := 0b10000#5, i := false, f := false, n := f.getLsbD 3,
             z := f.getLsbD 2, c := f.getLsbD 1, v := f.getLsbD 0, unused := 0#20, regs := [],
             image := (List.range size).map (fun k => (base + k, 0#8)) ++ data, lines := [],
             params := { Config.resetParams with
               memMap := [⟨base, size, [.read, .write], [.byte, .half, .word]⟩],
               swiHost := some Config.standardHost } }).getD State.reset).launchRegs regs

/-- The step that runs one half-word. -/
def run1 (w : Nat) (s : State) : Result := step (s.withFetchWord 16 w)

/-- What is seen of the next state. -/
def seen {α : Type} (o : Result) (f : State → α) : Option α :=
  match o with
  | .next t => some (f t)
  | .fault _ | .refused _ => none

/-- The fault of a step. -/
def faultOf (o : Result) : Option Fault :=
  match o with
  | .fault e => some e
  | .next _ | .refused _ => none

/-- The step gives a next state. -/
def completes (o : Result) : Bool :=
  match o with
  | .next _ => true
  | .fault _ | .refused _ => false

/-- The flags as N, Z, C, V. -/
def nzcv (t : State) : BitVec 4 :=
  BitVec.ofBool t.cpsr.n ++ BitVec.ofBool t.cpsr.z ++ BitVec.ofBool t.cpsr.c ++ BitVec.ofBool t.cpsr.v

/-- The state in big-endian order. -/
def asBig (s : State) : State := { s with params := { s.params with bigEnd := true } }

/-- The state of a processor earlier than v5T. -/
def asV4 (s : State) : State := { s with params := { s.params with arch5t := false } }

/-- The state with the data aborts of R256 taken. -/
def aborting (s : State) : State := { s with params := { s.params with abortTraps := true } }

/-- The state with a code region. -/
def withCode (s : State) (base size : Nat) : State :=
  { s with params := { s.params with code := [⟨base, size⟩] } }

/-- The bytes 78 56 34 12 F0 DE BC 9A 80 FF 7F 00 at 0x2000, the data of section 2.6. -/
def data2000 : List Host.Cell :=
  [(0x2000, 0x78#8), (0x2001, 0x56#8), (0x2002, 0x34#8), (0x2003, 0x12#8), (0x2004, 0xF0#8),
   (0x2005, 0xDE#8), (0x2006, 0xBC#8), (0x2007, 0x9A#8), (0x2008, 0x80#8), (0x2009, 0xFF#8),
   (0x200A, 0x7F#8)]

/-! ### WellFormed: each check refuses an ill-formed term (R107) -/

theorem test_wf_addHi_two_lo : Instr.wellFormed (.addHi 1 2) = false := by decide
theorem test_wf_cmpHi_two_lo : Instr.wellFormed (.cmpHi 1 2) = false := by decide
theorem test_wf_cmpHi_pc_first : Instr.wellFormed (.cmpHi 15 2) = false := by decide
theorem test_wf_movHi_two_lo : Instr.wellFormed (.movHi 7 7) = false := by decide
theorem test_wf_bx_low_bits : Instr.wellFormed (.bx 14 1) = false := by decide
theorem test_wf_blx_low_bits : Instr.wellFormed (.blxReg 3 4) = false := by decide
theorem test_wf_blx_pc : Instr.wellFormed (.blxReg 15 0) = false := by decide
theorem test_wf_stmia_empty : Instr.wellFormed (.stmia 0 0) = false := by decide
theorem test_wf_stmia_base_not_lowest : Instr.wellFormed (.stmia 1 0b11) = false := by decide
theorem test_wf_stmia_base_lowest : Instr.wellFormed (.stmia 1 0b10) = true := by decide
theorem test_wf_ldmia_empty : Instr.wellFormed (.ldmia 0 0) = false := by decide
theorem test_wf_push_empty : Instr.wellFormed (.push false 0) = false := by decide
theorem test_wf_push_lr_alone : Instr.wellFormed (.push true 0) = true := by decide
theorem test_wf_pop_empty : Instr.wellFormed (.pop false 0) = false := by decide

/-! ### Decoding: words written field by field from R82 to R102 and R114 -/

theorem test_decode_addReg :
    decode (0b000110#6 ++ 0b0#1 ++ 0b010#3 ++ 0b001#3 ++ 0b000#3) = .ok (.addReg 0 1 2) := by decide
theorem test_decode_subReg :
    decode (0b000110#6 ++ 0b1#1 ++ 0b010#3 ++ 0b001#3 ++ 0b000#3) = .ok (.subReg 0 1 2) := by decide
theorem test_decode_addImm3 :
    decode (0b000111#6 ++ 0b0#1 ++ 0b111#3 ++ 0b100#3 ++ 0b011#3) = .ok (.addImm3 3 4 7) := by decide
theorem test_decode_subImm3 :
    decode (0b000111#6 ++ 0b1#1 ++ 0b001#3 ++ 0b100#3 ++ 0b011#3) = .ok (.subImm3 3 4 1) := by decide
theorem test_decode_movImm8 :
    decode (0b001#3 ++ 0b00#2 ++ 0b101#3 ++ 0b11111111#8) = .ok (.movImm8 5 255) := by decide
theorem test_decode_cmpImm8 :
    decode (0b001#3 ++ 0b01#2 ++ 0b001#3 ++ 0b00001010#8) = .ok (.cmpImm8 1 10) := by decide
theorem test_decode_addImm8 :
    decode (0b001#3 ++ 0b10#2 ++ 0b011#3 ++ 0b00000101#8) = .ok (.addImm8 3 5) := by decide
theorem test_decode_subImm8 :
    decode (0b001#3 ++ 0b11#2 ++ 0b010#3 ++ 0b00000001#8) = .ok (.subImm8 2 1) := by decide
theorem test_decode_lslImm :
    decode (0b000#3 ++ 0b00#2 ++ 0b11111#5 ++ 0b001#3 ++ 0b000#3) = .ok (.lslImm 0 1 31) := by decide
theorem test_decode_lsrImm :
    decode (0b000#3 ++ 0b01#2 ++ 0b00001#5 ++ 0b001#3 ++ 0b000#3) = .ok (.lsrImm 0 1 1) := by decide
theorem test_decode_asrImm :
    decode (0b000#3 ++ 0b10#2 ++ 0b00100#5 ++ 0b001#3 ++ 0b000#3) = .ok (.asrImm 0 1 4) := by decide
theorem test_decode_andReg :
    decode (0b010000#6 ++ 0b0000#4 ++ 0b110#3 ++ 0b011#3) = .ok (.andReg 3 6) := by decide
theorem test_decode_eorReg :
    decode (0b010000#6 ++ 0b0001#4 ++ 0b110#3 ++ 0b011#3) = .ok (.eorReg 3 6) := by decide
theorem test_decode_lslReg :
    decode (0b010000#6 ++ 0b0010#4 ++ 0b110#3 ++ 0b011#3) = .ok (.lslReg 3 6) := by decide
theorem test_decode_lsrReg :
    decode (0b010000#6 ++ 0b0011#4 ++ 0b110#3 ++ 0b011#3) = .ok (.lsrReg 3 6) := by decide
theorem test_decode_asrReg :
    decode (0b010000#6 ++ 0b0100#4 ++ 0b110#3 ++ 0b011#3) = .ok (.asrReg 3 6) := by decide
theorem test_decode_adcReg :
    decode (0b010000#6 ++ 0b0101#4 ++ 0b110#3 ++ 0b011#3) = .ok (.adcReg 3 6) := by decide
theorem test_decode_sbcReg :
    decode (0b010000#6 ++ 0b0110#4 ++ 0b110#3 ++ 0b011#3) = .ok (.sbcReg 3 6) := by decide
theorem test_decode_rorReg :
    decode (0b010000#6 ++ 0b0111#4 ++ 0b110#3 ++ 0b011#3) = .ok (.rorReg 3 6) := by decide
theorem test_decode_tstReg :
    decode (0b010000#6 ++ 0b1000#4 ++ 0b110#3 ++ 0b011#3) = .ok (.tstReg 3 6) := by decide
theorem test_decode_negReg :
    decode (0b010000#6 ++ 0b1001#4 ++ 0b110#3 ++ 0b011#3) = .ok (.negReg 3 6) := by decide
theorem test_decode_cmpReg :
    decode (0b010000#6 ++ 0b1010#4 ++ 0b110#3 ++ 0b011#3) = .ok (.cmpReg 3 6) := by decide
theorem test_decode_cmnReg :
    decode (0b010000#6 ++ 0b1011#4 ++ 0b110#3 ++ 0b011#3) = .ok (.cmnReg 3 6) := by decide
theorem test_decode_orrReg :
    decode (0b010000#6 ++ 0b1100#4 ++ 0b110#3 ++ 0b011#3) = .ok (.orrReg 3 6) := by decide
theorem test_decode_mulReg :
    decode (0b010000#6 ++ 0b1101#4 ++ 0b110#3 ++ 0b011#3) = .ok (.mulReg 3 6) := by decide
theorem test_decode_bicReg :
    decode (0b010000#6 ++ 0b1110#4 ++ 0b110#3 ++ 0b011#3) = .ok (.bicReg 3 6) := by decide
theorem test_decode_mvnReg :
    decode (0b010000#6 ++ 0b1111#4 ++ 0b110#3 ++ 0b011#3) = .ok (.mvnReg 3 6) := by decide
theorem test_decode_addHi :
    decode (0b010001#6 ++ 0b00#2 ++ 0b1#1 ++ 0b0#1 ++ 0b100#3 ++ 0b101#3) = .ok (.addHi 13 4) := by decide
theorem test_decode_cmpHi :
    decode (0b010001#6 ++ 0b01#2 ++ 0b0#1 ++ 0b1#1 ++ 0b001#3 ++ 0b001#3) = .ok (.cmpHi 1 9) := by decide
theorem test_decode_movHi :
    decode (0b010001#6 ++ 0b10#2 ++ 0b1#1 ++ 0b1#1 ++ 0b110#3 ++ 0b111#3) = .ok (.movHi 15 14) := by decide
theorem test_decode_addRdPc :
    decode (0b1010#4 ++ 0b0#1 ++ 0b111#3 ++ 0b11111111#8) = .ok (.addRdPc 7 255) := by decide
theorem test_decode_addRdSp :
    decode (0b1010#4 ++ 0b1#1 ++ 0b000#3 ++ 0b00000100#8) = .ok (.addRdSp 0 4) := by decide
theorem test_decode_addSp :
    decode (0b10110000#8 ++ 0b0#1 ++ 0b0000010#7) = .ok (.addSp 2) := by decide
theorem test_decode_subSp :
    decode (0b10110000#8 ++ 0b1#1 ++ 0b1111111#7) = .ok (.subSp 127) := by decide
theorem test_decode_beq :
    decode (0b1101#4 ++ 0b0000#4 ++ 0b11111100#8) = .ok (.beq 0xFC) := by decide
theorem test_decode_bne :
    decode (0b1101#4 ++ 0b0001#4 ++ 0b11111100#8) = .ok (.bne 0xFC) := by decide
theorem test_decode_bcs :
    decode (0b1101#4 ++ 0b0010#4 ++ 0b11111100#8) = .ok (.bcs 0xFC) := by decide
theorem test_decode_bcc :
    decode (0b1101#4 ++ 0b0011#4 ++ 0b11111100#8) = .ok (.bcc 0xFC) := by decide
theorem test_decode_bmi :
    decode (0b1101#4 ++ 0b0100#4 ++ 0b11111100#8) = .ok (.bmi 0xFC) := by decide
theorem test_decode_bpl :
    decode (0b1101#4 ++ 0b0101#4 ++ 0b11111100#8) = .ok (.bpl 0xFC) := by decide
theorem test_decode_bvs :
    decode (0b1101#4 ++ 0b0110#4 ++ 0b11111100#8) = .ok (.bvs 0xFC) := by decide
theorem test_decode_bvc :
    decode (0b1101#4 ++ 0b0111#4 ++ 0b11111100#8) = .ok (.bvc 0xFC) := by decide
theorem test_decode_bhi :
    decode (0b1101#4 ++ 0b1000#4 ++ 0b11111100#8) = .ok (.bhi 0xFC) := by decide
theorem test_decode_bls :
    decode (0b1101#4 ++ 0b1001#4 ++ 0b11111100#8) = .ok (.bls 0xFC) := by decide
theorem test_decode_bge :
    decode (0b1101#4 ++ 0b1010#4 ++ 0b11111100#8) = .ok (.bge 0xFC) := by decide
theorem test_decode_blt :
    decode (0b1101#4 ++ 0b1011#4 ++ 0b11111100#8) = .ok (.blt 0xFC) := by decide
theorem test_decode_bgt :
    decode (0b1101#4 ++ 0b1100#4 ++ 0b11111100#8) = .ok (.bgt 0xFC) := by decide
theorem test_decode_ble :
    decode (0b1101#4 ++ 0b1101#4 ++ 0b11111100#8) = .ok (.ble 0xFC) := by decide
theorem test_decode_b :
    decode (0b11100#5 ++ 0b00001111110#11) = .ok (.b 0x7E) := by decide
theorem test_decode_blPrefix :
    decode (0b1111#4 ++ 0b0#1 ++ 0b11111111110#11) = .ok (.blPrefix 0x7FE) := by decide
theorem test_decode_blSuffix :
    decode (0b1111#4 ++ 0b1#1 ++ 0b11111111110#11) = .ok (.blSuffix 0x7FE) := by decide
theorem test_decode_blxSuffix :
    decode (0b11101#5 ++ 0b1111111110#10 ++ 0b0#1) = .ok (.blxSuffix 0x3FE) := by decide
theorem test_decode_bx :
    decode (0b01000111#8 ++ 0b0#1 ++ 0b1#1 ++ 0b110#3 ++ 0b000#3) = .ok (.bx 14 0) := by decide
theorem test_decode_blxReg :
    decode (0b01000111#8 ++ 0b1#1 ++ 0b0#1 ++ 0b011#3 ++ 0b000#3) = .ok (.blxReg 3 0) := by decide
theorem test_decode_swi :
    decode (0b11011111#8 ++ 0b00010001#8) = .ok (.swi 0x11) := by decide
theorem test_decode_strImm :
    decode (0b011#3 ++ 0b0#1 ++ 0b0#1 ++ 0b00001#5 ++ 0b001#3 ++ 0b000#3) = .ok (.strImm 0 1 1) := by decide
theorem test_decode_ldrImm :
    decode (0b011#3 ++ 0b0#1 ++ 0b1#1 ++ 0b11111#5 ++ 0b001#3 ++ 0b000#3) = .ok (.ldrImm 0 1 31) := by decide
theorem test_decode_strbImm :
    decode (0b011#3 ++ 0b1#1 ++ 0b0#1 ++ 0b00011#5 ++ 0b001#3 ++ 0b000#3) = .ok (.strbImm 0 1 3) := by decide
theorem test_decode_ldrbImm :
    decode (0b011#3 ++ 0b1#1 ++ 0b1#1 ++ 0b00101#5 ++ 0b001#3 ++ 0b000#3) = .ok (.ldrbImm 0 1 5) := by decide
theorem test_decode_strhImm :
    decode (0b1000#4 ++ 0b0#1 ++ 0b00001#5 ++ 0b001#3 ++ 0b000#3) = .ok (.strhImm 0 1 1) := by decide
theorem test_decode_ldrhImm :
    decode (0b1000#4 ++ 0b1#1 ++ 0b00011#5 ++ 0b001#3 ++ 0b000#3) = .ok (.ldrhImm 0 1 3) := by decide
theorem test_decode_strReg :
    decode (0b0101#4 ++ 0b000#3 ++ 0b010#3 ++ 0b001#3 ++ 0b000#3) = .ok (.strReg 0 1 2) := by decide
theorem test_decode_strhReg :
    decode (0b0101#4 ++ 0b001#3 ++ 0b010#3 ++ 0b001#3 ++ 0b000#3) = .ok (.strhReg 0 1 2) := by decide
theorem test_decode_strbReg :
    decode (0b0101#4 ++ 0b010#3 ++ 0b010#3 ++ 0b001#3 ++ 0b000#3) = .ok (.strbReg 0 1 2) := by decide
theorem test_decode_ldrsbReg :
    decode (0b0101#4 ++ 0b011#3 ++ 0b010#3 ++ 0b001#3 ++ 0b000#3) = .ok (.ldrsbReg 0 1 2) := by decide
theorem test_decode_ldrReg :
    decode (0b0101#4 ++ 0b100#3 ++ 0b010#3 ++ 0b001#3 ++ 0b000#3) = .ok (.ldrReg 0 1 2) := by decide
theorem test_decode_ldrhReg :
    decode (0b0101#4 ++ 0b101#3 ++ 0b010#3 ++ 0b001#3 ++ 0b000#3) = .ok (.ldrhReg 0 1 2) := by decide
theorem test_decode_ldrbReg :
    decode (0b0101#4 ++ 0b110#3 ++ 0b010#3 ++ 0b001#3 ++ 0b000#3) = .ok (.ldrbReg 0 1 2) := by decide
theorem test_decode_ldrshReg :
    decode (0b0101#4 ++ 0b111#3 ++ 0b010#3 ++ 0b001#3 ++ 0b000#3) = .ok (.ldrshReg 0 1 2) := by decide
theorem test_decode_ldrPc :
    decode (0b01001#5 ++ 0b011#3 ++ 0b00000010#8) = .ok (.ldrPc 3 2) := by decide
theorem test_decode_strSp :
    decode (0b1001#4 ++ 0b0#1 ++ 0b111#3 ++ 0b11111111#8) = .ok (.strSp 7 255) := by decide
theorem test_decode_ldrSp :
    decode (0b1001#4 ++ 0b1#1 ++ 0b000#3 ++ 0b00000010#8) = .ok (.ldrSp 0 2) := by decide
theorem test_decode_stmia :
    decode (0b1100#4 ++ 0b0#1 ++ 0b000#3 ++ 0b00001110#8) = .ok (.stmia 0 0x0E) := by decide
theorem test_decode_ldmia :
    decode (0b1100#4 ++ 0b1#1 ++ 0b000#3 ++ 0b00001110#8) = .ok (.ldmia 0 0x0E) := by decide
theorem test_decode_push :
    decode (0b1011#4 ++ 0b0#1 ++ 0b10#2 ++ 0b1#1 ++ 0b00110000#8) = .ok (.push true 0x30) := by decide
theorem test_decode_pop :
    decode (0b1011#4 ++ 0b1#1 ++ 0b10#2 ++ 0b1#1 ++ 0b00110000#8) = .ok (.pop true 0x30) := by decide

/-- One representative of each group of R106 is no instruction. -/
theorem test_decode_undefined : decode 0xB100#16 = .error .undefined1011 ∧
    decode 0xBE00#16 = .error .undefined1011 ∧ decode 0xBF00#16 = .error .undefined1011 ∧
    decode 0xDE55#16 = .error .undefinedCond1110 ∧ decode 0xE801#16 = .error .undefinedBlxBit0 := by
  decide

/-- The decoder is total: fewer than two bytes are refused by name. -/
theorem test_decode_truncated : decodeBytes false [0x88#8] = .error .truncated := by decide

/-- A big-endian half-word has its high byte first (R52). -/
theorem test_decode_big : decodeBytes true [0x18#8, 0x88#8] = .ok (.addReg 0 1 2, []) := by decide

theorem test_decodeTableWord : decodeTableWord 16 0x1888 = some (.addReg 0 1 2) := by decide

/-! ### One step of the vectors of 95_test_vectors.md, section 2 -/

-- R120, row `BEQ +8 (taken)`
theorem test_beq_1 : seen (run1 0xD004
    (boot 0x1000#32 0b0100#4 [] [] 0x0 0))
    (fun t => (nzcv t, t.pc)) =
    some (0b0100#4, 0x100C#32) := by
  decide
-- R120, row `BNE -4`
theorem test_bne_1 : seen (run1 0xD1FE
    (boot 0x1000#32 0b0000#4 [] [] 0x0 0))
    (fun t => (nzcv t, t.pc)) =
    some (0b0000#4, 0x1000#32) := by
  decide
-- R120, row `BCS taken`
theorem test_bcs_1 : seen (run1 0xD202
    (boot 0x1000#32 0b0010#4 [] [] 0x0 0))
    (fun t => (nzcv t, t.pc)) =
    some (0b0010#4, 0x1008#32) := by
  decide
-- R120, row `BCC not taken`
theorem test_bcc_1 : seen (run1 0xD302
    (boot 0x1000#32 0b0010#4 [] [] 0x0 0))
    (fun t => (nzcv t, t.pc)) =
    some (0b0010#4, 0x1002#32) := by
  decide
-- R120, row `BMI taken`
theorem test_bmi_1 : seen (run1 0xD402
    (boot 0x1000#32 0b1000#4 [] [] 0x0 0))
    (fun t => (nzcv t, t.pc)) =
    some (0b1000#4, 0x1008#32) := by
  decide
-- R120, row `BPL not taken`
theorem test_bpl_1 : seen (run1 0xD502
    (boot 0x1000#32 0b1000#4 [] [] 0x0 0))
    (fun t => (nzcv t, t.pc)) =
    some (0b1000#4, 0x1002#32) := by
  decide
-- R120, row `BVS taken`
theorem test_bvs_1 : seen (run1 0xD602
    (boot 0x1000#32 0b0001#4 [] [] 0x0 0))
    (fun t => (nzcv t, t.pc)) =
    some (0b0001#4, 0x1008#32) := by
  decide
-- R120, row `BVC not taken`
theorem test_bvc_1 : seen (run1 0xD702
    (boot 0x1000#32 0b0001#4 [] [] 0x0 0))
    (fun t => (nzcv t, t.pc)) =
    some (0b0001#4, 0x1002#32) := by
  decide
-- R120, row `BHI taken C=1 Z=0`
theorem test_bhi_1 : seen (run1 0xD802
    (boot 0x1000#32 0b0010#4 [] [] 0x0 0))
    (fun t => (nzcv t, t.pc)) =
    some (0b0010#4, 0x1008#32) := by
  decide
-- R120, row `BHI not taken C=1 Z=1`
theorem test_bhi_2 : seen (run1 0xD802
    (boot 0x1000#32 0b0110#4 [] [] 0x0 0))
    (fun t => (nzcv t, t.pc)) =
    some (0b0110#4, 0x1002#32) := by
  decide
-- R120, row `BLS taken C=0`
theorem test_bls_1 : seen (run1 0xD902
    (boot 0x1000#32 0b0000#4 [] [] 0x0 0))
    (fun t => (nzcv t, t.pc)) =
    some (0b0000#4, 0x1008#32) := by
  decide
-- R120, row `BGE taken N=V=1`
theorem test_bge_1 : seen (run1 0xDA02
    (boot 0x1000#32 0b1001#4 [] [] 0x0 0))
    (fun t => (nzcv t, t.pc)) =
    some (0b1001#4, 0x1008#32) := by
  decide
-- R120, row `BLT taken N=1 V=0`
theorem test_blt_1 : seen (run1 0xDB02
    (boot 0x1000#32 0b1000#4 [] [] 0x0 0))
    (fun t => (nzcv t, t.pc)) =
    some (0b1000#4, 0x1008#32) := by
  decide
-- R120, row `BGT not taken Z=1`
theorem test_bgt_1 : seen (run1 0xDC02
    (boot 0x1000#32 0b0100#4 [] [] 0x0 0))
    (fun t => (nzcv t, t.pc)) =
    some (0b0100#4, 0x1002#32) := by
  decide
-- R120, row `BLE taken Z=1`
theorem test_ble_1 : seen (run1 0xDD02
    (boot 0x1000#32 0b0100#4 [] [] 0x0 0))
    (fun t => (nzcv t, t.pc)) =
    some (0b0100#4, 0x1008#32) := by
  decide
-- R121, row `B . (to itself)`
theorem test_b_1 : seen (run1 0xE7FE
    (boot 0x1000#32 0b0000#4 [] [] 0x0 0))
    (fun t => (t.pc)) =
    some (0x1000#32) := by
  decide
-- R121, row `B -2048`
theorem test_b_2 : seen (run1 0xE400
    (boot 0x1000#32 0b0000#4 [] [] 0x0 0))
    (fun t => (t.pc)) =
    some (0x804#32) := by
  decide
-- R122, row `BL prefix alone`
theorem test_blPrefix_1 : seen (run1 0xF7FF
    (boot 0x1000#32 0b0000#4 [] [] 0x0 0))
    (fun t => (t.reg 14, t.pc)) =
    some (0x00000004#32, 0x1002#32) := by
  decide
-- R123, row `BL suffix alone, LR even`
theorem test_blSuffix_1 : seen (run1 0xF804
    (boot 0x1000#32 0b0000#4 [(14, 0x00003000#32)] [] 0x0 0))
    (fun t => (t.reg 14, t.pc)) =
    some (0x00001003#32, 0x3008#32) := by
  decide
-- R123, row `BL suffix alone, LR odd`
theorem test_blSuffix_2 : faultOf (run1 0xF804
    (boot 0x1000#32 0b0000#4 [(14, 0x00003001#32)] [] 0x0 0)) = some .unpredictable := by
  decide
-- R124, row `BLX suffix, not ARCH5T`
theorem test_blxSuffix_1 : faultOf (run1 0xE800
    (asV4 (boot 0x1000#32 0b0000#4 [(14, 0x00003000#32)] [] 0x0 0))) = some .undefinedInstruction := by
  decide
-- R125, row `BX lr`
theorem test_bx_1 : seen (run1 0x4770
    (boot 0x1000#32 0b0000#4 [(14, 0x00001235#32)] [] 0x0 0))
    (fun t => (t.pc, t.cpsr.t)) =
    some (0x1234#32, true) := by
  decide
-- R125, row `BX pc at 0x1002`
theorem test_bx_2 : faultOf (run1 0x4778
    (boot 0x1002#32 0b0000#4 [] [] 0x0 0)) = some .unpredictable := by
  decide
-- R126, row `BLX r1 (Thumb)`
theorem test_blxReg_1 : seen (run1 0x4788
    (boot 0x1000#32 0b0000#4 [(1, 0x00002001#32)] [] 0x0 0))
    (fun t => (t.reg 14, t.pc, t.cpsr.t)) =
    some (0x00001003#32, 0x2000#32, true) := by
  decide
-- R126, row `BLX r1 not ARCH5T`
theorem test_blxReg_2 : faultOf (run1 0x4788
    (asV4 (boot 0x1000#32 0b0000#4 [(1, 0x00002001#32)] [] 0x0 0))) = some .undefinedInstruction := by
  decide
-- R140, row `SWI &00 (host WriteC)`
theorem test_swi_1 : seen (run1 0xDF00
    (boot 0x8010#32 0b0000#4 [(0, 0x12345648#32)] [] 0x0 0))
    (fun t => (t.pc, t.output)) =
    some (0x8012#32, [72#8]) := by
  decide
-- R140, row `SWI &11 (host Exit)`
theorem test_swi_2 : seen (run1 0xDF11
    (boot 0x8010#32 0b0000#4 [] [] 0x0 0))
    (fun t => (t.pc, t.ended)) =
    some (0x8010#32, true) := by
  decide
-- R153, row `ADD r0,r1,r2`
theorem test_addReg_1 : seen (run1 0x1888
    (boot 0x1000#32 0b0000#4 [(1, 0xFFFFFFFF#32), (2, 0x00000001#32)] [] 0x0 0))
    (fun t => (t.reg 0, nzcv t, t.pc)) =
    some (0x00000000#32, 0b0110#4, 0x1002#32) := by
  decide
-- R153, row `ADD r0,r1,r2`
theorem test_addReg_2 : seen (run1 0x1888
    (boot 0x1000#32 0b0000#4 [(1, 0x80000000#32), (2, 0x80000000#32)] [] 0x0 0))
    (fun t => (t.reg 0, nzcv t, t.pc)) =
    some (0x00000000#32, 0b0111#4, 0x1002#32) := by
  decide
-- R154, row `SUB r0,r1,r2`
theorem test_subReg_1 : seen (run1 0x1A88
    (boot 0x1000#32 0b0000#4 [(1, 0x00000000#32), (2, 0x00000001#32)] [] 0x0 0))
    (fun t => (t.reg 0, nzcv t, t.pc)) =
    some (0xFFFFFFFF#32, 0b1000#4, 0x1002#32) := by
  decide
-- R154, row `SUB r0,r1,r2`
theorem test_subReg_2 : seen (run1 0x1A88
    (boot 0x1000#32 0b0000#4 [(1, 0x80000000#32), (2, 0x00000001#32)] [] 0x0 0))
    (fun t => (t.reg 0, nzcv t, t.pc)) =
    some (0x7FFFFFFF#32, 0b0011#4, 0x1002#32) := by
  decide
-- R155, row `ADD r3,r4,#7`
theorem test_addImm3_1 : seen (run1 0x1DE3
    (boot 0x1000#32 0b0000#4 [(4, 0xFFFFFFF9#32)] [] 0x0 0))
    (fun t => (t.reg 3, nzcv t, t.pc)) =
    some (0x00000000#32, 0b0110#4, 0x1002#32) := by
  decide
-- R155, row `ADD r0,r1,#0 (MOV r0,r1)`
theorem test_addImm3_2 : seen (run1 0x1C08
    (boot 0x1000#32 0b0111#4 [(1, 0x80000000#32)] [] 0x0 0))
    (fun t => (t.reg 0, nzcv t, t.pc)) =
    some (0x80000000#32, 0b1000#4, 0x1002#32) := by
  decide
-- R156, row `SUB r3,r4,#1`
theorem test_subImm3_1 : seen (run1 0x1E63
    (boot 0x1000#32 0b0000#4 [(4, 0x00000000#32)] [] 0x0 0))
    (fun t => (t.reg 3, nzcv t, t.pc)) =
    some (0xFFFFFFFF#32, 0b1000#4, 0x1002#32) := by
  decide
-- R157, row `MOV r5,#255`
theorem test_movImm8_1 : seen (run1 0x25FF
    (boot 0x1000#32 0b0111#4 [] [] 0x0 0))
    (fun t => (t.reg 5, nzcv t, t.pc)) =
    some (0x000000FF#32, 0b0011#4, 0x1002#32) := by
  decide
-- R158, row `CMP r1,#10`
theorem test_cmpImm8_1 : seen (run1 0x290A
    (boot 0x1000#32 0b0000#4 [(1, 0x00000009#32)] [] 0x0 0))
    (fun t => (nzcv t, t.pc)) =
    some (0b1000#4, 0x1002#32) := by
  decide
-- R159, row `ADD r3,#255`
theorem test_addImm8_1 : seen (run1 0x33FF
    (boot 0x1000#32 0b0000#4 [(3, 0x7FFFFF01#32)] [] 0x0 0))
    (fun t => (t.reg 3, nzcv t, t.pc)) =
    some (0x80000000#32, 0b1001#4, 0x1002#32) := by
  decide
-- R160, row `SUB r2,#1`
theorem test_subImm8_1 : seen (run1 0x3A01
    (boot 0x1000#32 0b0000#4 [(2, 0x80000000#32)] [] 0x0 0))
    (fun t => (t.reg 2, nzcv t, t.pc)) =
    some (0x7FFFFFFF#32, 0b0011#4, 0x1002#32) := by
  decide
-- R161, row `LSL r0,r1,#1`
theorem test_lslImm_1 : seen (run1 0x0048
    (boot 0x1000#32 0b0001#4 [(1, 0xC0000001#32)] [] 0x0 0))
    (fun t => (t.reg 0, nzcv t, t.pc)) =
    some (0x80000002#32, 0b1011#4, 0x1002#32) := by
  decide
-- R161, row `LSL r0,r1,#0`
theorem test_lslImm_2 : seen (run1 0x0008
    (boot 0x1000#32 0b0011#4 [(1, 0x80000000#32)] [] 0x0 0))
    (fun t => (t.reg 0, nzcv t, t.pc)) =
    some (0x80000000#32, 0b1011#4, 0x1002#32) := by
  decide
-- R162, row `LSR r0,r1,#1`
theorem test_lsrImm_1 : seen (run1 0x0848
    (boot 0x1000#32 0b0000#4 [(1, 0x80000001#32)] [] 0x0 0))
    (fun t => (t.reg 0, nzcv t, t.pc)) =
    some (0x40000000#32, 0b0010#4, 0x1002#32) := by
  decide
-- R162, row `LSR r0,r1,#32 (sh=0)`
theorem test_lsrImm_2 : seen (run1 0x0808
    (boot 0x1000#32 0b0000#4 [(1, 0x80000000#32)] [] 0x0 0))
    (fun t => (t.reg 0, nzcv t, t.pc)) =
    some (0x00000000#32, 0b0110#4, 0x1002#32) := by
  decide
-- R163, row `ASR r0,r1,#4`
theorem test_asrImm_1 : seen (run1 0x1108
    (boot 0x1000#32 0b0000#4 [(1, 0x80000008#32)] [] 0x0 0))
    (fun t => (t.reg 0, nzcv t, t.pc)) =
    some (0xF8000000#32, 0b1010#4, 0x1002#32) := by
  decide
-- R163, row `ASR r0,r1,#32 (sh=0)`
theorem test_asrImm_2 : seen (run1 0x1008
    (boot 0x1000#32 0b0000#4 [(1, 0x80000000#32)] [] 0x0 0))
    (fun t => (t.reg 0, nzcv t, t.pc)) =
    some (0xFFFFFFFF#32, 0b1010#4, 0x1002#32) := by
  decide
-- R164, row `AND r0,r1`
theorem test_andReg_1 : seen (run1 0x4008
    (boot 0x1000#32 0b0011#4 [(0, 0xF0F0F0F0#32), (1, 0x0FF00FF0#32)] [] 0x0 0))
    (fun t => (t.reg 0, nzcv t, t.pc)) =
    some (0x00F000F0#32, 0b0011#4, 0x1002#32) := by
  decide
-- R165, row `EOR r0,r1`
theorem test_eorReg_1 : seen (run1 0x4048
    (boot 0x1000#32 0b0000#4 [(0, 0xFFFF0000#32), (1, 0x7FFFFFFF#32)] [] 0x0 0))
    (fun t => (t.reg 0, nzcv t, t.pc)) =
    some (0x8000FFFF#32, 0b1000#4, 0x1002#32) := by
  decide
-- R166, row `LSL r0,r1 (by 0)`
theorem test_lslReg_1 : seen (run1 0x4088
    (boot 0x1000#32 0b0010#4 [(0, 0x80000001#32), (1, 0x00000100#32)] [] 0x0 0))
    (fun t => (nzcv t, t.pc)) =
    some (0b1010#4, 0x1002#32) := by
  decide
-- R166, row `LSL r0,r1 (by 32)`
theorem test_lslReg_2 : seen (run1 0x4088
    (boot 0x1000#32 0b0000#4 [(0, 0x00000001#32), (1, 0x00000020#32)] [] 0x0 0))
    (fun t => (t.reg 0, nzcv t, t.pc)) =
    some (0x00000000#32, 0b0110#4, 0x1002#32) := by
  decide
-- R167, row `LSR r0,r1 (by 32)`
theorem test_lsrReg_1 : seen (run1 0x40C8
    (boot 0x1000#32 0b0000#4 [(0, 0x80000000#32), (1, 0x00000020#32)] [] 0x0 0))
    (fun t => (t.reg 0, nzcv t, t.pc)) =
    some (0x00000000#32, 0b0110#4, 0x1002#32) := by
  decide
-- R167, row `LSR r0,r1 (by 255)`
theorem test_lsrReg_2 : seen (run1 0x40C8
    (boot 0x1000#32 0b0010#4 [(0, 0xFFFFFFFF#32), (1, 0x000000FF#32)] [] 0x0 0))
    (fun t => (t.reg 0, nzcv t, t.pc)) =
    some (0x00000000#32, 0b0100#4, 0x1002#32) := by
  decide
-- R168, row `ASR r0,r1 (by 40)`
theorem test_asrReg_1 : seen (run1 0x4108
    (boot 0x1000#32 0b0000#4 [(0, 0x80000000#32), (1, 0x00000028#32)] [] 0x0 0))
    (fun t => (t.reg 0, nzcv t, t.pc)) =
    some (0xFFFFFFFF#32, 0b1010#4, 0x1002#32) := by
  decide
-- R169, row `ADC r0,r1`
theorem test_adcReg_1 : seen (run1 0x4148
    (boot 0x1000#32 0b0010#4 [(0, 0xFFFFFFFF#32), (1, 0x00000000#32)] [] 0x0 0))
    (fun t => (t.reg 0, nzcv t, t.pc)) =
    some (0x00000000#32, 0b0110#4, 0x1002#32) := by
  decide
-- R169, row `ADC r0,r1`
theorem test_adcReg_2 : seen (run1 0x4148
    (boot 0x1000#32 0b0010#4 [(0, 0x7FFFFFFF#32), (1, 0x00000000#32)] [] 0x0 0))
    (fun t => (t.reg 0, nzcv t, t.pc)) =
    some (0x80000000#32, 0b1001#4, 0x1002#32) := by
  decide
-- R170, row `SBC r0,r1`
theorem test_sbcReg_1 : seen (run1 0x4188
    (boot 0x1000#32 0b0000#4 [(0, 0x00000005#32), (1, 0x00000005#32)] [] 0x0 0))
    (fun t => (t.reg 0, nzcv t, t.pc)) =
    some (0xFFFFFFFF#32, 0b1000#4, 0x1002#32) := by
  decide
-- R170, row `SBC r0,r1`
theorem test_sbcReg_2 : seen (run1 0x4188
    (boot 0x1000#32 0b0000#4 [(0, 0x80000000#32), (1, 0x00000000#32)] [] 0x0 0))
    (fun t => (t.reg 0, nzcv t, t.pc)) =
    some (0x7FFFFFFF#32, 0b0011#4, 0x1002#32) := by
  decide
-- R171, row `ROR r0,r1 (by 4)`
theorem test_rorReg_1 : seen (run1 0x41C8
    (boot 0x1000#32 0b0000#4 [(0, 0x0000000F#32), (1, 0x00000004#32)] [] 0x0 0))
    (fun t => (t.reg 0, nzcv t, t.pc)) =
    some (0xF0000000#32, 0b1010#4, 0x1002#32) := by
  decide
-- R171, row `ROR r0,r1 (by 32)`
theorem test_rorReg_2 : seen (run1 0x41C8
    (boot 0x1000#32 0b0000#4 [(0, 0x80000001#32), (1, 0x00000020#32)] [] 0x0 0))
    (fun t => (nzcv t, t.pc)) =
    some (0b1010#4, 0x1002#32) := by
  decide
-- R172, row `TST r0,r1`
theorem test_tstReg_1 : seen (run1 0x4208
    (boot 0x1000#32 0b0011#4 [(0, 0x80000000#32), (1, 0x80000000#32)] [] 0x0 0))
    (fun t => (nzcv t, t.pc)) =
    some (0b1011#4, 0x1002#32) := by
  decide
-- R173, row `NEG r0,r1`
theorem test_negReg_1 : seen (run1 0x4248
    (boot 0x1000#32 0b0000#4 [(1, 0x80000000#32)] [] 0x0 0))
    (fun t => (t.reg 0, nzcv t, t.pc)) =
    some (0x80000000#32, 0b1001#4, 0x1002#32) := by
  decide
-- R174, row `CMP r0,r1`
theorem test_cmpReg_1 : seen (run1 0x4288
    (boot 0x1000#32 0b0000#4 [(0, 0x00000003#32), (1, 0x00000005#32)] [] 0x0 0))
    (fun t => (nzcv t, t.pc)) =
    some (0b1000#4, 0x1002#32) := by
  decide
-- R175, row `CMN r0,r1`
theorem test_cmnReg_1 : seen (run1 0x42C8
    (boot 0x1000#32 0b0000#4 [(0, 0x7FFFFFFF#32), (1, 0x00000001#32)] [] 0x0 0))
    (fun t => (nzcv t, t.pc)) =
    some (0b1001#4, 0x1002#32) := by
  decide
-- R176, row `ORR r0,r1`
theorem test_orrReg_1 : seen (run1 0x4308
    (boot 0x1000#32 0b0011#4 [(0, 0x80000000#32), (1, 0x00000001#32)] [] 0x0 0))
    (fun t => (t.reg 0, nzcv t, t.pc)) =
    some (0x80000001#32, 0b1011#4, 0x1002#32) := by
  decide
-- R177, row `MUL r0,r1 (ARCH5T)`
theorem test_mulReg_1 : seen (run1 0x4348
    (boot 0x1000#32 0b0011#4 [(0, 0x00010000#32), (1, 0x00010000#32)] [] 0x0 0))
    (fun t => (t.reg 0, nzcv t, t.pc)) =
    some (0x00000000#32, 0b0111#4, 0x1002#32) := by
  decide
-- R178, row `BIC r0,r1`
theorem test_bicReg_1 : seen (run1 0x4388
    (boot 0x1000#32 0b0011#4 [(0, 0xFFFFFFFF#32), (1, 0x0000FFFF#32)] [] 0x0 0))
    (fun t => (t.reg 0, nzcv t, t.pc)) =
    some (0xFFFF0000#32, 0b1011#4, 0x1002#32) := by
  decide
-- R179, row `MVN r0,r1`
theorem test_mvnReg_1 : seen (run1 0x43C8
    (boot 0x1000#32 0b0011#4 [(1, 0xFFFFFFFF#32)] [] 0x0 0))
    (fun t => (t.reg 0, nzcv t, t.pc)) =
    some (0x00000000#32, 0b0111#4, 0x1002#32) := by
  decide
-- R181, row `ADD r0,pc`
theorem test_addHi_1 : seen (run1 0x4478
    (boot 0x1002#32 0b0000#4 [(0, 0x00000010#32)] [] 0x0 0))
    (fun t => (t.reg 0, nzcv t, t.pc)) =
    some (0x00001016#32, 0b0000#4, 0x1004#32) := by
  decide
-- R181, row `ADD pc,r0`
theorem test_addHi_2 : seen (run1 0x4487
    (boot 0x1000#32 0b0000#4 [(0, 0x00000011#32)] [] 0x0 0))
    (fun t => (nzcv t, t.pc)) =
    some (0b0000#4, 0x1014#32) := by
  decide
-- R182, row `CMP r0,r8`
theorem test_cmpHi_1 : seen (run1 0x4540
    (boot 0x1000#32 0b0000#4 [(0, 0x00000005#32), (8, 0x00000005#32)] [] 0x0 0))
    (fun t => (nzcv t, t.pc)) =
    some (0b0110#4, 0x1002#32) := by
  decide
-- R182, row `CMP pc,r0`
theorem test_cmpHi_2 : faultOf (run1 0x4587
    (boot 0x1000#32 0b0000#4 [(0, 0x00000006#32)] [] 0x0 0)) = some .unpredictable := by
  decide
-- R183, row `MOV r0,r8`
theorem test_movHi_1 : seen (run1 0x4640
    (boot 0x1000#32 0b0111#4 [(8, 0x80000000#32)] [] 0x0 0))
    (fun t => (t.reg 0, nzcv t, t.pc)) =
    some (0x80000000#32, 0b0111#4, 0x1002#32) := by
  decide
-- R183, row `MOV pc,lr`
theorem test_movHi_2 : seen (run1 0x46F7
    (boot 0x1000#32 0b0000#4 [(14, 0x00002001#32)] [] 0x0 0))
    (fun t => (nzcv t, t.pc)) =
    some (0b0000#4, 0x2000#32) := by
  decide
-- R184, row `ADD r1,PC,#8`
theorem test_addRdPc_1 : seen (run1 0xA102
    (boot 0x1002#32 0b0000#4 [] [] 0x0 0))
    (fun t => (t.reg 1, t.pc)) =
    some (0x0000100C#32, 0x1004#32) := by
  decide
-- R185, row `ADD r0,SP,#1020`
theorem test_addRdSp_1 : seen (run1 0xA8FF
    (boot 0x1000#32 0b0000#4 [(13, 0xFFFFFFFC#32)] [] 0x0 0))
    (fun t => (t.reg 0, t.pc)) =
    some (0x000003F8#32, 0x1002#32) := by
  decide
-- R186, row `ADD SP,SP,#8`
theorem test_addSp_1 : seen (run1 0xB002
    (boot 0x1000#32 0b1111#4 [(13, 0x00007FF8#32)] [] 0x0 0))
    (fun t => (t.reg 13, nzcv t, t.pc)) =
    some (0x00008000#32, 0b1111#4, 0x1002#32) := by
  decide
-- R187, row `SUB SP,SP,#4`
theorem test_subSp_1 : seen (run1 0xB081
    (boot 0x1000#32 0b0000#4 [(13, 0x00000000#32)] [] 0x0 0))
    (fun t => (t.reg 13, t.pc)) =
    some (0xFFFFFFFC#32, 0x1002#32) := by
  decide
-- R202, row `LDR r0,[r1,#4] BIGEND`
theorem test_ldrImm_1 : seen (run1 0x6848
    (asBig (boot 0x1000#32 0b0000#4 [(1, 0x00002000#32)] data2000 0x2000 12)))
    (fun t => (t.reg 0, t.pc)) =
    some (0xF0DEBC9A#32, 0x1002#32) := by
  decide
-- R202, row `LDR r0,[r1,#124]`
theorem test_ldrImm_2 : seen (run1 0x6FC8
    (boot 0x1000#32 0b0000#4 [(1, 0x00001F8C#32)] data2000 0x2000 12))
    (fun t => (t.reg 0, t.pc)) =
    some (0x007FFF80#32, 0x1002#32) := by
  decide
-- R201, row `STR r0,[r1,#4] BIGEND`
theorem test_strImm_1 : seen (run1 0x6048
    (asBig (boot 0x1000#32 0b0000#4 [(0, 0xCAFEBABE#32), (1, 0x00002000#32)] data2000 0x2000 12)))
    (fun t => ([t.byteAt 0x2004, t.byteAt 0x2005, t.byteAt 0x2006, t.byteAt 0x2007], t.pc)) =
    some ([0xca#8, 0xfe#8, 0xba#8, 0xbe#8], 0x1002#32) := by
  decide
-- R201, row `STR r1,[r1,#0]`
theorem test_strImm_2 : seen (run1 0x6009
    (boot 0x1000#32 0b0000#4 [(1, 0x00002000#32)] data2000 0x2000 12))
    (fun t => ([t.byteAt 0x2000, t.byteAt 0x2001, t.byteAt 0x2002, t.byteAt 0x2003], t.pc)) =
    some ([0x0#8, 0x20#8, 0x0#8, 0x0#8], 0x1002#32) := by
  decide
-- R204, row `LDRB r0,[r1,#5]`
theorem test_ldrbImm_1 : seen (run1 0x7948
    (boot 0x1000#32 0b0000#4 [(1, 0x00002000#32)] data2000 0x2000 12))
    (fun t => (t.reg 0, t.pc)) =
    some (0x000000DE#32, 0x1002#32) := by
  decide
-- R203, row `STRB r0,[r1,#3]`
theorem test_strbImm_1 : seen (run1 0x70C8
    (boot 0x1000#32 0b0000#4 [(0, 0x123456AB#32), (1, 0x00002000#32)] data2000 0x2000 12))
    (fun t => ([t.byteAt 0x2003], t.pc)) =
    some ([0xab#8], 0x1002#32) := by
  decide
-- R206, row `LDRH r0,[r1,#6]`
theorem test_ldrhImm_1 : seen (run1 0x88C8
    (boot 0x1000#32 0b0000#4 [(1, 0x00002000#32)] data2000 0x2000 12))
    (fun t => (t.reg 0, t.pc)) =
    some (0x00009ABC#32, 0x1002#32) := by
  decide
-- R206, row `LDRH r0,[r1,#0] misaligned`
theorem test_ldrhImm_2 : faultOf (run1 0x8808
    (boot 0x1000#32 0b0000#4 [(1, 0x00002001#32)] data2000 0x2000 12)) = some .misaligned := by
  decide
-- R205, row `STRH r0,[r1,#2]`
theorem test_strhImm_1 : seen (run1 0x8048
    (boot 0x1000#32 0b0000#4 [(0, 0xFFFFBEEF#32), (1, 0x00002000#32)] data2000 0x2000 12))
    (fun t => ([t.byteAt 0x2002, t.byteAt 0x2003], t.pc)) =
    some ([0xef#8, 0xbe#8], 0x1002#32) := by
  decide
-- R207, row `STR r0,[r1,r2]`
theorem test_strReg_1 : seen (run1 0x5088
    (boot 0x1000#32 0b0000#4 [(0, 0x11223344#32), (1, 0x00002000#32), (2, 0x00000008#32)] data2000 0x2000 12))
    (fun t => ([t.byteAt 0x2008, t.byteAt 0x2009, t.byteAt 0x200a, t.byteAt 0x200b], t.pc)) =
    some ([0x44#8, 0x33#8, 0x22#8, 0x11#8], 0x1002#32) := by
  decide
-- R208, row `STRH r0,[r1,r2]`
theorem test_strhReg_1 : seen (run1 0x5288
    (boot 0x1000#32 0b0000#4 [(0, 0x11223344#32), (1, 0x00002000#32), (2, 0x00000008#32)] data2000 0x2000 12))
    (fun t => ([t.byteAt 0x2008, t.byteAt 0x2009], t.pc)) =
    some ([0x44#8, 0x33#8], 0x1002#32) := by
  decide
-- R209, row `STRB r0,[r1,r2]`
theorem test_strbReg_1 : seen (run1 0x5488
    (boot 0x1000#32 0b0000#4 [(0, 0x11223344#32), (1, 0x00002000#32), (2, 0x00000009#32)] data2000 0x2000 12))
    (fun t => ([t.byteAt 0x2009], t.pc)) =
    some ([0x44#8], 0x1002#32) := by
  decide
-- R210, row `LDRSB r0,[r1,r2]`
theorem test_ldrsbReg_1 : seen (run1 0x5688
    (boot 0x1000#32 0b0000#4 [(1, 0x00002000#32), (2, 0x00000008#32)] data2000 0x2000 12))
    (fun t => (t.reg 0, t.pc)) =
    some (0xFFFFFF80#32, 0x1002#32) := by
  decide
-- R211, row `LDR r0,[r1,r2]`
theorem test_ldrReg_1 : seen (run1 0x5888
    (boot 0x1000#32 0b0000#4 [(1, 0x00002004#32), (2, 0xFFFFFFFC#32)] data2000 0x2000 12))
    (fun t => (t.reg 0, t.pc)) =
    some (0x12345678#32, 0x1002#32) := by
  decide
-- R211, row `LDR r0,[r1,r2] misaligned`
theorem test_ldrReg_2 : faultOf (run1 0x5888
    (boot 0x1000#32 0b0000#4 [(1, 0x00002000#32), (2, 0x00000001#32)] data2000 0x2000 12)) = some .misaligned := by
  decide
-- R212, row `LDRH r0,[r1,r2]`
theorem test_ldrhReg_1 : seen (run1 0x5A88
    (boot 0x1000#32 0b0000#4 [(1, 0x00002000#32), (2, 0x00000008#32)] data2000 0x2000 12))
    (fun t => (t.reg 0, t.pc)) =
    some (0x0000FF80#32, 0x1002#32) := by
  decide
-- R213, row `LDRB r0,[r1,r2]`
theorem test_ldrbReg_1 : seen (run1 0x5C88
    (boot 0x1000#32 0b0000#4 [(1, 0x00002000#32), (2, 0x00000008#32)] data2000 0x2000 12))
    (fun t => (t.reg 0, t.pc)) =
    some (0x00000080#32, 0x1002#32) := by
  decide
-- R214, row `LDRSH r0,[r1,r2]`
theorem test_ldrshReg_1 : seen (run1 0x5E88
    (boot 0x1000#32 0b0000#4 [(1, 0x00002000#32), (2, 0x00000008#32)] data2000 0x2000 12))
    (fun t => (t.reg 0, t.pc)) =
    some (0xFFFFFF80#32, 0x1002#32) := by
  decide
-- R214, row `LDRSH r0,[r1,r2] BIGEND`
theorem test_ldrshReg_2 : seen (run1 0x5E88
    (asBig (boot 0x1000#32 0b0000#4 [(1, 0x00002000#32), (2, 0x00000008#32)] data2000 0x2000 12)))
    (fun t => (t.reg 0, t.pc)) =
    some (0xFFFF80FF#32, 0x1002#32) := by
  decide
-- R216, row `LDR r3,[PC,#8]`
theorem test_ldrPc_1 : seen (run1 0x4B02
    (boot 0x1002#32 0b0000#4 [] [(0x100c, 0xef#8), (0x100d, 0xbe#8), (0x100e, 0xad#8), (0x100f, 0xde#8)] 0x100c 4))
    (fun t => (t.reg 3, t.pc)) =
    some (0xDEADBEEF#32, 0x1004#32) := by
  decide
-- R217, row `STR r0,[SP,#4]`
theorem test_strSp_1 : seen (run1 0x9001
    (boot 0x1000#32 0b0000#4 [(0, 0xAABBCCDD#32), (13, 0x00007FF0#32)] [(0x7ff0, 0x1#8), (0x7ff4, 0x2#8), (0x7ff8, 0x3#8), (0x7ffc, 0x4#8)] 0x7ff0 16))
    (fun t => ([t.byteAt 0x7ff4, t.byteAt 0x7ff5, t.byteAt 0x7ff6, t.byteAt 0x7ff7], t.pc)) =
    some ([0xdd#8, 0xcc#8, 0xbb#8, 0xaa#8], 0x1002#32) := by
  decide
-- R218, row `LDR r0,[SP,#8]`
theorem test_ldrSp_1 : seen (run1 0x9802
    (boot 0x1000#32 0b0000#4 [(13, 0x00007FF0#32)] [(0x7ff0, 0x1#8), (0x7ff4, 0x2#8), (0x7ff8, 0x3#8), (0x7ffc, 0x4#8)] 0x7ff0 16))
    (fun t => (t.reg 0, t.pc)) =
    some (0x00000003#32, 0x1002#32) := by
  decide
-- R218, row `LDR r0,[SP,#0] SP misaligned`
theorem test_ldrSp_2 : faultOf (run1 0x9800
    (boot 0x1000#32 0b0000#4 [(13, 0x00007FF2#32)] [(0x7ff0, 0x1#8), (0x7ff4, 0x2#8), (0x7ff8, 0x3#8), (0x7ffc, 0x4#8)] 0x7ff0 16)) = some .misaligned := by
  decide
-- R231, row `LDMIA r0!,r0,r1`
theorem test_ldmia_1 : seen (run1 0xC803
    (boot 0x1000#32 0b0000#4 [(0, 0x00002004#32)] [(0x2000, 0x1#8), (0x2004, 0x2#8), (0x2008, 0x3#8), (0x200c, 0x4#8)] 0x2000 16))
    (fun t => (t.reg 0, t.reg 1, t.pc)) =
    some (0x00000002#32, 0x00000003#32, 0x1002#32) := by
  decide
-- R231, row `LDMIA r0!,r1-r3 runs off`
theorem test_ldmia_2 : faultOf (run1 0xC80E
    (boot 0x1000#32 0b0000#4 [(0, 0x00002008#32)] [(0x2000, 0x1#8), (0x2004, 0x2#8), (0x2008, 0x3#8), (0x200c, 0x4#8)] 0x2000 16)) = some .notAdmitted := by
  decide
-- R232, row `STMIA r0!,r0,r1`
theorem test_stmia_1 : seen (run1 0xC003
    (boot 0x1000#32 0b0000#4 [(0, 0x00002000#32), (1, 0x000000A1#32)] [(0x2000, 0x1#8), (0x2004, 0x2#8), (0x2008, 0x3#8), (0x200c, 0x4#8)] 0x2000 16))
    (fun t => (t.reg 0, [t.byteAt 0x2000, t.byteAt 0x2001, t.byteAt 0x2002, t.byteAt 0x2003, t.byteAt 0x2004], t.pc)) =
    some (0x00002008#32, [0x0#8, 0x20#8, 0x0#8, 0x0#8, 0xa1#8], 0x1002#32) := by
  decide
-- R232, row `STMIA r1!,r0,r1`
theorem test_stmia_2 : faultOf (run1 0xC103
    (boot 0x1000#32 0b0000#4 [(0, 0x000000A0#32), (1, 0x00002000#32)] [(0x2000, 0x1#8), (0x2004, 0x2#8), (0x2008, 0x3#8), (0x200c, 0x4#8)] 0x2000 16)) = some .unpredictable := by
  decide
-- R233, row `PUSH r4,r5,lr`
theorem test_push_1 : seen (run1 0xB530
    (boot 0x1000#32 0b0000#4 [(4, 0x00000044#32), (5, 0x00000055#32), (13, 0x00008000#32), (14, 0x00001235#32)] [] 0x7ff0 16))
    (fun t => (t.reg 13, [t.byteAt 0x7ff4, t.byteAt 0x7ff5, t.byteAt 0x7ff6, t.byteAt 0x7ff7, t.byteAt 0x7ff8, t.byteAt 0x7ff9, t.byteAt 0x7ffa, t.byteAt 0x7ffb, t.byteAt 0x7ffc, t.byteAt 0x7ffd], t.pc)) =
    some (0x00007FF4#32, [0x44#8, 0x0#8, 0x0#8, 0x0#8, 0x55#8, 0x0#8, 0x0#8, 0x0#8, 0x35#8, 0x12#8], 0x1002#32) := by
  decide
-- R233, row `PUSH r0 SP=0x7FF0 (below admitted)`
theorem test_push_2 : faultOf (run1 0xB401
    (boot 0x1000#32 0b0000#4 [(0, 0x00000001#32), (13, 0x00007FF0#32)] [] 0x7ff0 16)) = some .notAdmitted := by
  decide
-- R234, row `POP r4,r5,pc`
theorem test_pop_1 : seen (run1 0xBD30
    (boot 0x1000#32 0b0000#4 [(13, 0x00007FF4#32)] [(0x7ff4, 0x44#8), (0x7ff8, 0x55#8), (0x7ffc, 0x35#8), (0x7ffd, 0x12#8)] 0x7ff4 12))
    (fun t => (t.reg 4, t.reg 5, t.reg 13, t.pc, t.cpsr.t)) =
    some (0x00000044#32, 0x00000055#32, 0x00008000#32, 0x1234#32, true) := by
  decide
-- R234, row `POP r4,r5,pc bit0=0`
theorem test_pop_2 : seen (run1 0xBD30
    (boot 0x1000#32 0b0000#4 [(13, 0x00007FF4#32)] [(0x7ff4, 0x44#8), (0x7ff8, 0x55#8), (0x7ffc, 0x34#8), (0x7ffd, 0x12#8)] 0x7ff4 12))
    (fun t => (t.reg 4, t.reg 5, t.reg 13, t.pc, t.cpsr.t)) =
    some (0x00000044#32, 0x00000055#32, 0x00008000#32, 0x1234#32, false) := by
  decide
-- R124, the example of the rule: the mask applies to the sum
theorem test_blxSuffix_2 : seen (run1 0xEFFC
    (boot 0x1004#32 0b0000#4 [(14, 0x1006#32)] [] 0 0))
    (fun t => (t.lr, t.pc, t.cpsr.t)) = some (0x1007#32, 0x1FFC#32, false) := by
  decide
-- R140, row `SWI &AB (host has no entry)`: the entry writes r14_svc, SPSR_svc and the CPSR
theorem test_swi_entry : seen (run1 0xDFAB (boot 0x8010#32 0b0110#4 [] [] 0 0))
    (fun t => (t.bankReg .supervisor 14, t.spsrSvc.toWord, t.cpsr.toWord, t.pc)) =
    some (0x8012#32, 0x60000030#32, 0x60000093#32, 0x8#32) := by
  decide

/-! ### Witnesses: a state and operands that meet the hypotheses of each statement -/

/-- User mode, Thumb state, pc = 0x1000; 0x2000 to 0x203F admitted for reading and writing. -/
def wit : State := boot 0x1000#32 0b0000#4 [(1, 0x2000#32), (2, 0x3C#32)] [] 0x2000 0x40

/-- `wit` about to run a half-word. -/
def ready (w : Nat) : State := wit.withFetchWord 16 w

/-- A state with one level of the interrupt inputs to come. -/
def withLines (s : State) (irq fiq : Bool) : State := { s with lines := [⟨irq, fiq⟩] }

/-- A state with the masks I and F. -/
def masked (s : State) (i f : Bool) : State := { s with cpsr := { s.cpsr with i := i, f := f } }

/-- A state at another pc. -/
def atPc (s : State) (pc : Word) : State := { s with pc := pc }

theorem test_witness_UndefinedEncodingsFault :
    (ready 0xB100).Running ∧ (ready 0xB100).params.undefTraps = false ∧
    (ready 0xB100).Fetches 0xB100#16 ∧ (asV4 (ready 0x4780)).Running ∧
    (asV4 (ready 0x4780)).Fetches 0x4780#16 := by
  unfold State.Running State.Fetches; decide

/-- The first and the last half-word of each group of R106, and the half-words beside them. -/
theorem test_witness_UndefinedHalf :
    UndefinedHalf true 0xB100#16 ∧ UndefinedHalf true 0xBFFF#16 ∧ UndefinedHalf true 0xDE00#16 ∧
    UndefinedHalf true 0xDEFF#16 ∧ UndefinedHalf true 0xE801#16 ∧ UndefinedHalf true 0xEFFF#16 := by
  unfold UndefinedHalf; decide

theorem test_witness_UndefinedHalf_v4 :
    UndefinedHalf false 0xE800#16 ∧ UndefinedHalf false 0x4780#16 ∧ UndefinedHalf false 0x47FF#16 ∧
    ¬UndefinedHalf true 0xE800#16 ∧ ¬UndefinedHalf true 0x4780#16 := by
  unfold UndefinedHalf; decide

theorem test_witness_UndefinedHalf_not :
    ¬UndefinedHalf true 0xB0FF#16 ∧ ¬UndefinedHalf true 0xB400#16 ∧ ¬UndefinedHalf true 0xBDFF#16 ∧
    ¬UndefinedHalf true 0xDF00#16 ∧ ¬UndefinedHalf true 0xDDFF#16 := by
  unfold UndefinedHalf; decide

theorem test_witness_UndefinedTrapEntry :
    let s : State := { ready 0xDE00 with params := { (ready 0xDE00).params with undefTraps := true } }
    s.Running ∧ s.params.undefTraps = true ∧ s.Fetches 0xDE00#16 ∧
      UndefinedHalf s.params.arch5t 0xDE00#16 ∧ completes (step s) = true := by
  unfold State.Running State.Fetches UndefinedHalf; decide

theorem test_witness_StepRunsDecoded :
    (ready 0x1888).Running ∧ (ready 0x1888).Fetches 0x1888#16 ∧
      decode 0x1888#16 = .ok (.addReg 0 1 2) := by
  unfold State.Running State.Fetches; decide

theorem test_witness_StepRefusedFetch :
    wit.Running ∧ wit.pc.toNat % 2 = 0 ∧ wit.admits .half .fetch wit.pc = false ∧
    wit.params.abortTraps = false ∧ (aborting wit).Running ∧
    (aborting wit).admits .half .fetch wit.pc = false ∧ (aborting wit).params.abortTraps = true := by
  unfold State.Running; decide

theorem test_witness_StepTakesInterrupt :
    wit.ended = false ∧ wit.cpsr.t = true ∧
    ((withLines wit true true).linesNow.fiq = true ∧ (withLines wit true true).cpsr.f = false) ∧
    ((masked (withLines wit true true) false true).cpsr.f = true ∧
      (masked (withLines wit true true) false true).linesNow.irq = true ∧
      (masked (withLines wit true true) false true).cpsr.i = false) ∧
    ((masked (withLines wit true true) true true).cpsr.f = true ∧
      (masked (withLines wit true true) true true).cpsr.i = true) ∧
    (wit.linesNow.fiq = false ∧ wit.linesNow.irq = false) := by
  decide

theorem test_witness_InvariantKept :
    (ready 0x1888).Inv ∧ completes (step (ready 0x1888)) = true := by
  unfold State.Inv State.PcAligned; decide

/-- A launch at address 0 in System mode: r1 and a byte are named twice, the image has a gap at 3, and
the map it names also covers addresses outside the image. -/
def launchSystem : Launch :=
  { entry := 0x0#32, mode := 0b11111#5, i := true, f := false, n := true, z := false, c := true,
    v := false, unused := 0#20, regs := [(1, 0x7#32), (13, 0x2004#32), (1, 0x8#32)],
    image := [(2, 0x11#8), (0, 0x00#8), (1, 0xFF#8), (1, 0xBE#8), (4, 0x22#8)],
    params := Config.resetParams, lines := [] }

theorem test_witness_LaunchState :
    (launch launchSystem).isSome = true ∧
    launch { launchSystem with entry := 0x1#32 } = none ∧
    launch { launchSystem with mode := 0b10100#5 } = none ∧
    launch { launchSystem with mode := 0b00000#5 } = none ∧
    launch { launchSystem with regs := [(13, 0x2002#32)] } = none := by
  decide

theorem test_launch_holds :
    (launch launchSystem).map (fun s => (s.reg 1, s.sp, s.byteAt 1, s.byteAt 2)) =
      some (0x8#32, 0x2004#32, 0xBE#8, 0x11#8) := by
  decide

/-- Bytes outside the image are not admitted (R291): the gap at 3, and what lies above it. -/
theorem test_launch_admits :
    (launch launchSystem).map (fun s => (s.admits .half .read 0#32, s.admits .byte .read 2#32,
      s.admits .half .read 2#32, s.admits .word .read 0#32, s.admits .byte .fetch 4#32,
      s.admits .byte .read 5#32)) = some (true, true, false, false, true, false) := by
  decide

/-- An empty range inside the bytes of a store is no code (R63, R291), a range of one byte is. -/
theorem test_code_empty_range :
    completes (exec (.strImm 0 1 0) (withCode wit 0x2002 0)) = true ∧
    faultOf (exec (.strImm 0 1 0) (withCode wit 0x2002 1)) = some .codeWrite := by
  decide

theorem test_witness_RunConstants : completes (step (ready 0xDF00)) = true := by decide

theorem test_witness_ExceptionReturn :
    (Exception.dataAbort, 0#32) ∈ [(Exception.undefined, 2#32), (.swi, 2#32),
      (.prefetchAbort, 0#32), (.dataAbort, 0#32), (.irq, 0#32), (.fiq, 0#32)] := by
  decide

theorem test_witness_SwiEntry :
    State.reset.params.swiHost = none ∧ ∃ h, wit.params.swiHost = some h ∧
      ∀ e ∈ h, e.1 ≠ 0x10#8 :=
  ⟨by decide, Config.standardHost, by decide, by decide⟩

theorem test_witness_SwiHostActions :
    wit.params.swiHost = some [(0x00#8, .writeC), (0x11#8, .exit)] ∧ wit.pc ≠ 0xFFFFFFFE#32 ∧
    (atPc wit 0xFFFFFFFE#32).params.swiHost = some [(0x00#8, .writeC), (0x11#8, .exit)] ∧
    (0x01#8 ≠ 0x00#8 ∧ 0x01#8 ≠ 0x11#8) ∧ (0x12#8 ≠ 0x00#8 ∧ 0x12#8 ≠ 0x11#8) := by
  decide

theorem test_witness_ThumbStateLeftOnlyBy :
    wit.cpsr.t = true ∧ seen (exec (.bx 1 0) wit) (·.cpsr.t) = some false ∧
    seen (exec (.swi 0x20) wit) (·.cpsr.t) = some false ∧
    seen (exec (.ldrReg 0 2 2) (aborting wit)) (·.cpsr.t) = some false := by
  decide

theorem test_witness_ControlChangesOnlyByException :
    seen (exec (.swi 0x20) wit) (·.cpsr.mode) = some .supervisor ∧
    seen (exec (.ldrReg 0 2 2) (aborting wit)) (·.cpsr.mode) = some .abort ∧
    seen (exec (.addReg 0 1 2) wit) (·.cpsr.mode) = some .user := by
  decide

theorem test_witness_FlagsOnlyByDataProcessing :
    setsFlags (.ldrReg 0 1 2) = false ∧ completes (exec (.ldrReg 0 1 2) wit) = true := by
  decide

theorem test_witness_SequentialAdvance :
    ¬WritesPc (.ldrReg 0 1 2) wit ∧ completes (exec (.ldrReg 0 1 2) wit) = true ∧
    ¬WritesPc (.beq 0) wit ∧ completes (exec (.beq 0) (atPc wit 0xFFFFFFFC#32)) = true ∧
    seen (exec (.ldrReg 0 2 2) (aborting wit)) (·.pc) = some 0x10#32 := by
  unfold WritesPc; decide

/-- What does not write the PC and may complete, at the last half-word of memory (R26). -/
theorem test_witness_SequentialAdvance_top :
    let s := atPc (wit.setLo 0 0x2000#32) 0xFFFFFFFE#32
    s.pc = 0xFFFFFFFE#32 ∧ (¬WritesPc (.beq 0) s ∧ MayComplete (.beq 0) s) ∧
    (¬WritesPc (.swi 0x00) s ∧ MayComplete (.swi 0x00) s) ∧
    (¬WritesPc (.movHi 8 0) s ∧ MayComplete (.movHi 8 0) s) ∧
    (¬WritesPc (.strReg 0 1 2) s ∧ MayComplete (.strReg 0 1 2) s) ∧
    (¬WritesPc (.ldmia 0 0b10) s ∧ MayComplete (.ldmia 0 0b10) s) ∧
    (¬WritesPc (.stmia 0 0b11) s ∧ MayComplete (.stmia 0 0b11) s) ∧
    (¬WritesPc (.pop false 1) (s.setSp 0x203C#32) ∧
      MayComplete (.pop false 1) (s.setSp 0x203C#32)) ∧
    (¬WritesPc (.push true 0) (s.setSp 0x2004#32) ∧
      MayComplete (.push true 0) (s.setSp 0x2004#32)) := by
  unfold WritesPc MayComplete State.allowsWords; decide

theorem test_top_beq : faultOf (exec (.beq 0) (atPc wit 0xFFFFFFFE#32)) = some .pcWrap := by decide

theorem test_witness_OtherBanksKept :
    completes (exec (.addHi 8 1) wit) = true ∧
    (∀ r : RegNum, r ≠ 15#4 → (13 : Fin 30) ≠ slot wit.cpsr.mode r) ∧
    (13 : Fin 30) ≠ slot wit.cpsr.mode 14#4 := by
  decide

theorem test_witness_MemoryOnlyByStores :
    Memory.wf wit.mem ∧ completes (exec (.strReg 1 1 2) (withCode wit 0x2000 0x3C)) = true ∧
    storesMemory (.ldrReg 0 1 2) = false ∧ completes (exec (.ldrReg 0 1 2) wit) = true ∧
    (⟨0x2000, 0x3C⟩ : AddrRange) ∈ (withCode wit 0x2000 0x3C).params.code ∧
    0x2000 ≤ 0x203B ∧ 0x203B < 0x2000 + 0x3C := by
  decide

theorem test_witness_UserAndSystemAgree :
    wit.cpsr.mode = .user ∧ completes (exec (.strReg 1 1 2) wit) = true ∧
    faultOf (exec (.ldrReg 0 2 2) wit) = some .notAdmitted ∧
    completes (exec (.swi 0x20) wit) = true ∧
    seen (exec (.swi 0x20) wit.asSystem) (·.spsrSvc.mode) = some .system := by
  decide

theorem test_witness_ConstrainedFieldsFault :
    ((7#4).getLsbD 3 = false ∧ (0#4).getLsbD 3 = false) ∧ (1#3 ≠ 0#3 ∧ 7#3 ≠ 0#3) ∧
    wit.params.arch5t = true ∧
    ((wit.setLo 3 0x2002#32).reg 3).extractLsb' 0 2 = 0b10#2 ∧
    ((atPc wit 0x1002#32).reg 15).extractLsb' 0 2 = 0b10#2 ∧
    ((0b11#8).getLsbD (1#3).toNat = true ∧ ∃ j < (1#3).toNat, (0b11#8).getLsbD j = true) ∧
    (let s := boot 0x1000#32 0b0000#4 [(13, 0x203C#32)] [(0x203C, 0x36#8), (0x203D, 0x12#8)] 0x2000 0x40
     s.allowsWords .read s.sp (listSize 0#8 + 1) ∧
       ReadsAs s 4 (s.sp.toNat + 4 * listSize 0#8) 0x1236#32 ∧
       (0x1236#32).extractLsb' 0 2 = 0b10#2) ∧
    (wit.setLr 0x3001#32).lr.getLsbD 0 = true := by
  unfold State.allowsWords ReadsAs; decide

theorem test_witness_AddResults : wit.pc ≠ 0xFFFFFFFE#32 ∧
    completes (exec (.addReg 0 1 2) wit) = true := by decide

theorem test_witness_SubResults : (atPc wit 0xFFFFFFFC#32).pc ≠ 0xFFFFFFFE#32 ∧
    completes (exec (.subReg 0 1 2) (atPc wit 0xFFFFFFFC#32)) = true := by decide

theorem test_witness_AdcSbcNegResults : wit.pc ≠ 0xFFFFFFFE#32 ∧
    completes (exec (.adcReg 0 1) wit) = true := by decide

theorem test_witness_CompareAndTestResults : wit.pc ≠ 0xFFFFFFFE#32 ∧
    completes (exec (.tstReg 0 1) wit) = true := by decide

theorem test_witness_LogicalResults : wit.pc ≠ 0xFFFFFFFE#32 ∧
    completes (exec (.mvnReg 0 1) wit) = true := by decide

theorem test_witness_ImmediateShifts : wit.pc ≠ 0xFFFFFFFE#32 ∧ (0#5 = 0#5 ∧ 1#5 ≠ 0#5 ∧ 31#5 ≠ 0#5) ∧
    32 = (if (0#5 : BitVec 5) = 0#5 then 32 else (0#5).toNat) ∧
    1 = (if (1#5 : BitVec 5) = 0#5 then 32 else (1#5).toNat) ∧
    31 = (if (31#5 : BitVec 5) = 0#5 then 32 else (31#5).toNat) := by decide

theorem test_witness_RegisterShifts : wit.pc ≠ 0xFFFFFFFE#32 ∧
    ((wit.setLo 1 0x100#32).lo 1).toNat % 256 = 0 ∧ ((wit.setLo 1 0x1#32).lo 1).toNat % 256 = 1 ∧
    ((wit.setLo 1 0x1F#32).lo 1).toNat % 256 = 31 ∧ ((wit.setLo 1 0x20#32).lo 1).toNat % 256 = 32 ∧
    ((wit.setLo 1 0x21#32).lo 1).toNat % 256 = 33 ∧
    ((wit.setLo 1 0xFFFFFFFF#32).lo 1).toNat % 256 = 255 := by decide

theorem test_witness_RotateResult : wit.pc ≠ 0xFFFFFFFE#32 ∧
    ((wit.setLo 1 0x300#32).lo 1).toNat % 256 = 0 ∧ ((wit.setLo 1 0x20#32).lo 1).toNat % 256 = 32 ∧
    completes (exec (.rorReg 0 1) (wit.setLo 1 0xFF#32)) = true := by decide

theorem test_witness_MultiplyResult : wit.pc ≠ 0xFFFFFFFE#32 ∧ wit.params.arch5t = true ∧
    (asV4 wit).pc ≠ 0xFFFFFFFE#32 ∧ (asV4 wit).params.arch5t = false ∧
    completes (exec (.mulReg 0 1) (asV4 wit)) = true := by decide

theorem test_witness_HiAddMovResults : wit.pc ≠ 0xFFFFFFFE#32 ∧
    ((14#4).getLsbD 3 = true ∧ 14#4 ≠ 15#4) ∧ ((0#4).getLsbD 3 = false ∧ (8#4).getLsbD 3 = true) ∧
    completes (exec (.movHi 14 0) wit) = true ∧ completes (exec (.addHi 15 0) wit) = true ∧
    (7#4).getLsbD 3 = false := by decide

theorem test_witness_HiCompareResult : wit.pc ≠ 0xFFFFFFFE#32 ∧
    ((0#4).getLsbD 3 = false ∧ (15#4).getLsbD 3 = true ∧ 0#4 ≠ 15#4) ∧
    completes (exec (.cmpHi 0 15) wit) = true ∧ (7#4).getLsbD 3 = false := by decide

theorem test_witness_AddressAndStackAdjust : wit.pc ≠ 0xFFFFFFFE#32 ∧
    completes (exec (.subSp 127) wit) = true := by decide

/-- The conditions of R103 on N, Z, C, V. -/
def conditions (n z c v : Bool) : List Bool :=
  [decide (z = true), decide (z = false), decide (c = true), decide (c = false), decide (n = true),
   decide (n = false), decide (v = true), decide (v = false), decide (c = true ∧ z = false),
   decide (c = false ∨ z = true), decide (n = v), decide (n ≠ v), decide (z = false ∧ n = v),
   decide (z = true ∨ n ≠ v)]

/-- Each condition holds on some flags and fails on others. -/
theorem test_witness_ConditionalBranches : wit.pc ≠ 0xFFFFFFFE#32 ∧
    conditions false true true false =
      [true, false, true, false, false, true, false, true, false, true, true, false, false, true] ∧
    conditions true false false true =
      [false, true, false, true, true, false, true, false, false, true, true, false, true, false] ∧
    conditions true false true false =
      [false, true, true, false, true, false, false, true, true, false, false, true, false, true] := by
  decide

theorem test_witness_BranchLinkHalves : wit.pc ≠ 0xFFFFFFFE#32 ∧ wit.lr.getLsbD 0 = false ∧
    (wit.setLr 0x1#32).lr.getLsbD 0 = true := by decide

theorem test_witness_BranchLinkPairs : wit.pc.getLsbD 0 = false ∧ wit.pc ≠ 0xFFFFFFFE#32 ∧
    wit.params.arch5t = true := by decide

theorem test_witness_BlxSuffixResult : wit.params.arch5t = true ∧
    (asV4 wit).params.arch5t = false ∧ (asV4 wit).params.undefTraps = false := by decide

theorem test_witness_BranchExchangeResult : ((wit.setLo 0 0x1#32).reg 0).getLsbD 0 = true ∧
    ((wit.setLo 0 0x4#32).reg 0).extractLsb' 0 2 = 0b00#2 ∧
    ((wit.setLo 0 0x2#32).reg 0).extractLsb' 0 2 = 0b10#2 ∧ 1#3 ≠ 0#3 := by decide

theorem test_witness_BranchLinkExchangeResult : wit.params.arch5t = true ∧ wit.cpsr.t = true ∧
    (14#4 ≠ 15#4 ∧ ((wit.setLr 0x1#32).reg 14).getLsbD 0 = true) ∧
    (0#4 ≠ 15#4 ∧ ((wit.setLo 0 0x4#32).reg 0).extractLsb' 0 2 = 0b00#2) ∧
    ((wit.setLo 0 0x2#32).reg 0).extractLsb' 0 2 = 0b10#2 ∧ 1#3 ≠ 0#3 ∧
    (asV4 wit).params.arch5t = false ∧ (asV4 wit).params.undefTraps = false := by decide

/-- What a single access may meet: performed at the last datum of the region, misaligned by one,
refused just above the region with and without aborts. -/
theorem test_witness_loads : wit.pc ≠ 0xFFFFFFFE#32 ∧
    wit.allows .word .read (wit.lo 1 + wit.lo 2) = true ∧
    wit.allows .half .read (wit.lo 1 + 62#32) = true ∧
    wit.allows .byte .read (wit.lo 1 + 63#32) = true ∧ (0x203D#32).toNat % widthBytes .word ≠ 0 ∧
    (0x203D#32).toNat % widthBytes .half ≠ 0 ∧ (0x2040#32).toNat % widthBytes .word = 0 ∧
    wit.admits .word .read 0x2040#32 = false ∧ wit.admits .byte .read 0x1FFF#32 = false ∧
    wit.params.abortTraps = false ∧ (aborting wit).admits .word .read 0x2040#32 = false ∧
    (aborting wit).params.abortTraps = true := by decide

theorem test_witness_LoadsWithOffset :
    completes (exec (.ldrImm 0 1 15) wit) = true ∧ completes (exec (.ldrhImm 0 1 31) wit) = true ∧
    faultOf (exec (.ldrImm 0 1 16) wit) = some .notAdmitted ∧
    seen (exec (.ldrImm 0 1 16) (aborting wit)) (·.pc) = some 0x10#32 := by decide

theorem test_witness_LoadsIndexed : completes (exec (.ldrReg 0 1 2) wit) = true ∧
    faultOf (exec (.ldrhReg 0 1 2) (wit.setLo 2 1#32)) = some .misaligned := by decide

theorem test_witness_LoadsSigned : completes (exec (.ldrsbReg 0 1 2) (wit.setLo 2 0x3F#32)) = true ∧
    faultOf (exec (.ldrshReg 0 1 2) (wit.setLo 2 0x3F#32)) = some .misaligned := by decide

theorem test_witness_LoadsPcAndSp :
    (atPc wit 0x1FFC#32).allows .word .read ((((0x1FFC#32) + 4#32) &&& 0xFFFFFFFC#32) + 0#32) = true ∧
    completes (exec (.ldrPc 0 0) (atPc wit 0x1FFC#32)) = true ∧
    completes (exec (.ldrSp 0 0) (wit.setSp 0x203C#32)) = true ∧
    faultOf (exec (.ldrSp 0 0) (wit.setSp 0x203E#32)) = some .misaligned := by decide

theorem test_witness_StoresWithOffset : Memory.wf wit.mem ∧ wit.pc ≠ 0xFFFFFFFE#32 ∧
    wit.allows .word .write (wit.lo 1 + 60#32) = true ∧
    wit.allows .byte .write (wit.lo 1 + 31#32) = true ∧
    completes (exec (.strImm 0 1 15) wit) = true ∧
    (withCode wit 0x2003 1).inCode .word 0x2000#32 = true ∧
    faultOf (exec (.strImm 0 1 0) (withCode wit 0x2003 1)) = some .codeWrite ∧
    faultOf (exec (.strImm 0 1 16) wit) = some .notAdmitted ∧
    seen (exec (.strImm 0 1 16) (aborting wit)) (·.pc) = some 0x10#32 := by decide

theorem test_witness_StoresIndexedAndSp : Memory.wf wit.mem ∧
    completes (exec (.strhReg 0 1 2) wit) = true ∧ completes (exec (.strbReg 0 1 2) wit) = true ∧
    completes (exec (.strSp 0 15) (wit.setSp 0x2000#32)) = true ∧
    faultOf (exec (.strReg 0 1 2) (wit.setLo 2 2#32)) = some .misaligned := by decide

theorem test_witness_ReadAfterWrite : Memory.wf wit.mem ∧
    (memWrite .half 0x203E#32 0xFFFFBEEF#32 wit).isOk = true ∧
    (wit.store .half 0x203E#32 0xFFFFBEEF#32).admits .half .read 0x203E#32 = true := by decide

/-- What a transfer of words may meet: the last three words of the region, the word above it, a
misaligned start, and a range that reaches the top of memory. -/
theorem test_witness_transfers :
    wit.allowsWords .read 0x2034#32 3 ∧ wit.allowsWords .write 0x2034#32 3 ∧
    (∀ j < 1, wit.allows .word .read (wordAddr 0x203C#32 j) = true) ∧
    wit.admits .word .read (wordAddr 0x203C#32 1) = false ∧
    (withCode wit 0x203C 4).inCode .word (wordAddr 0x2038#32 1) = true ∧
    (∀ j < 1, (withCode wit 0x203C 4).allows .word .write (wordAddr 0x2038#32 j) = true) ∧
    (0x2036#32).toNat % 4 ≠ 0 ∧ (0xFFFFFFFC#32).toNat % 4 = 0 ∧
    4294967296 ≤ (0xFFFFFFFC#32).toNat + 4 * 1 := by
  unfold State.allowsWords; decide

theorem test_witness_LdmiaResult : (0b10#8 ≠ 0#8 ∧ (0b10#8).getLsbD (0#3).toNat = false) ∧
    completes (exec (.ldmia 0 0b10) (wit.setLo 0 0x203C#32)) = true ∧
    completes (exec (.ldmia 0 0b11) (wit.setLo 0 0x2000#32)) = true ∧
    faultOf (exec (.ldmia 0 0b110) (wit.setLo 0 0x203C#32)) = some .notAdmitted ∧
    faultOf (exec (.ldmia 0 0b110) (wit.setLo 0 0xFFFFFFFC#32)) = some .addressWrap := by decide

theorem test_witness_StmiaResult : Memory.wf wit.mem ∧
    (0b11#8 ≠ 0#8 ∧ ((0b11#8).getLsbD (0#3).toNat = true →
      ∀ j < (0#3).toNat, (0b11#8).getLsbD j = false)) ∧
    completes (exec (.stmia 0 0b11) (wit.setLo 0 0x2038#32)) = true ∧
    faultOf (exec (.stmia 0 0b11) (withCode (wit.setLo 0 0x2038#32) 0x203F 1)) = some .codeWrite ∧
    seen (exec (.stmia 0 0b11) (aborting (wit.setLo 0 0x203C#32))) (·.pc) = some 0x10#32 := by decide

theorem test_witness_PushResult : Memory.wf wit.mem ∧
    completes (exec (.push true 0) (wit.setSp 0x2004#32)) = true ∧
    completes (exec (.push false 0xFF) (wit.setSp 0x2040#32)) = true ∧
    faultOf (exec (.push false 1) (wit.setSp 0#32)) = some .addressWrap ∧
    faultOf (exec (.push false 1) (wit.setSp 0x2002#32)) = some .misaligned := by decide

theorem test_witness_PopResult :
    (let s := boot 0x1000#32 0b0000#4 [(13, 0x203C#32)] [(0x203C, 0x35#8), (0x203D, 0x12#8)] 0x2000 0x40
     s.allowsWords .read s.sp 1 ∧ s.cpsr.t = true ∧ ReadsAs s 4 s.sp.toNat 0x1235#32 ∧
       completes (exec (.pop true 0) s) = true ∧ completes (exec (.pop false 1) s) = true) ∧
    (let s := boot 0x1000#32 0b0000#4 [(13, 0x203C#32)] [(0x203C, 0x34#8), (0x203D, 0x12#8)] 0x2000 0x40
     ReadsAs s 4 s.sp.toNat 0x1234#32 ∧ seen (exec (.pop true 0) s) (·.cpsr.t) = some false ∧
       seen (exec (.pop true 0) (asV4 s)) (·.cpsr.t) = some true) := by
  unfold State.allowsWords ReadsAs; decide

theorem test_witness_PushPopInverse :
    (let s := (wit.setSp 0x2004#32).setLr 0x1005#32
     Memory.wf s.mem ∧ s.allowsWords .write (s.sp - BitVec.ofNat 32 (4 * 1)) 1 ∧
       s.allowsWords .read (s.sp - BitVec.ofNat 32 (4 * 1)) 1 ∧ s.pc ≠ 0xFFFFFFFE#32 ∧
       s.pc ≠ 0xFFFFFFFC#32 ∧ s.cpsr.t = true ∧ s.lr.getLsbD 0 = true ∧
       1 = listSize 0#8 + true.toNat ∧ 1 = listSize 0x80#8 + false.toNat) := by
  unfold State.allowsWords; decide

end Sys2Proof.Tests
end

section
/-! PROOF. What a step can do, said once, and what it keeps of a run: the parameters, the rest of the
interrupt inputs and the output so far (00_scope.md R8, 70_reset_and_hazards.md R291). -/

namespace Sys2Proof.Machine

/-! ### Everything a step can do -/

/-- The three ways the fetch of an instruction and its run answer a next state (R55, R112). -/
theorem runInstruction_next {s t : State} :
    runInstruction s = .next t ↔
      (fetch s = .error .refused ∧ s.params.abortTraps = true ∧
        t = takeException .prefetchAbort s) ∨
      (∃ d, fetch s = .ok (.error d) ∧ s.params.undefTraps = true ∧
        t = takeException .undefined s) ∨
      ∃ i, fetch s = .ok (.ok i) ∧ exec i s = .next t := by
  unfold runInstruction
  split
  next e hf => simp [hf, fetchStop_next]
  next d hf => simp [hf, undefinedInstruction_next]
  next i hf => simp [hf]

/-- A step that answers a next state takes the interrupt that is due, or runs one instruction, in a run
that has not ended and is in Thumb state (R257, R258, R299). -/
theorem step_next {s t : State} :
    step s = .next t ↔ s.ended = false ∧ s.cpsr.t = true ∧
      ((∃ e, s.dueInterrupt = some e ∧ t = takeException e s.tick) ∨
        (s.dueInterrupt = none ∧ runInstruction s.tick = .next t)) := by
  unfold step
  split
  next hended => simp [hended]
  next hended =>
    split
    next harm => simp_all
    next hthumb =>
      cases hdue : s.dueInterrupt with
      | some e => simp_all [@eq_comm _ t]
      | none => simp_all

/-! ### What is fixed for a run -/

/-- The parameters and the inputs to come stay, and the output grows by at most one byte. -/
structure KeepsRun (s t : State) : Prop where
  params : t.params = s.params
  lines : t.lines = s.lines
  output : t.output = s.output ∨ ∃ b, t.output = s.output ++ [b]

theorem keepsRun_takeException (e : Exception) (s : State) : KeepsRun s (takeException e s) :=
  ⟨takeException_params e s, takeException_lines e s, .inl (takeException_output e s)⟩

/-- Every instruction keeps the run, one that is aborted too: the state its exception is entered from
differs from `s` only where R256 leaves values open. -/
theorem keepsRun_exec {i : Instr} {s t : State} (h : exec i s = .next t) : KeepsRun s t := by
  cases exec_cases h with
  | ordinary hord => exact ⟨hord.params, hord.lines, hord.output⟩
  | exception e u hint ht _ =>
    subst ht
    exact ⟨(takeException_params e u).trans hint.params, (takeException_lines e u).trans hint.lines,
      .inl ((takeException_output e u).trans hint.output)⟩

theorem keepsRun_runInstruction {s t : State} (h : runInstruction s = .next t) : KeepsRun s t := by
  obtain ⟨-, -, rfl⟩ | ⟨d, -, -, rfl⟩ | ⟨i, -, hexec⟩ := runInstruction_next.mp h
  · exact keepsRun_takeException .prefetchAbort s
  · exact keepsRun_takeException .undefined s
  · exact keepsRun_exec hexec

/-- After the boundary's levels are consumed, a step keeps what is fixed for a run. -/
theorem keepsRun_step {s t : State} (h : step s = .next t) : KeepsRun s.tick t := by
  obtain ⟨-, -, ⟨e, -, rfl⟩ | ⟨-, hrun⟩⟩ := step_next.mp h
  · exact keepsRun_takeException e s.tick
  · exact keepsRun_runInstruction hrun

end Sys2Proof.Machine

namespace Sys2Proof.Proofs

open Sys2Proof.Machine

/-- Settles O15: a step is one boundary's tick and then an exception or an instruction, and each of
these keeps what is fixed for a run. -/
theorem runConstants : Obligations.RunConstants := by
  unfold Obligations.RunConstants
  intro s t h
  obtain ⟨hparams, hlines, houtput⟩ := keepsRun_step h
  exact ⟨hparams, hlines, houtput⟩

end Sys2Proof.Proofs
end

section
/-! PROOF. The machine's state (10_state.md): the layout of a status register, the invariant that every
step keeps, and what an instruction leaves of the flags, the pc and the register banks. -/

namespace Sys2Proof.Machine

/-! ### The layout of a status register (R27, R31) -/

/-- Bit `j` of a status word: the fields from the low end up, each at its offset (R27). -/
theorem Psr.getLsbD_toWord (p : Psr) (j : Nat) : p.toWord.getLsbD j =
    if j < 5 then p.mode.number.getLsbD j
    else if j - 5 < 1 then (BitVec.ofBool p.t).getLsbD (j - 5)
    else if j - 6 < 1 then (BitVec.ofBool p.f).getLsbD (j - 6)
    else if j - 7 < 1 then (BitVec.ofBool p.i).getLsbD (j - 7)
    else if j - 8 < 20 then p.unused.getLsbD (j - 8)
    else if j - 28 < 1 then (BitVec.ofBool p.v).getLsbD (j - 28)
    else if j - 29 < 1 then (BitVec.ofBool p.c).getLsbD (j - 29)
    else if j - 30 < 1 then (BitVec.ofBool p.z).getLsbD (j - 30)
    else (BitVec.ofBool p.n).getLsbD (j - 31) := by
  change BitVec.getLsbD (w := 1 + 1 + 1 + 1 + 20 + 1 + 1 + 1 + 5) (_ ++ _) j = _
  simp only [BitVec.getLsbD_append]
  simp only [Nat.sub_sub, Nat.reduceAdd]

theorem Psr.extractMode_toWord (p : Psr) : p.toWord.extractLsb' 0 5 = p.mode.number := by
  refine BitVec.eq_of_getLsbD_eq fun j hj => ?_
  simp only [BitVec.getLsbD_extractLsb', Psr.getLsbD_toWord, Nat.zero_add, hj, if_true,
    decide_true, Bool.true_and]

theorem Psr.extractUnused_toWord (p : Psr) : p.toWord.extractLsb' 8 20 = p.unused := by
  refine BitVec.eq_of_getLsbD_eq fun j hj => ?_
  have hplace : ¬8 + j < 5 ∧ ¬8 + j - 5 < 1 ∧ ¬8 + j - 6 < 1 ∧ ¬8 + j - 7 < 1 := by omega
  simp only [BitVec.getLsbD_extractLsb', Psr.getLsbD_toWord, hplace, Nat.add_sub_cancel_left, hj,
    if_true, if_false, decide_true, Bool.true_and]

theorem Psr.getLsbD_toWord_flags (p : Psr) :
    p.toWord.getLsbD 31 = p.n ∧ p.toWord.getLsbD 30 = p.z ∧ p.toWord.getLsbD 29 = p.c ∧
      p.toWord.getLsbD 28 = p.v := by
  simp only [Psr.getLsbD_toWord]
  simp

theorem Psr.getLsbD_toWord_control (p : Psr) :
    p.toWord.getLsbD 7 = p.i ∧ p.toWord.getLsbD 6 = p.f ∧ p.toWord.getLsbD 5 = p.t := by
  simp only [Psr.getLsbD_toWord]
  simp

theorem Mode.ofNumber_number (m : Mode) : Mode.ofNumber m.number = some m := by
  cases m <;> rfl

theorem Mode.ofNumber_eq_none {n : BitVec 5} : Mode.ofNumber n = none ↔
    n ∉ [Mode.user, .fiq, .irq, .supervisor, .abort, .undefined, .system].map Mode.number := by
  unfold Mode.ofNumber
  rw [List.find?_eq_none]
  simp [@eq_comm _ n]

theorem Psr.ofWord_eq_none {w : Word} :
    Psr.ofWord w = none ↔ Mode.ofNumber (w.extractLsb' 0 5) = none := by
  simp [Psr.ofWord]

/-- Reading the word of a status register gives it back. -/
theorem Psr.ofWord_toWord (p : Psr) : Psr.ofWord p.toWord = some p := by
  obtain ⟨hn, hz, hc, hv⟩ := p.getLsbD_toWord_flags
  obtain ⟨hi, hf, ht⟩ := p.getLsbD_toWord_control
  simp only [Psr.ofWord, p.extractMode_toWord, p.extractUnused_toWord, Mode.ofNumber_number,
    Option.map_some, hn, hz, hc, hv, hi, hf, ht]

/-! ### The invariant (R24, R26, 20_memory.md R50) -/

/-- The entry of an exception aligns the pc at a vector and keeps the memory. -/
theorem inv_takeException (e : Exception) {s : State} (hmem : Memory.wf s.mem) :
    (takeException e s).Inv :=
  ⟨takeException_aligned e s, by rw [takeException_mem]; exact hmem⟩

theorem State.inv_tick {s : State} : s.tick.Inv ↔ s.Inv := Iff.rfl

/-- In Thumb state an instruction keeps the invariant, one that is aborted too. -/
theorem inv_exec {i : Instr} {s t : State} (hthumb : s.cpsr.t = true) (hs : s.Inv)
    (h : exec i s = .next t) : t.Inv := by
  obtain ⟨⟨heven, -⟩, hmem⟩ := hs
  cases exec_cases h with
  | ordinary hord => exact ⟨hord.aligned hthumb heven, (hord.wf hmem).1⟩
  | exception e u hint ht _ =>
    subst ht
    exact inv_takeException e (hint.wf hmem).1

theorem inv_runInstruction {s t : State} (hthumb : s.cpsr.t = true) (hs : s.Inv)
    (h : runInstruction s = .next t) : t.Inv := by
  obtain ⟨-, -, rfl⟩ | ⟨d, -, -, rfl⟩ | ⟨i, -, hexec⟩ := runInstruction_next.mp h
  · exact inv_takeException .prefetchAbort hs.2
  · exact inv_takeException .undefined hs.2
  · exact inv_exec hthumb hs hexec

/-- A step is an interrupt's entry or an instruction in Thumb state, at whose boundary only the inputs
move on. -/
theorem inv_step {s t : State} (hs : s.Inv) (h : step s = .next t) : t.Inv := by
  obtain ⟨-, hthumb, ⟨e, -, rfl⟩ | ⟨-, hrun⟩⟩ := step_next.mp h
  · exact inv_takeException e (State.inv_tick.mpr hs).2
  · exact inv_runInstruction (s := s.tick) hthumb (State.inv_tick.mpr hs) hrun

theorem State.inv_reset : State.reset.Inv := ⟨by unfold State.PcAligned; decide, State.reset_mem_wf⟩

/-! ### What an exception leaves of the state an instruction began in (60_exceptions.md R252) -/

theorem Interrupted.keepsFlags {i : Instr} {s u : State} (h : Interrupted i s u) (e : Exception) :
    KeepsFlags s (takeException e u) := by
  simp [KeepsFlags, h.cpsr]

/-- No instruction takes Reset, so the only register an exception writes is its link. -/
theorem Interrupted.banks_takeException {i : Instr} {s u : State} (h : Interrupted i s u)
    {e : Exception} (he : e ≠ .reset) {k : Fin 30}
    (hcur : ∀ r : RegNum, r ≠ 15#4 → k ≠ slot s.cpsr.mode r) (hlink : k ≠ slot e.mode 14#4) :
    (takeException e u).regs.get k = s.regs.get k := by
  rw [takeException_regs e u he, if_neg hlink]
  exact h.banks k hcur

/-! ### The fault PcWrap (R26): each end of an instruction that would advance from 0xFFFFFFFE -/

/-- A store leaves what the next accesses may do, so that nothing is asked of the memory here. -/
theorem writeWords_ok_of_allows {vs : List Word} {a : Word} {s : State}
    (h : ∀ k < vs.length, s.allows .word .write (wordAddr a k) = true) :
    ∃ t, writeWords vs a s = .ok t := by
  induction vs generalizing a s with
  | nil => exact ⟨s, rfl⟩
  | cons v vs ih =>
    obtain ⟨halign, hcode, hadm⟩ := allows_write.mp (h 0 (by simp))
    rw [wordAddr_zero] at halign hcode hadm
    obtain ⟨t, ht⟩ := ih (a := a + 4#32) (s := s.store .word a v) fun k hk => by
      rw [wordAddr_succ]
      exact h (k + 1) (by simpa using hk)
    exact ⟨t, by simp only [writeWords, memWrite_ok.mpr ⟨halign, hcode, hadm, rfl⟩, ht]⟩

/-- The start of a transfer that may be performed is aligned, and the transfer stays in memory. -/
theorem State.allowsWords_start {s : State} {kind : AccessKind} {a : Word} {n : Nat} (hn : n ≠ 0)
    (h : s.allowsWords kind a n) : alignedTo .word a = true ∧ passesTop a n = false := by
  obtain ⟨htop, hwords⟩ := h
  have hfirst := hwords 0 (by omega)
  rw [wordAddr_zero] at hfirst
  simp only [State.allows, Bool.and_eq_true] at hfirst
  exact ⟨hfirst.1.1, by simp [passesTop, htop]⟩

theorem multiRead_of_allowsWords {s : State} {a : Word} {n : Nat} (hn : n ≠ 0)
    (h : s.allowsWords .read a n) : ∃ vs, multiRead n a s = .ok vs := by
  obtain ⟨halign, htop⟩ := State.allowsWords_start hn h
  obtain ⟨vs, hvs⟩ := readWords_of_allows h.2
  exact ⟨vs, multiRead_ok.mpr ⟨halign, htop, hvs⟩⟩

/-- A multiple store that may be performed is performed, and leaves the pc. -/
theorem multiWrite_of_allowsWords {s : State} {a : Word} {vs : List Word} (hn : vs.length ≠ 0)
    (h : s.allowsWords .write a vs.length) : ∃ t, multiWrite vs a s = .ok t ∧ t.pc = s.pc := by
  obtain ⟨halign, htop⟩ := State.allowsWords_start hn h
  obtain ⟨t, ht⟩ := writeWords_ok_of_allows h.2
  refine ⟨t, multiWrite_ok.mpr ⟨halign, htop, ht⟩, ?_⟩
  rw [(writeWords_ok ht).1]

theorem namesHi_iff {d m : RegNum} :
    WellFormed.namesHi d m = true ↔ d.getLsbD 3 = true ∨ m.getLsbD 3 = true := by
  rw [WellFormed.namesHi, Bool.or_eq_true]

section
variable {s : State} (hpc : s.pc = 0xFFFFFFFE#32)
include hpc

theorem finishArith_top (rd : Lo) (a : AddResult) : finishArith rd a s = .fault .pcWrap :=
  advance_top (by simpa using hpc)

theorem finishCompare_top (a : AddResult) : finishCompare a s = .fault .pcWrap := advance_top hpc

theorem finishLogic_top (rd : Lo) (r : Word) : finishLogic rd r s = .fault .pcWrap :=
  advance_top (by simpa using hpc)

theorem finishTest_top (r : Word) : finishTest r s = .fault .pcWrap := advance_top hpc

theorem finishShift_top (rd : Lo) (r : ShiftResult) : finishShift rd r s = .fault .pcWrap :=
  advance_top (by simpa using hpc)

theorem finishMove_top {rd : RegNum} (hrd : rd ≠ 15#4) (v : Word) :
    finishMove rd v s = .fault .pcWrap := by
  rw [finishMove, if_neg hrd]
  exact advance_top (by rw [State.setReg_pc _ _ _ hrd, hpc])

theorem finishLoad_top {w : Width} {a : Word} (h : s.allows w .read a = true) (rd : Lo)
    (base : List RegNum) (ext : Word → Word) : finishLoad rd base w ext a s = .fault .pcWrap := by
  obtain ⟨halign, hadm⟩ := allows_read.mp h
  simp only [finishLoad, memRead_ok.mpr ⟨halign, hadm, rfl⟩]
  exact advance_top (by simpa using hpc)

theorem finishStore_top {w : Width} {a : Word} (h : s.allows w .write a = true)
    (base : List RegNum) (v : Word) : finishStore base w a v s = .fault .pcWrap := by
  obtain ⟨halign, hcode, hadm⟩ := allows_write.mp h
  simp only [finishStore, memWrite_ok.mpr ⟨halign, hcode, hadm, rfl⟩]
  exact advance_top (by simpa using hpc)

theorem branchIf_top {c : Cond} (h : condHolds s.cpsr c = false) (off : Word) :
    branchIf c off s = .fault .pcWrap := by
  rw [branchIf, if_neg (by simp [h])]
  exact advance_top hpc

theorem execMulReg_top (rd rm : Lo) : execMulReg rd rm s = .fault .pcWrap := by
  unfold execMulReg
  split
  · exact finishLogic_top hpc rd _
  · exact finishShift_top (s := { s with draws := s.draws + 1 }) hpc rd _

theorem execSwi_top {n : BitVec 8} (h : s.hostAction n = some .writeC) :
    execSwi n s = .fault .pcWrap := by
  simp only [execSwi, h]
  exact advance_top hpc

theorem execLdmia_top {rn : Lo} {l : BitVec 8} (hl : l ≠ 0#8)
    (h : s.allowsWords .read (s.lo rn) (listCount l)) : execLdmia rn l s = .fault .pcWrap := by
  obtain ⟨vs, hvs⟩ := multiRead_of_allowsWords (listCount_pos l hl).ne' h
  have hu := ((RegsOnly.refl s).writeBackBase rn l (afterWords (s.lo rn) (listCount l))).setList
    (listRegs l) vs
  obtain ⟨-, -, -, -, -, -, hkeep, -⟩ := hu.keeps 0
  simp only [execLdmia, if_neg hl, hvs]
  exact advance_top (hkeep.trans hpc)

theorem execStmia_top {rn : Lo} {l : BitVec 8} (hl : l ≠ 0#8)
    (hlow : (l.getLsbD rn.toNat && WellFormed.lowerInList rn l) = false)
    (h : s.allowsWords .write (s.lo rn) (listCount l)) : execStmia rn l s = .fault .pcWrap := by
  have hlen : ((listRegs l).map s.lo).length = listCount l := by simp [length_listRegs]
  obtain ⟨t, ht, hkeep⟩ := multiWrite_of_allowsWords (vs := (listRegs l).map s.lo)
    (by rw [hlen]; exact (listCount_pos l hl).ne') (by rw [hlen]; exact h)
  simp only [execStmia, if_neg hl, hlow, Bool.false_eq_true, if_false, ht]
  exact advance_top (by rw [State.setLo_pc, hkeep, hpc])

theorem execPush_top {r : Bool} {l : BitVec 8} (hn : stackCount r l ≠ 0)
    (h : s.allowsWords .write (pushStart r l s) (stackCount r l)) :
    execPush r l s = .fault .pcWrap := by
  have hlen : (pushValues r l s).length = stackCount r l := by
    cases r <;> simp [pushValues, stackCount, length_listRegs]
  obtain ⟨t, ht, hkeep⟩ := multiWrite_of_allowsWords (by rw [hlen]; exact hn) (by rw [hlen]; exact h)
  simp only [execPush, if_neg hn, ht]
  exact advance_top (by rw [State.setSp_pc, hkeep, hpc])

theorem execPop_top {l : BitVec 8} (hn : stackCount false l ≠ 0)
    (h : s.allowsWords .read s.sp (stackCount false l)) : execPop false l s = .fault .pcWrap := by
  obtain ⟨vs, hvs⟩ := multiRead_of_allowsWords hn h
  simp only [execPop, if_neg hn, hvs, Bool.false_eq_true, if_false]
  exact advance_top (by rw [State.setSp_pc, (s.setList_keeps _ _).2.2.1, hpc])

end

/-- From 0xFFFFFFFE every instruction that would advance, and that no other rule stops, wraps. -/
theorem exec_top {i : Instr} {s : State} (hpc : s.pc = 0xFFFFFFFE#32) (hseq : ¬WritesPc i s)
    (hmay : MayComplete i s) : exec i s = .fault .pcWrap := by
  cases i
  case addReg | subReg | addImm3 | subImm3 | addImm8 | subImm8 | adcReg | sbcReg | negReg =>
    exact finishArith_top hpc _ _
  case cmpImm8 | cmpReg | cmnReg => exact finishCompare_top hpc _
  case tstReg => exact finishTest_top hpc _
  case movImm8 | andReg | eorReg | orrReg | bicReg | mvnReg => exact finishLogic_top hpc _ _
  case lslImm | lsrImm | asrImm | lslReg | lsrReg | asrReg | rorReg =>
    exact finishShift_top hpc _ _
  case mulReg rd rm => exact execMulReg_top hpc rd rm
  case addHi rd rm =>
    simp only [exec, execAddHi, if_pos (namesHi_iff.mpr hmay)]
    exact finishMove_top hpc hseq _
  case movHi rd rm =>
    simp only [exec, execMovHi, if_pos (namesHi_iff.mpr hmay)]
    exact finishMove_top hpc hseq _
  case cmpHi rn rm =>
    obtain ⟨hbit, hrn⟩ := hmay
    simp only [exec, execCmpHi, namesHi_iff.mpr hbit, Bool.not_true, Bool.false_eq_true, if_false,
      if_neg hrn]
    exact finishCompare_top hpc _
  case addRdPc | addRdSp => exact finishMove_top hpc (loNum_ne_pc _) _
  case addSp | subSp => exact advance_top (by rw [State.setSp_pc, hpc])
  case blPrefix => exact advance_top (by rw [State.setLr_pc, hpc])
  case b | blSuffix | blxSuffix | bx | blxReg => exact absurd trivial hseq
  case swi => exact execSwi_top hpc (not_not.mp hseq)
  case ldrImm | ldrbImm | ldrhImm | ldrReg | ldrhReg | ldrshReg | ldrbReg | ldrsbReg | ldrPc |
      ldrSp =>
    exact finishLoad_top hpc hmay _ _ _
  case strImm | strbImm | strhImm | strReg | strhReg | strbReg | strSp =>
    exact finishStore_top hpc hmay _ _
  case ldmia rn l =>
    obtain ⟨hl, hwords⟩ := hmay
    exact execLdmia_top hpc hl (listSize_eq l ▸ hwords)
  case stmia rn l =>
    obtain ⟨hl, hlow, hwords⟩ := hmay
    refine execStmia_top hpc hl ?_ (listSize_eq l ▸ hwords)
    rw [Bool.eq_false_iff, ne_eq, Bool.and_eq_true, lowerInList_iff]
    rintro ⟨hrn, j, hj, hset⟩
    simp [hlow hrn j hj] at hset
  case push r l =>
    rw [MayComplete, listSize_eq] at hmay
    exact execPush_top hpc hmay.1 hmay.2
  case pop r l =>
    rw [MayComplete, listSize_eq] at hmay
    obtain rfl : r = false := by simpa [WritesPc] using hseq
    exact execPop_top hpc hmay.1 hmay.2
  all_goals
    exact branchIf_top hpc (by simpa [WritesPc, condHolds] using hseq) _

theorem writesPc_of_onlyV5t {i : Instr} (h : onlyV5t i = true) (s : State) : WritesPc i s := by
  cases i
  case blxReg | blxSuffix => trivial
  all_goals contradiction

/-- Where an instruction that does not write the pc answers a next state, it has moved on by one
instruction or its access was aborted. -/
theorem exec_pc_of_not_writesPc {i : Instr} {s t : State} (hseq : ¬WritesPc i s)
    (h : exec i s = .next t) :
    (t.pc = s.pc + 2#32 ∧ s.pc ≠ 0xFFFFFFFE#32) ∨
      (accessesMemory i = true ∧ s.params.abortTraps = true ∧ t.pc = 0x00000010#32) := by
  cases exec_cases h with
  | ordinary hord => exact .inl (hord.pc.resolve_left hseq)
  | exception e u hint ht why =>
    obtain ⟨-, n, rfl, hnone⟩ | ⟨rfl, hacc, htraps⟩ | ⟨-, h5t, -, -⟩ := why
    · exact absurd (by simp [WritesPc, hnone]) hseq
    · exact .inr ⟨hacc, htraps, by rw [ht, takeException_pc]; rfl⟩
    · exact absurd (writesPc_of_onlyV5t h5t s) hseq

/-! ### The register banks and the flags (R23, R28) -/

/-- An instruction writes the current mode's registers, and the link of an exception it takes, which is
never Reset. -/
theorem exec_keeps_otherBanks {i : Instr} {s t : State} (h : exec i s = .next t) {k : Fin 30}
    (hcur : ∀ r : RegNum, r ≠ 15#4 → k ≠ slot s.cpsr.mode r) (hlink : k ≠ slot t.cpsr.mode 14#4) :
    t.regs.get k = s.regs.get k := by
  cases exec_cases h with
  | ordinary hord => exact hord.banks k hcur
  | exception e u hint ht why =>
    subst ht
    have he : e ≠ .reset := by
      obtain ⟨rfl, -⟩ | ⟨rfl, -⟩ | ⟨rfl, -⟩ := why <;> decide
    exact hint.banks_takeException he hcur (by simpa using hlink)

/-- An instruction that sets no flag keeps them, one that takes an exception too. -/
theorem exec_keepsFlags {i : Instr} {s t : State} (hi : setsFlags i = false)
    (h : exec i s = .next t) : KeepsFlags s t := by
  cases exec_cases h with
  | ordinary hord => exact hord.flags.resolve_left (by simp [hi])
  | exception e u hint ht _ =>
    subst ht
    exact hint.keepsFlags e

end Sys2Proof.Machine

namespace Sys2Proof.Proofs

open Sys2Proof.Machine

/-- Settles O11: an interrupt or an abort enters at an aligned vector, and every instruction keeps the
pc aligned and the memory canonical. -/
theorem invariantKept : Obligations.InvariantKept := by
  unfold Obligations.InvariantKept
  intro s t hs h
  exact inv_step hs h

/-- Settles O12: the reset vector is a multiple of 4, and nothing is stored yet. -/
theorem resetInvariant : Obligations.ResetInvariant := State.inv_reset

/-- Settles O20: each field is read back from its place in the word, and no other word is refused than
one whose low five bits are no mode number. -/
theorem psrLayout : Obligations.PsrLayout := by
  unfold Obligations.PsrLayout
  refine ⟨fun p => ?_, fun w => ?_, rfl⟩
  · obtain ⟨hn, hz, hc, hv⟩ := p.getLsbD_toWord_flags
    obtain ⟨hi, hf, ht⟩ := p.getLsbD_toWord_control
    exact ⟨hn, hz, hc, hv, p.extractUnused_toWord, hi, hf, ht, p.extractMode_toWord,
      p.ofWord_toWord⟩
  · rw [Psr.ofWord_eq_none, Mode.ofNumber_eq_none]
    rfl

/-- Settles O23: an exception saves the flags and leaves them, and every other end of such an
instruction does not write them. -/
theorem flagsOnlyByDataProcessing : Obligations.FlagsOnlyByDataProcessing := by
  unfold Obligations.FlagsOnlyByDataProcessing
  intro i s t hi h
  exact exec_keepsFlags hi h

/-- Settles O24: what an instruction that does not write the pc does to it, and the wrap that each such
instruction ends in at the top of memory. -/
theorem sequentialAdvance : Obligations.SequentialAdvance := by
  unfold Obligations.SequentialAdvance
  exact ⟨fun i s t hseq h => exec_pc_of_not_writesPc hseq h,
    fun i s hseq hpc hmay => exec_top hpc hseq hmay⟩

/-- Settles O25: the registers an aborted instruction leaves open are the current mode's, and an
exception then writes only its link. -/
theorem otherBanksKept : Obligations.OtherBanksKept := by
  unfold Obligations.OtherBanksKept
  intro i s t h k hcur hlink
  exact exec_keeps_otherBanks h hcur hlink

end Sys2Proof.Proofs
end

section
/-! PROOF. Memory (20_memory.md): which instructions change it, that the code region stays, and that
an access reads back what was stored there. -/

namespace Sys2Proof.Machine

/-! ### Which instructions change memory (R56, R63) -/

theorem State.byteAt_congr {s t : State} (h : t.mem = s.mem) (a : Nat) : t.byteAt a = s.byteAt a :=
  congrArg (Memory.read · a) h

/-- The entry of an exception leaves the code region as the interrupted instruction left it. -/
theorem CodeKept.takeException {s u : State} (h : CodeKept s u) (e : Exception) :
    CodeKept s (takeException e u) := fun c hc a hlow hhigh =>
  (State.byteAt_congr (takeException_mem e u) a).trans (h c hc a hlow hhigh)

/-- An aborted load frees registers alone, and the entry of an exception writes no memory. -/
theorem exec_keeps_mem {i : Instr} {s t : State} (hi : storesMemory i = false)
    (h : exec i s = .next t) : t.mem = s.mem := by
  have hnot : ¬storesMemory i = true := by simp [hi]
  cases exec_cases h with
  | ordinary hord => exact hord.mem.resolve_right hnot
  | exception e u hint ht _ =>
    subst ht
    exact (takeException_mem e u).trans (hint.mem.resolve_right hnot)

/-- No instruction changes a byte of the code region, one whose stores are aborted included. -/
theorem codeKept_exec {i : Instr} {s t : State} (hw : Memory.wf s.mem) (h : exec i s = .next t) :
    CodeKept s t := by
  cases exec_cases h with
  | ordinary hord => exact (hord.wf hw).2
  | exception e u hint ht _ =>
    subst ht
    exact (hint.wf hw).2.takeException e

/-! ### Splitting a datum into bytes and joining it again (R52) -/

theorem append_bytes_half (h : Half) : h.extractLsb' 8 8 ++ h.extractLsb' 0 8 = h :=
  (BitVec.extractLsb'_append_extractLsb'_eq_extractLsb' rfl).trans BitVec.extractLsb'_eq_self

theorem append_bytes_word (v : Word) :
    v.extractLsb' 24 8 ++ v.extractLsb' 16 8 ++ v.extractLsb' 8 8 ++ v.extractLsb' 0 8 = v := by
  rw [BitVec.extractLsb'_append_extractLsb'_eq_extractLsb' (start₂ := 24) (start₁ := 16) rfl,
    BitVec.extractLsb'_append_extractLsb'_eq_extractLsb' (start₂ := 16) (start₁ := 8) rfl,
    BitVec.extractLsb'_append_extractLsb'_eq_extractLsb' (start₂ := 8) (start₁ := 0) rfl]
  exact BitVec.extractLsb'_eq_self

/-- The bytes of a half-word join to it, in both byte orders. -/
theorem joinHalf_of_splitHalf {big : Bool} {h : Half} {b0 b1 : Byte}
    (hb : [b0, b1] = splitHalf big h) : joinHalf big b0 b1 = h := by
  cases big <;>
  · cases hb
    exact append_bytes_half h

/-- The bytes of a word join to it, in both byte orders. -/
theorem joinWord_of_splitWord {big : Bool} {v : Word} {b0 b1 b2 b3 : Byte}
    (hb : [b0, b1, b2, b3] = splitWord big v) : joinWord big b0 b1 b2 b3 = v := by
  cases big <;>
  · cases hb
    exact append_bytes_word v

/-! ### A read after a write (R54, R60) -/

/-- The bytes of the access, at rising addresses, are the bytes stored. -/
theorem State.map_byteAt_store {s : State} (hs : Memory.wf s.mem) {w : Width} {a : Word} (v : Word)
    (h : alignedTo w a = true) :
    (List.range (widthBytes w)).map (fun k => (s.store w a v).byteAt (a.toNat + k)) =
      storeBytes s.params.bigEnd w v := by
  refine List.ext_getElem (by simp [length_storeBytes]) fun k hk _ => ?_
  simp only [List.getElem_map, List.getElem_range]
  exact State.byteAt_store_of_lt hs h (by simpa using hk)

/-- The low bits of a word, zero-extended. -/
theorem toNat_setWidth_extractLsb' {n : Nat} (hn : n ≤ 32) (v : Word) :
    ((v.extractLsb' 0 n).setWidth 32).toNat = v.toNat % 2 ^ n := by
  rw [BitVec.toNat_setWidth_of_le hn, BitVec.extractLsb'_toNat, Nat.shiftRight_zero]

/-- A read of the stored access gives the low bytes of the value, zero-extended. -/
theorem State.toNat_load_store {s : State} (hs : Memory.wf s.mem) {w : Width} {a : Word} (v : Word)
    (h : alignedTo w a = true) :
    ((s.store w a v).load w a).toNat = v.toNat % 256 ^ widthBytes w := by
  have hbytes := State.map_byteAt_store hs v h
  cases w with
  | byte =>
    have hload : (s.store .byte a v).load .byte a = (v.extractLsb' 0 8).setWidth 32 :=
      congrArg (BitVec.setWidth 32) (List.head_eq_of_cons_eq hbytes)
    rw [hload]
    exact toNat_setWidth_extractLsb' (by decide) v
  | half =>
    have hload : (s.store .half a v).load .half a = (v.extractLsb' 0 16).setWidth 32 :=
      congrArg (BitVec.setWidth 32) (joinHalf_of_splitHalf hbytes)
    rw [hload]
    exact toNat_setWidth_extractLsb' (by decide) v
  | word =>
    have hload : (s.store .word a v).load .word a = v := joinWord_of_splitWord hbytes
    rw [hload]
    exact (Nat.mod_eq_of_lt v.isLt).symm

end Sys2Proof.Machine

namespace Sys2Proof.Proofs

open Sys2Proof.Machine

/-- Settles O26: an instruction ends with the memory its stores leave, also where an exception is
entered from there, and no store is performed into the code region. -/
theorem memoryOnlyByStores : Obligations.MemoryOnlyByStores := by
  unfold Obligations.MemoryOnlyByStores
  intro i s t hw h
  exact ⟨fun hi => exec_keeps_mem hi h, codeKept_exec hw h⟩

/-- Settles O54: a write that succeeds is an aligned store, whose bytes join to the value again. -/
theorem readAfterWrite : Obligations.ReadAfterWrite := by
  unfold Obligations.ReadAfterWrite
  intro s u w a v hw h
  obtain ⟨halign, -, -, rfl⟩ := memWrite_ok.mp h
  exact ⟨State.toNat_load_store hw v halign, fun a' ha' => State.byteAt_store hw halign ha',
    State.store_wf hw halign, fun hadm => memRead_ok.mpr ⟨halign, hadm, rfl⟩⟩

end Sys2Proof.Proofs
end

section
/-! PROOF. The encoding (30_encoding.md): each format as the fields of a half-word, and each
instruction as the one row of the opcode table that covers its half-word and builds it. -/

namespace Sys2Proof.Decode

/-! ### Bit vectors joined from fields -/

theorem append_eq_iff {n m : Nat} {x : BitVec n} {y : BitVec m} {w : BitVec (n + m)} :
    x ++ y = w ↔ w.extractLsb' m n = x ∧ w.extractLsb' 0 m = y := by
  constructor
  · rintro rfl
    exact ⟨BitVec.extractLsb'_append_eq_left, BitVec.extractLsb'_append_eq_right⟩
  · rintro ⟨rfl, rfl⟩
    exact BitVec.extractLsb'_append_extractLsb'

theorem extractLsb'_extractLsb'_upper {s n m k : Nat} {w : BitVec k} :
    (w.extractLsb' s (n + m)).extractLsb' m n = w.extractLsb' (s + m) n := by
  rw [← BitVec.extractLsb'_append_extractLsb'_eq_extractLsb' rfl,
    BitVec.extractLsb'_append_eq_left]

theorem extractLsb'_extractLsb'_lower {s n m k : Nat} {w : BitVec k} :
    (w.extractLsb' s (n + m)).extractLsb' 0 m = w.extractLsb' s m := by
  rw [← BitVec.extractLsb'_append_extractLsb'_eq_extractLsb' rfl,
    BitVec.extractLsb'_append_eq_right]

theorem eq_append_iff {n m : Nat} {x : BitVec n} {y : BitVec m} {w : BitVec (n + m)} :
    w = x ++ y ↔ w.extractLsb' m n = x ∧ w.extractLsb' 0 m = y := by
  rw [eq_comm, append_eq_iff]

/-- A mask of ones above zeros compares the leading bits. -/
theorem and_leadingMask_iff {n m : Nat} {p : BitVec n} {w : BitVec (n + m)} :
    w &&& (BitVec.allOnes n ++ 0#m) = p ++ 0#m ↔ w.extractLsb' m n = p := by
  rw [eq_append_iff, BitVec.extractLsb'_and, BitVec.extractLsb'_and,
    BitVec.extractLsb'_append_eq_left, BitVec.extractLsb'_append_eq_right, BitVec.and_allOnes,
    BitVec.and_zero, and_iff_left rfl]

/-- Fields are equal when their upper and lower parts are. -/
theorem extractLsb'_eq_extractLsb'_iff {s n m k : Nat} {v w : BitVec k} :
    v.extractLsb' s (n + m) = w.extractLsb' s (n + m) ↔
      v.extractLsb' (s + m) n = w.extractLsb' (s + m) n ∧
        v.extractLsb' s m = w.extractLsb' s m := by
  rw [← BitVec.extractLsb'_append_extractLsb'_eq_extractLsb' (x := w) rfl, eq_append_iff,
    extractLsb'_extractLsb'_upper, extractLsb'_extractLsb'_lower]

/-! ### The formats (R82 to R102)

For each format: a half-word is put together from its leading bits `p` and its fields exactly when
it matches the mask and the pattern of a row of the format and the row builds its instruction from
these fields. Formats that differ in the widths of their fields alone share a lemma. -/

/-- One field (R82 to R84, R87, R95). -/
theorem format_one_field {n m : Nat} {p : BitVec n} {a : BitVec m} {w : BitVec (n + m)}
    {mk : BitVec m → Instr} (hmk : ∀ a a', mk a = mk a' ↔ a = a') :
    p ++ a = w ↔
      w &&& (BitVec.allOnes n ++ 0#m) = p ++ 0#m ∧ mk (w.extractLsb' 0 m) = mk a := by
  rw [append_eq_iff, and_leadingMask_iff, hmk]

/-- Two fields that are the operands in this order (R86, R90, R94, R99 to R101). -/
theorem format_two_fields {n k m : Nat} {p : BitVec n} {a : BitVec k} {b : BitVec m}
    {w : BitVec (n + k + m)} {mk : BitVec k → BitVec m → Instr}
    (hmk : ∀ a b a' b', mk a b = mk a' b' ↔ a = a' ∧ b = b') :
    p ++ a ++ b = w ↔
      w &&& (BitVec.allOnes n ++ 0#k ++ 0#m) = p ++ 0#k ++ 0#m ∧
        mk (w.extractLsb' m k) (w.extractLsb' 0 m) = mk a b := by
  simp only [append_eq_iff, eq_append_iff, BitVec.extractLsb'_and,
    BitVec.extractLsb'_append_eq_left, BitVec.extractLsb'_append_eq_right,
    extractLsb'_extractLsb'_upper, extractLsb'_extractLsb'_lower, BitVec.and_allOnes,
    BitVec.and_zero, and_true, hmk]
  tauto

/-- Two fields that are the operands from the right (R92). -/
theorem format_two_fields_swapped {n k m : Nat} {p : BitVec n} {a : BitVec m} {b : BitVec k}
    {w : BitVec (n + k + m)} {mk : BitVec m → BitVec k → Instr}
    (hmk : ∀ a b a' b', mk a b = mk a' b' ↔ a = a' ∧ b = b') :
    p ++ b ++ a = w ↔
      w &&& (BitVec.allOnes n ++ 0#k ++ 0#m) = p ++ 0#k ++ 0#m ∧
        mk (w.extractLsb' 0 m) (w.extractLsb' m k) = mk a b := by
  rw [format_two_fields (mk := fun b a => mk a b) fun _ _ _ _ => (hmk ..).trans and_comm]

/-- Three fields that are the operands from the right (R88, R89, R91, R96 to R98). -/
theorem format_three_fields {n j k m : Nat} {p : BitVec n} {a : BitVec m} {b : BitVec k}
    {c : BitVec j} {w : BitVec (n + j + k + m)} {mk : BitVec m → BitVec k → BitVec j → Instr}
    (hmk : ∀ a b c a' b' c', mk a b c = mk a' b' c' ↔ a = a' ∧ b = b' ∧ c = c') :
    p ++ c ++ b ++ a = w ↔
      w &&& (BitVec.allOnes n ++ 0#j ++ 0#k ++ 0#m) = p ++ 0#j ++ 0#k ++ 0#m ∧
        mk (w.extractLsb' 0 m) (w.extractLsb' m k) (w.extractLsb' (m + k) j) = mk a b c := by
  simp only [append_eq_iff, eq_append_iff, BitVec.extractLsb'_and,
    BitVec.extractLsb'_append_eq_left, BitVec.extractLsb'_append_eq_right,
    extractLsb'_extractLsb'_upper, extractLsb'_extractLsb'_lower, BitVec.and_allOnes,
    BitVec.and_zero, and_true, hmk]
  tauto

/-- Two registers of any number, the top bit of the first one apart from the others (R93). -/
theorem format_hi_regs {p : BitVec 8} {a b : RegNum} {w : BitVec (8 + 1 + 4 + 3)}
    {mk : RegNum → RegNum → Instr} (hmk : ∀ a b a' b', mk a b = mk a' b' ↔ a = a' ∧ b = b') :
    p ++ a.extractLsb' 3 1 ++ b ++ a.extractLsb' 0 3 = w ↔
      w &&& (BitVec.allOnes 8 ++ 0#8) = p ++ 0#8 ∧ mk (hiD w) (hiM w) = mk a b := by
  have hD : hiD w = a ↔ a.extractLsb' 3 1 = w.extractLsb' 7 1 ∧
      a.extractLsb' 0 3 = w.extractLsb' 0 3 := append_eq_iff
  rw [and_leadingMask_iff (n := 8) (m := 8), hmk, hD]
  simp only [append_eq_iff, eq_append_iff, extractLsb'_extractLsb'_upper,
    extractLsb'_extractLsb'_lower]
  tauto

/-- The mask of the BLX suffix compares the leading bits and bit 0. -/
theorem and_blxMask_iff {p : BitVec 5} {b : BitVec 1} {w : BitVec (5 + 10 + 1)} :
    w &&& (BitVec.allOnes 5 ++ 0#10 ++ BitVec.allOnes 1) = p ++ 0#10 ++ b ↔
      w.extractLsb' 11 5 = p ∧ w.extractLsb' 0 1 = b := by
  simp only [eq_append_iff, BitVec.extractLsb'_and, BitVec.extractLsb'_append_eq_left,
    BitVec.extractLsb'_append_eq_right, extractLsb'_extractLsb'_upper,
    extractLsb'_extractLsb'_lower, BitVec.and_allOnes, BitVec.and_zero, and_true]

/-- The BLX suffix, whose row also fixes bit 0 (R85). -/
theorem format_blxSuffix {p : BitVec 5} {a : BitVec 10} {w : BitVec (5 + 10 + 1)}
    {mk : BitVec 10 → Instr} (hmk : ∀ a a', mk a = mk a' ↔ a = a') :
    p ++ a ++ 0#1 = w ↔
      w &&& (BitVec.allOnes 5 ++ 0#10 ++ BitVec.allOnes 1) = p ++ 0#10 ++ 0#1 ∧
        mk (imm10 w) = mk a := by
  rw [append_eq_iff, eq_append_iff, extractLsb'_extractLsb'_upper, extractLsb'_extractLsb'_lower,
    and_blxMask_iff, hmk]
  tauto

/-- The register bit and the list of PUSH and POP (R102). -/
theorem format_stack {p : BitVec 7} {r : Bool} {l : BitVec 8} {w : BitVec (7 + 1 + 8)}
    {mk : Bool → BitVec 8 → Instr} (hmk : ∀ r l r' l', mk r l = mk r' l' ↔ r = r' ∧ l = l') :
    p ++ BitVec.ofBool r ++ l = w ↔
      w &&& (BitVec.allOnes 7 ++ 0#9) = p ++ 0#9 ∧ mk (w.getLsbD 8) (imm8 w) = mk r l := by
  have hr : w.getLsbD 8 = r ↔ w.extractLsb' 8 1 = BitVec.ofBool r := by
    rw [BitVec.getLsbD_eq_extractLsb']
    generalize w.extractLsb' 8 1 = x
    revert x r
    decide
  rw [append_eq_iff, eq_append_iff, extractLsb'_extractLsb'_upper, extractLsb'_extractLsb'_lower,
    and_leadingMask_iff (n := 7) (m := 9), hmk, hr, and_assoc]

/-! ### Instructions and rows (R105, R112) -/

theorem covers_iff {r : Row} {w : Half} : r.covers w = true ↔ w &&& r.mask = r.pattern :=
  beq_iff_eq

theorem ctorIdx_lt (i : Instr) : i.ctorIdx < table.length := by
  cases i <;> exact of_decide_eq_true rfl

/-- The instruction's own row: the table has its rows in the order of the constructors. -/
def rowOf (i : Instr) : Row := table[i.ctorIdx]'(ctorIdx_lt i)

/-- A half-word encodes an instruction exactly when the instruction's row covers it and reads the
instruction from it. -/
theorem encode_eq_iff {i : Instr} {w : Half} :
    encode i = w ↔ (rowOf i).covers w = true ∧ (rowOf i).build w = i := by
  rw [covers_iff]
  cases i
  case addReg | subReg | addImm3 | subImm3 | strReg | strhReg | strbReg | ldrsbReg | ldrReg
      | ldrhReg | ldrbReg | ldrshReg =>
    exact format_three_fields (n := 7) (j := 3) (k := 3) (m := 3) (by simp)
  case lslImm | lsrImm | asrImm | strImm | ldrImm | strbImm | ldrbImm | strhImm | ldrhImm =>
    exact format_three_fields (n := 5) (j := 5) (k := 3) (m := 3) (by simp)
  case andReg | eorReg | lslReg | lsrReg | asrReg | adcReg | sbcReg | rorReg | tstReg | negReg
      | cmpReg | cmnReg | orrReg | mulReg | bicReg | mvnReg =>
    exact format_two_fields_swapped (n := 10) (k := 3) (m := 3) (by simp)
  case movImm8 | cmpImm8 | addImm8 | subImm8 | addRdPc | addRdSp | ldrPc | strSp | ldrSp | stmia
      | ldmia =>
    exact format_two_fields (n := 5) (k := 3) (m := 8) (by simp)
  case bx | blxReg => exact format_two_fields (n := 9) (k := 4) (m := 3) (by simp)
  case addSp | subSp => exact format_one_field (n := 9) (m := 7) (by simp)
  case beq | bne | bcs | bcc | bmi | bpl | bvs | bvc | bhi | bls | bge | blt | bgt | ble | swi =>
    exact format_one_field (n := 8) (m := 8) (by simp)
  case b | blPrefix | blSuffix => exact format_one_field (n := 5) (m := 11) (by simp)
  case addHi | cmpHi | movHi => exact format_hi_regs (by simp)
  case blxSuffix => exact format_blxSuffix (by simp)
  case push | pop => exact format_stack (by simp)

theorem rowOf_mem (i : Instr) : rowOf i ∈ table := List.getElem_mem _

/-- A row builds instructions of its own constructor alone. -/
theorem rowOf_build {r : Row} (hr : r ∈ table) (w : Half) : rowOf (r.build w) = r := by
  have hrow : ∀ k : Fin table.length, rowOf (table[k].build w) = table[k] := by
    intro k
    fin_cases k <;> rfl
  obtain ⟨k, hk, rfl⟩ := List.getElem_of_mem hr
  exact hrow ⟨k, hk⟩

/-- Rows whose patterns differ in a bit that both masks fix have no half-word in common. -/
theorem not_covers_of_patterns_ne {a b : Row} (h : a.pattern &&& b.mask ≠ b.pattern &&& a.mask)
    (w : Half) : ¬(a.covers w = true ∧ b.covers w = true) := by
  rintro ⟨ha, hb⟩
  rw [covers_iff] at ha hb
  rw [← ha, ← hb, BitVec.and_assoc, BitVec.and_assoc, BitVec.and_comm a.mask] at h
  exact h rfl

theorem table_pairwise_disjoint :
    table.Pairwise fun a b => ∀ w : Half, ¬(a.covers w = true ∧ b.covers w = true) := by
  have hpatterns : table.Pairwise fun a b => a.pattern &&& b.mask ≠ b.pattern &&& a.mask := by
    decide
  exact hpatterns.imp not_covers_of_patterns_ne

theorem eq_of_covers {a b : Row} (ha : a ∈ table) (hb : b ∈ table) {w : Half}
    (hwa : a.covers w = true) (hwb : b.covers w = true) : a = b := by
  by_contra hne
  have hsymm : Std.Symm fun a b : Row => ∀ w : Half, ¬(a.covers w = true ∧ b.covers w = true) :=
    ⟨fun _ _ h w hw => h w hw.symm⟩
  exact table_pairwise_disjoint.forall ha hb hne w ⟨hwa, hwb⟩

theorem decode_of_covers {r : Row} (hr : r ∈ table) {w : Half} (hcov : r.covers w = true) :
    decode w = .ok (r.build w) := by
  unfold decode
  split
  next r' hfind =>
    have hcov' : r'.covers w = true := List.find?_some (p := fun r : Row => r.covers w) hfind
    rw [eq_of_covers (List.mem_of_find?_eq_some hfind) hr hcov' hcov]
  next hnone => exact absurd hcov (List.find?_eq_none.mp hnone r hr)

theorem exists_covers_of_decode {w : Half} {i : Instr} (h : decode w = .ok i) :
    ∃ r ∈ table, r.covers w = true ∧ r.build w = i := by
  unfold decode at h
  split at h
  next r hfind =>
    exact ⟨r, List.mem_of_find?_eq_some hfind,
      List.find?_some (p := fun r : Row => r.covers w) hfind, Except.ok.inj h⟩
  next => cases h

/-- `decode` and `encode` are inverse to each other. -/
theorem decode_ok_iff {w : Half} {i : Instr} : decode w = .ok i ↔ encode i = w := by
  rw [encode_eq_iff]
  constructor
  · intro h
    obtain ⟨r, hr, hcov, rfl⟩ := exists_covers_of_decode h
    rw [rowOf_build hr]
    exact ⟨hcov, rfl⟩
  · rintro ⟨hcov, hbuild⟩
    rw [decode_of_covers (rowOf_mem i) hcov, hbuild]

end Sys2Proof.Decode

namespace Sys2Proof.Proofs

open Sys2Proof.Decode

/-- Settles O1: an instruction's own row covers its half-word and reads it back, and no other row of
the table covers it. -/
theorem decodeOfEncode : Obligations.DecodeOfEncode := by
  unfold Obligations.DecodeOfEncode
  exact fun i => decode_ok_iff.mpr rfl

/-- Settles O2: the row that covers a half-word is the own row of the instruction it builds. -/
theorem encodeOfDecode : Obligations.EncodeOfDecode := by
  unfold Obligations.EncodeOfDecode
  exact fun w i => decode_ok_iff.mp

/-- Settles O3: any two patterns differ in a bit that both masks fix. -/
theorem tableRowsDisjoint : Obligations.TableRowsDisjoint := by
  unfold Obligations.TableRowsDisjoint
  exact ⟨rfl, table_pairwise_disjoint⟩

/-- Settles O4: each word is the encoding of the instruction named. -/
theorem sampleWordsDecode : Obligations.SampleWordsDecode := by
  unfold Obligations.SampleWordsDecode
  simp only [decode_ok_iff]
  decide

end Sys2Proof.Proofs
end

section
/-! PROOF. What a step runs (20_memory.md R55, 30_encoding.md R112), and the half-words that are no
instruction: which ones the table leaves out (R106), and that no instruction of the table ends in
`fault UndefinedInstruction` but those that an architecture version lacks. -/

namespace Sys2Proof.Decode

open Sys2Proof.Machine

/-! ### The half-words that the table leaves out (R106) -/

theorem decode_error_iff {w : Half} :
    (∃ e, decode w = .error e) ↔ ∀ r ∈ table, ¬r.covers w = true := by
  constructor
  · rintro ⟨e, he⟩ r hr hcov
    rw [decode_of_covers hr hcov] at he
    cases he
  · intro hnone
    have hfind : table.find? (fun r => r.covers w) = none := List.find?_eq_none.mpr hnone
    exact ⟨undefinedGroup w, by simp only [decode, hfind]⟩

theorem covers_iff_bytes {r : Row} {w : Half} : r.covers w = true ↔
    w.extractLsb' 8 8 &&& r.mask.extractLsb' 8 8 = r.pattern.extractLsb' 8 8 ∧
      w.extractLsb' 0 8 &&& r.mask.extractLsb' 0 8 = r.pattern.extractLsb' 0 8 := by
  rw [covers_iff, ← BitVec.extractLsb'_and, ← BitVec.extractLsb'_and, ← BitVec.extractLsb'_eq_self
    (x := w &&& r.mask), ← BitVec.extractLsb'_eq_self (x := r.pattern)]
  simpa using extractLsb'_eq_extractLsb'_iff (s := 0) (n := 8) (m := 8) (v := w &&& r.mask)
    (w := r.pattern)

/-- The top bytes of the half-words that R106 leaves undefined whatever the bits below are those
that agree with no row. -/
theorem undefinedByte_iff : ∀ h : BitVec 8, UndefinedHalf true (h ++ 0#8) ↔
    ∀ r ∈ table, h &&& r.mask.extractLsb' 8 8 ≠ r.pattern.extractLsb' 8 8 := by
  unfold UndefinedHalf
  decide

/-- Where rows differ below the top byte, bits 7 and 6 tell them apart and each value of these has a
row; but for the BLX suffix, which fixes bit 0. -/
theorem lowByte_cases : ∀ r ∈ table,
    (r.mask.extractLsb' 0 8 = 0#8 ∧ r.pattern.extractLsb' 0 8 = 0#8) ∨
    (r.mask = 0xF801#16 ∧ r.pattern = 0xE800#16) ∨
    ∀ q : BitVec 2, ∃ r' ∈ table,
      r'.mask.extractLsb' 8 8 = r.mask.extractLsb' 8 8 ∧
      r'.pattern.extractLsb' 8 8 = r.pattern.extractLsb' 8 8 ∧
      q &&& r'.mask.extractLsb' 6 2 = r'.pattern.extractLsb' 6 2 ∧
      r'.mask.extractLsb' 0 6 = 0#6 ∧ r'.pattern.extractLsb' 0 6 = 0#6 := by
  decide

theorem extractLsb'_topByte {w : Half} {i len : Nat} (hi : 8 ≤ i) (hlen : i + len ≤ 16) :
    (w.extractLsb' 8 8 ++ 0#8).extractLsb' i len = w.extractLsb' i len := by
  rw [BitVec.extractLsb'_append_eq_of_le hi]
  ext k hk
  simp only [BitVec.getElem_extractLsb', BitVec.getLsbD_extractLsb']
  rw [decide_eq_true (show i - 8 + k < 8 by omega), Bool.true_and,
    show 8 + (i - 8 + k) = i + k by omega]

/-- The first two groups of R106 are given by the top byte, the third one also by bit 0. -/
theorem undefinedHalf_true_iff {w : Half} : UndefinedHalf true w ↔
    UndefinedHalf true (w.extractLsb' 8 8 ++ 0#8) ∨
      (w.extractLsb' 11 5 = 0b11101#5 ∧ w.extractLsb' 0 1 = 1#1) := by
  have hbit : (w.extractLsb' 8 8 ++ 0#8).getLsbD 0 = false := by
    rw [BitVec.getLsbD_append]; rfl
  have hbit' : w.getLsbD 0 = true ↔ w.extractLsb' 0 1 = 1#1 := by
    rw [BitVec.getLsbD_eq_extractLsb', beq_iff_eq]
  simp only [UndefinedHalf, extractLsb'_topByte, hbit, hbit', Nat.reduceLeDiff, Nat.reduceAdd,
    Bool.true_eq_false, Bool.false_eq_true, false_and, and_false, or_false, le_refl, or_assoc]

/-- The table covers every half-word but those of the first three groups of R106. -/
theorem undefinedHalf_true_iff_decode {w : Half} :
    UndefinedHalf true w ↔ ∃ e, decode w = .error e := by
  rw [decode_error_iff, undefinedHalf_true_iff]
  constructor
  · rintro (hbyte | hblx) r hr hcov
    · exact undefinedByte_iff _ |>.mp hbyte r hr (covers_iff_bytes.mp hcov).1
    · have hrows : ∀ r ∈ table, r.pattern &&& 0xF801#16 ≠ 0xE801#16 &&& r.mask := by decide
      have hgroup := and_blxMask_iff.mpr hblx
      exact not_covers_of_patterns_ne (b := { r with mask := 0xF801#16, pattern := 0xE801#16 })
        (hrows r hr) w ⟨hcov, covers_iff.mpr hgroup⟩
  · intro hnone
    by_contra! hdef
    obtain ⟨hbyte, hblx⟩ := hdef
    rw [undefinedByte_iff] at hbyte
    push Not at hbyte
    obtain ⟨r, hr, htop⟩ := hbyte
    obtain ⟨hmask, hpat⟩ | ⟨hmask, hpat⟩ | hrows := lowByte_cases r hr
    · exact hnone r hr (covers_iff_bytes.mpr ⟨htop, by rw [hmask, hpat, BitVec.and_zero]⟩)
    · refine hnone r hr (covers_iff.mpr ?_)
      rw [hmask, hpat] at htop ⊢
      have hlead := (extractLsb'_extractLsb'_upper (n := 5) (m := 3)).symm.trans
        (and_leadingMask_iff (n := 5) (m := 3) (p := 0b11101#5).mp htop)
      have hbit : w.extractLsb' 0 1 = 0#1 := (BitVec.eq_zero_or_eq_one _).resolve_right (hblx hlead)
      exact and_blxMask_iff.mpr ⟨hlead, hbit⟩
    · obtain ⟨r', hr', hmask, hpat, hq, hmask0, hpat0⟩ := hrows (w.extractLsb' 6 2)
      refine hnone r' hr' (covers_iff_bytes.mpr ⟨hmask ▸ hpat ▸ htop, ?_⟩)
      rw [← BitVec.extractLsb'_and, extractLsb'_eq_extractLsb'_iff (n := 2) (m := 6),
        BitVec.extractLsb'_and, BitVec.extractLsb'_and, hmask0, hpat0, BitVec.and_zero]
      exact ⟨hq, rfl⟩

/-! ### The BLX forms (R106) -/

theorem exists_encode_blxReg_iff {w : Half} :
    (∃ rm sbz, encode (.blxReg rm sbz) = w) ↔ w.extractLsb' 7 9 = 0b010001111#9 := by
  simp only [encode_eq_iff, covers_iff]
  constructor
  · rintro ⟨rm, sbz, hcov, -⟩
    exact and_leadingMask_iff (n := 9) (m := 7).mp hcov
  · intro h
    exact ⟨hiM w, low3 w, and_leadingMask_iff (n := 9) (m := 7).mpr h, rfl⟩

theorem exists_encode_blxSuffix_iff {w : Half} :
    (∃ off10, encode (.blxSuffix off10) = w) ↔
      w.extractLsb' 11 5 = 0b11101#5 ∧ w.extractLsb' 0 1 = 0#1 := by
  simp only [encode_eq_iff, covers_iff]
  constructor
  · rintro ⟨off10, hcov, -⟩
    exact and_blxMask_iff.mp hcov
  · intro h
    exact ⟨imm10 w, and_blxMask_iff.mpr h, rfl⟩

theorem decode_onlyV5t_iff {w : Half} : (∃ i, decode w = .ok i ∧ onlyV5t i = true) ↔
    (∃ off10, encode (.blxSuffix off10) = w) ∨ ∃ rm sbz, encode (.blxReg rm sbz) = w := by
  simp only [decode_ok_iff]
  constructor
  · rintro ⟨i, hi, honly⟩
    cases i
    case blxSuffix off10 => exact .inl ⟨off10, hi⟩
    case blxReg rm sbz => exact .inr ⟨rm, sbz, hi⟩
    all_goals cases honly
  · rintro (⟨off10, h⟩ | ⟨rm, sbz, h⟩)
    · exact ⟨.blxSuffix off10, h, rfl⟩
    · exact ⟨.blxReg rm sbz, h, rfl⟩

/-- The fourth group of R106 holds the encodings of the instructions that v5T adds, and half-words of
the third group. -/
theorem undefinedHalf_iff {arch5t : Bool} {w : Half} : UndefinedHalf arch5t w ↔
    UndefinedHalf true w ∨ (arch5t = false ∧ ∃ i, decode w = .ok i ∧ onlyV5t i = true) := by
  have hbit : w.getLsbD 0 = true ↔ ¬w.extractLsb' 0 1 = 0#1 := by
    rw [BitVec.getLsbD_eq_extractLsb', beq_iff_eq]
    generalize w.extractLsb' 0 1 = x
    revert x
    decide
  rw [decode_onlyV5t_iff, exists_encode_blxReg_iff, exists_encode_blxSuffix_iff]
  simp only [UndefinedHalf, hbit]
  tauto

end Sys2Proof.Decode

namespace Sys2Proof.Machine

/-! ### What a step runs (R55, R112, R294) -/

theorem step_of_running {s : State} (h : s.Running) : step s = runInstruction s.tick := by
  obtain ⟨hended, hthumb, hdue⟩ := h
  simp [step, hended, hthumb, hdue]

/-- A fetch that can be performed delivers what its half-word decodes to. -/
theorem fetch_of_fetches {s : State} {w : Half} (h : s.Fetches w) : fetch s = .ok (decode w) := by
  obtain ⟨halign, hadm, rfl⟩ := h
  have hread : memRead .half .fetch s.pc s = .ok (s.load .half s.pc) :=
    memRead_ok.mpr ⟨by simpa [alignedTo, widthBytes] using halign, hadm, rfl⟩
  simp only [fetch, hread, State.instrBytes, decodeBytes]
  split
  next i hdec => simp [hdec, Except.map]
  next e hdec => simp [hdec, Except.map]

theorem step_of_decode_ok {s : State} {w : Half} {i : Instr} (hs : s.Running) (hw : s.Fetches w)
    (hi : decode w = .ok i) : step s = exec i s.tick := by
  have hfetch : fetch s.tick = .ok (decode w) := fetch_of_fetches (s := s.tick) hw
  rw [step_of_running hs, runInstruction, hfetch, hi]

theorem step_of_decode_error {s : State} {w : Half} {e : DecodeError} (hs : s.Running)
    (hw : s.Fetches w) (he : decode w = .error e) : step s = undefinedInstruction s.tick := by
  have hfetch : fetch s.tick = .ok (decode w) := fetch_of_fetches (s := s.tick) hw
  rw [step_of_running hs, runInstruction, hfetch, he]

/-! ### Which instructions end in `fault UndefinedInstruction` (R106, R124, R126) -/

theorem undefinedInstruction_of_not_traps {s : State} (h : s.params.undefTraps = false) :
    undefinedInstruction s = .fault .undefinedInstruction := by
  simp [undefinedInstruction, h]

section
variable {s : State}

theorem advance_defined : advance s ≠ .fault .undefinedInstruction := by
  unfold advance
  split <;> simp

theorem finishMove_defined (rd : RegNum) (v : Word) :
    finishMove rd v s ≠ .fault .undefinedInstruction := by
  unfold finishMove
  split
  · simp
  · exact advance_defined

theorem accessStop_defined (e : MemStop) : accessStop e s ≠ .fault .undefinedInstruction := by
  cases e <;> simp only [accessStop] <;> try simp
  split <;> simp

theorem finishLoad_defined (rd : Lo) (base : List RegNum) (w : Width) (ext : Word → Word)
    (a : Word) : finishLoad rd base w ext a s ≠ .fault .undefinedInstruction := by
  unfold finishLoad
  split
  · exact advance_defined
  · exact accessStop_defined _

theorem finishStore_defined (base : List RegNum) (w : Width) (a v : Word) :
    finishStore base w a v s ≠ .fault .undefinedInstruction := by
  unfold finishStore
  split
  · exact advance_defined
  · exact accessStop_defined _

theorem exchange_defined (v : Word) : exchange v s ≠ .fault .undefinedInstruction := by
  unfold exchange
  split
  · simp
  · split <;> simp

theorem branchIf_defined (c : Cond) (off : Word) :
    branchIf c off s ≠ .fault .undefinedInstruction := by
  unfold branchIf branchBy
  split
  · simp
  · exact advance_defined

theorem popPc_defined (v : Word) : popPc v s ≠ .fault .undefinedInstruction := by
  unfold popPc
  split
  · exact exchange_defined v
  · simp

/-- Every instruction that both versions have ends in another way. -/
theorem exec_defined {i : Instr} (hi : onlyV5t i = false) :
    exec i s ≠ .fault .undefinedInstruction := by
  cases i
  case blxReg | blxSuffix => cases hi
  case mulReg =>
    simp only [exec, execMulReg]
    split
    all_goals exact advance_defined
  case addHi | movHi =>
    simp only [exec, execAddHi, execMovHi]
    split
    · exact finishMove_defined _ _
    · simp
  case cmpHi =>
    simp only [exec, execCmpHi]
    split
    · simp
    · split
      · simp
      · exact advance_defined
  case addRdPc | addRdSp => exact finishMove_defined _ _
  case b => simp [exec, execB, branchBy]
  case blSuffix =>
    simp only [exec, execBlSuffix]
    split <;> simp
  case bx =>
    simp only [exec, execBx]
    split
    · simp
    · exact exchange_defined _
  case swi =>
    simp only [exec, execSwi, hostExit]
    split
    · simp
    · exact advance_defined
    · simp
  case ldrImm | ldrbImm | ldrhImm | ldrReg | ldrhReg | ldrshReg | ldrbReg | ldrsbReg | ldrPc |
      ldrSp =>
    exact finishLoad_defined _ _ _ _ _
  case strImm | strbImm | strhImm | strReg | strhReg | strbReg | strSp =>
    exact finishStore_defined _ _ _ _
  case ldmia =>
    simp only [exec, execLdmia]
    split
    · simp
    · split
      · exact advance_defined
      · exact accessStop_defined _
  case stmia =>
    simp only [exec, execStmia]
    split
    · simp
    · split
      · simp
      · split
        · exact advance_defined
        · exact accessStop_defined _
  case push =>
    simp only [exec, execPush]
    split
    · simp
    · split
      · exact advance_defined
      · exact accessStop_defined _
  case pop =>
    simp only [exec, execPop]
    split
    · simp
    · split
      · split
        · exact popPc_defined _
        · exact advance_defined
      · exact accessStop_defined _
  case beq | bne | bcs | bcc | bmi | bpl | bvs | bvc | bhi | bls | bge | blt | bgt | ble =>
    exact branchIf_defined _ _
  all_goals exact advance_defined

/-- Without the trap of R254 an instruction is undefined exactly where its version is missing. -/
theorem exec_undefined_iff {i : Instr} (htraps : s.params.undefTraps = false) :
    exec i s = .fault .undefinedInstruction ↔ onlyV5t i = true ∧ s.params.arch5t = false := by
  constructor
  · intro h
    have hi : onlyV5t i = true := by
      by_contra hi
      exact exec_defined (by simpa using hi) h
    refine ⟨hi, ?_⟩
    by_contra h5t
    rw [Bool.not_eq_false] at h5t
    cases i
    case blxSuffix => simp [exec, execBlxSuffix, h5t] at h
    case blxReg rm sbz =>
      simp only [exec, execBlxReg, h5t, Bool.not_true, Bool.false_eq_true, if_false] at h
      split at h
      · cases h
      · split at h
        · cases h
        · exact exchange_defined _ h
    all_goals cases hi
  · rintro ⟨hi, h5t⟩
    cases i
    case blxSuffix | blxReg =>
      simp [exec, execBlxSuffix, execBlxReg, h5t, undefinedInstruction_of_not_traps htraps]
    all_goals cases hi

end

end Sys2Proof.Machine

namespace Sys2Proof.Proofs

open Sys2Proof.Machine Sys2Proof.Decode

/-- Settles O7: the fetch delivers what the half-word decodes to, and the step runs it on the state
with the boundary's interrupt levels consumed. -/
theorem stepRunsDecoded : Obligations.StepRunsDecoded := by
  unfold Obligations.StepRunsDecoded
  intro s w i hs hw hi
  exact step_of_decode_ok hs hw hi

/-- Settles O5: a half-word of the first three groups does not decode, and of those that decode only
the BLX forms before v5T end in this fault. -/
theorem undefinedEncodingsFault : Obligations.UndefinedEncodingsFault := by
  unfold Obligations.UndefinedEncodingsFault
  intro s w hs htraps hw
  rw [undefinedHalf_iff, undefinedHalf_true_iff_decode]
  cases hdec : decode w with
  | error e =>
    rw [step_of_decode_error hs hw hdec, undefinedInstruction_of_not_traps (s := s.tick) htraps]
    simp
  | ok i =>
    rw [step_of_decode_ok hs hw hdec, exec_undefined_iff (s := s.tick) htraps]
    simp [and_comm]

end Sys2Proof.Proofs
end

section
/-! PROOF. The conditional branches (40_branch.md R120): where each goes, and when. -/

namespace Sys2Proof.Machine

/-- `sext_32(off : 0)` is twice the signed offset. -/
theorem signExtend_append_zero {n : Nat} (off : BitVec n) :
    (off ++ 0#1).signExtend 32 = BitVec.ofInt 32 (2 * off.toInt) := by
  rw [BitVec.signExtend, BitVec.toInt_append_zero, pow_one]

theorem branchTarget_eq (pc : Word) (off : Int) :
    branchTarget pc off = pc + 4#32 + BitVec.ofInt 32 off := by
  rw [branchTarget, BitVec.ofInt_add, BitVec.ofInt_add, BitVec.ofInt_toInt]
  rfl

/-- A branch on the condition `c` branches when `c` holds. -/
theorem branchesWhen_of_exec {taken : Prop} {i : Instr} {off8 : BitVec 8} {s : State} (c : Cond)
    (hexec : exec i s = branchIf c (offset8 off8) s) (hc : taken ↔ condHolds s.cpsr c = true) :
    BranchesWhen taken i off8 s := by
  rw [BranchesWhen, hexec, hc, branchTarget_eq, ← signExtend_append_zero]
  constructor
  · intro h
    rw [branchIf, if_pos h]
    rfl
  · intro h hpc
    rw [branchIf, if_neg h, advance_eq s hpc]

end Sys2Proof.Machine

namespace Sys2Proof.Proofs

open Sys2Proof.Machine

/-- Settles O41: the words are the encodings, and each branch is `branchIf` on its condition. -/
theorem conditionalBranches : Obligations.ConditionalBranches := by
  unfold Obligations.ConditionalBranches
  intro off8
  refine ⟨decodeOfEncode (.beq off8), decodeOfEncode (.bne off8), decodeOfEncode (.bcs off8),
    decodeOfEncode (.bcc off8), decodeOfEncode (.bmi off8), decodeOfEncode (.bpl off8),
    decodeOfEncode (.bvs off8), decodeOfEncode (.bvc off8), decodeOfEncode (.bhi off8),
    decodeOfEncode (.bls off8), decodeOfEncode (.bge off8), decodeOfEncode (.blt off8),
    decodeOfEncode (.bgt off8), decodeOfEncode (.ble off8), fun s =>
    ⟨branchesWhen_of_exec .eq rfl ?_, branchesWhen_of_exec .ne rfl ?_,
      branchesWhen_of_exec .cs rfl ?_, branchesWhen_of_exec .cc rfl ?_,
      branchesWhen_of_exec .mi rfl ?_, branchesWhen_of_exec .pl rfl ?_,
      branchesWhen_of_exec .vs rfl ?_, branchesWhen_of_exec .vc rfl ?_,
      branchesWhen_of_exec .hi rfl ?_, branchesWhen_of_exec .ls rfl ?_,
      branchesWhen_of_exec .ge rfl ?_, branchesWhen_of_exec .lt rfl ?_,
      branchesWhen_of_exec .gt rfl ?_, branchesWhen_of_exec .le rfl ?_⟩⟩
  all_goals simp [condHolds]

end Sys2Proof.Proofs
end

section
/-! PROOF. The operands and words that the spec gives no meaning (30_encoding.md R107). -/

namespace Sys2Proof.Machine

/-- What a word access loads is the word that the bytes of memory hold (R52, R54). -/
theorem State.load_word_of_readsAs {s : State} {a v : Word} (h : ReadsAs s 4 a.toNat v) :
    s.load .word a = v := by
  obtain ⟨hbytes, -⟩ := h
  have hjoin : s.load .word a = v.extractLsb' 24 8 ++ v.extractLsb' 16 8 ++ v.extractLsb' 8 8 ++
      v.extractLsb' 0 8 := by
    rw [hbytes 0 (by decide), hbytes 1 (by decide), hbytes 2 (by decide), hbytes 3 (by decide)]
    cases hbig : s.params.bigEnd
    all_goals simp [State.load, joinWord, hbig]
  rw [hjoin, append_bytes_word]

theorem exchange_unpredictable {s : State} {v : Word} (hv : v.extractLsb' 0 2 = 0b10#2) :
    exchange v s = .fault .unpredictable := by
  have hbit0 : v.getLsbD 0 = false := by
    simpa using congrArg (BitVec.getLsbD · 0) hv
  have hbit1 : v.getLsbD 1 = true := by
    simpa using congrArg (BitVec.getLsbD · 1) hv
  simp only [exchange, hbit0, hbit1, Bool.false_eq_true, if_false, if_true]

theorem exec_unpredictable_of_lo_regs {s : State} {rd rm : RegNum} (hd : rd.getLsbD 3 = false)
    (hm : rm.getLsbD 3 = false) : exec (.addHi rd rm) s = .fault .unpredictable ∧
      exec (.cmpHi rd rm) s = .fault .unpredictable ∧
      exec (.movHi rd rm) s = .fault .unpredictable := by
  have hlo : WellFormed.namesHi rd rm = false := by
    rw [WellFormed.namesHi, hd, hm, Bool.or_false]
  simp [exec, execAddHi, execCmpHi, execMovHi, hlo]

theorem execCmpHi_pc (rm : RegNum) (s : State) : execCmpHi 15#4 rm s = .fault .unpredictable := by
  simp [execCmpHi]

theorem execBx_sbz {rm : RegNum} {sbz : BitVec 3} (h : sbz ≠ 0#3) (s : State) :
    execBx rm sbz s = .fault .unpredictable := if_pos h

theorem execBlxReg_unpredictable {s : State} (h5t : s.params.arch5t = true) {rm : RegNum}
    {sbz : BitVec 3} (h : sbz ≠ 0#3 ∨ rm = 15#4) : execBlxReg rm sbz s = .fault .unpredictable := by
  simp only [execBlxReg, h5t, Bool.not_true, Bool.false_eq_true, if_false]
  split
  · rfl
  next hsbz => exact if_pos (h.resolve_left hsbz)

theorem execStmia_not_lowest {rn : Lo} {l : BitVec 8} (hrn : l.getLsbD rn.toNat = true)
    (hlow : ∃ j < rn.toNat, l.getLsbD j = true) (s : State) :
    execStmia rn l s = .fault .unpredictable := by
  have hl : l ≠ 0#8 := by rintro rfl; simp at hrn
  simp only [execStmia, if_neg hl, hrn, Bool.true_and, if_true, (lowerInList_iff rn l).mpr hlow]

/-- POP with the PC, under v5T, of a word with bits 1:0 = 10 (R234). -/
theorem execPop_unpredictable {s : State} {l : BitVec 8} {v : Word} (h5t : s.params.arch5t = true)
    (hwords : s.allowsWords .read s.sp (listCount l + 1))
    (hv : ReadsAs s 4 (s.sp.toNat + 4 * listCount l) v) (hbits : v.extractLsb' 0 2 = 0b10#2) :
    execPop true l s = .fault .unpredictable := by
  have hn : stackCount true l ≠ 0 := Nat.succ_ne_zero _
  obtain ⟨vs, hvs⟩ := multiRead_of_allowsWords hn hwords
  obtain ⟨-, -, hreads⟩ := multiRead_ok.mp hvs
  obtain ⟨hlen, hread⟩ := readWords_ok hreads
  have hk : listCount l < vs.length := by rw [hlen]; exact Nat.lt_succ_self _
  have hlast : vs.getD (listCount l) 0#32 = v := by
    obtain ⟨htop, -⟩ := hwords
    obtain ⟨hload, -, -⟩ := hread _ hk
    rw [List.getD_eq_getElem _ _ hk, hload]
    apply State.load_word_of_readsAs
    rwa [toNat_wordAddr _ _ (by omega)]
  obtain ⟨-, -, -, hparams, -⟩ := s.setList_keeps (listRegs l) vs
  simp only [execPop, if_neg hn, hvs, if_true, hlast, popPc, State.setSp_params, hparams, h5t]
  exact exchange_unpredictable hbits

end Sys2Proof.Machine

namespace Sys2Proof.Proofs

open Sys2Proof.Machine

/-- Settles O28: each combination fails the check its instruction makes first; POP reads its word,
and the exchange refuses it. -/
theorem constrainedFieldsFault : Obligations.ConstrainedFieldsFault := by
  unfold Obligations.ConstrainedFieldsFault
  intro s
  refine ⟨fun _ _ => exec_unpredictable_of_lo_regs, fun rm => execCmpHi_pc rm s,
    fun rm sbz h => ⟨execBx_sbz h s, fun h5t => execBlxReg_unpredictable h5t (.inl h)⟩,
    fun sbz h5t => execBlxReg_unpredictable h5t (.inr rfl), fun rm h => exchange_unpredictable h,
    fun rn => ⟨rfl, rfl⟩, rfl, rfl, fun rn l hrn hlow => execStmia_not_lowest hrn hlow s, ?_, ?_⟩
  · intro l v h5t hwords hv hbits
    rw [listSize_eq] at hwords hv
    exact execPop_unpredictable h5t hwords hv hbits
  · exact fun off11 hodd => if_pos hodd

end Sys2Proof.Proofs
end

section
/-! PROOF. The branches that link or change the instruction set (40_branch.md R121 to R129): their
targets, the link they leave, and which instructions can leave Thumb state. -/

namespace Sys2Proof.Machine

/-! ### The offsets of BL and BLX (R122 to R124) -/

/-- `sext_32(off11) << 12` is the signed offset times 4096. -/
theorem offsetHigh_eq (off11 : BitVec 11) :
    offsetHigh off11 = BitVec.ofInt 32 (4096 * off11.toInt) := by
  rw [offsetHigh, BitVec.shiftLeft_eq_mul_twoPow, BitVec.signExtend, mul_comm, BitVec.ofInt_mul]
  rfl

theorem offsetLow_eq (off11 : BitVec 11) : offsetLow off11 = BitVec.ofNat 32 (2 * off11.toNat) := by
  apply BitVec.eq_of_toNat_eq
  simp [offsetLow]
  omega

/-- The field of the BLX suffix ends in the 0 of the encoding, so its offset is a multiple of 4. -/
theorem offsetLowX_eq (off10 : BitVec 10) :
    offsetLowX off10 = BitVec.ofNat 32 (4 * off10.toNat) := by
  have hfield : (off10 ++ 0#1).toNat = 2 * off10.toNat := by
    rw [BitVec.toNat_append]
    simp [Nat.shiftLeft_eq, mul_comm]
  apply BitVec.eq_of_toNat_eq
  simp [offsetLowX, hfield, Nat.shiftLeft_eq]
  omega

theorem even_offsetHigh (off11 : BitVec 11) : (offsetHigh off11).getLsbD 0 = false := by
  simp [offsetHigh]

/-! ### The target and the link of a pair (R127) -/

theorem branchTarget_add (pc : Word) (off : Int) (n : Nat) :
    branchTarget pc off + BitVec.ofNat 32 n = branchTarget pc (off + n) := by
  rw [branchTarget_eq, branchTarget_eq, BitVec.ofInt_add, BitVec.ofInt_natCast, BitVec.add_assoc]

/-- The offset `hi : lo : 0...0` of a pair is the signed high field and the unsigned low field, each
at its place. -/
theorem toInt_pairOffset {n m : Nat} (hi : BitVec 11) (lo : BitVec n) :
    (hi ++ lo ++ 0#m).toInt = 2 ^ m * 2 ^ n * hi.toInt + (2 ^ m * lo.toNat : Nat) := by
  rw [BitVec.toInt_append_zero, BitVec.toInt_append, if_neg (by decide), mul_add, mul_assoc]
  push_cast
  rfl

theorem blPair_target (pc : Word) (hi lo : BitVec 11) :
    pc + 4#32 + offsetHigh hi + offsetLow lo = branchTarget pc (hi ++ lo ++ 0#1).toInt := by
  rw [offsetHigh_eq, offsetLow_eq, ← branchTarget_eq, branchTarget_add, toInt_pairOffset]
  rfl

theorem blxPair_target (pc : Word) (hi : BitVec 11) (lo10 : BitVec 10) :
    pc + 4#32 + offsetHigh hi + offsetLowX lo10 = branchTarget pc (hi ++ lo10 ++ 0#2).toInt := by
  rw [offsetHigh_eq, offsetLowX_eq, ← branchTarget_eq, branchTarget_add, toInt_pairOffset]
  rfl

/-- From an even address `A` the suffix at `A + 2` links to the instruction after it, bit 0 set. -/
theorem pairLink_eq {pc : Word} (hpc : pc.getLsbD 0 = false) :
    pc + 2#32 + 3#32 = (pc + 4#32) ||| 1#32 := by
  have heven : (pc + 4#32) &&& 1#32 = 0#32 := by
    rw [BitVec.and_one_eq_setWidth_ofBool_getLsbD, even_add _ _ hpc (by decide)]
    rfl
  rw [← BitVec.add_eq_or_of_and_eq_zero _ _ heven, BitVec.add_assoc, BitVec.add_assoc]
  rfl

/-! ### A branch with link: LR and the pc are written, and T where it enters ARM state -/

/-- The state with `link` in LR, going on at `target`. -/
def State.linkTo (s : State) (link target : Word) : State := { s.setLr link with pc := target }

/-- The state in ARM state. -/
def State.toArm (s : State) : State := { s with cpsr := { s.cpsr with t := false } }

@[simp] theorem State.linkTo_pc (s : State) (link target : Word) :
    (s.linkTo link target).pc = target := rfl

@[simp] theorem State.linkTo_lr (s : State) (link target : Word) :
    (s.linkTo link target).lr = link := s.lr_setLr link

@[simp] theorem State.linkTo_params (s : State) (link target : Word) :
    (s.linkTo link target).params = s.params := s.setLr_params link

/-- The later of two branches with link decides. -/
@[simp] theorem State.linkTo_linkTo (s : State) (link target link' target' : Word) :
    (s.linkTo link target).linkTo link' target' = s.linkTo link' target' := by
  simp [State.linkTo, State.setLr, State.setReg, State.setBankReg]

theorem keepsFlags_linkTo (s : State) (link target : Word) : KeepsFlags s (s.linkTo link target) :=
  (((RegsOnly.refl s).setLr link).keeps target).1

theorem touchesOnly_linkTo (s : State) (link target : Word) :
    TouchesOnly [14#4] s (s.linkTo link target) := by
  obtain ⟨-, hcontrol, hsaved, houtside, hmem, hdraws, -, -⟩ :=
    ((RegsOnly.refl s).setLr link).keeps target
  refine ⟨fun k hk => ?_, hcontrol, hsaved, houtside, hmem, hdraws⟩
  exact (s.regs_get_setLr link k).trans (if_neg (hk 14#4 (by simp)))

theorem entersArm_linkTo (s : State) (link target : Word) :
    EntersArm [14#4] target s (s.linkTo link target).toArm := by
  obtain ⟨hregs, -, hsaved, houtside, hmem, hdraws⟩ := touchesOnly_linkTo s link target
  exact ⟨hregs, by simp [State.toArm, State.linkTo], rfl, hsaved, houtside, hmem, hdraws⟩

theorem staysThumb_linkTo {s : State} (hthumb : s.cpsr.t = true) (link target : Word) :
    StaysThumb [14#4] target s (s.linkTo link target) := by
  obtain ⟨-, ⟨-, -, -, ht, -⟩, -⟩ := touchesOnly_linkTo s link target
  exact ⟨rfl, ht.trans hthumb, keepsFlags_linkTo s link target, touchesOnly_linkTo s link target⟩

/-! ### What each branch answers -/

theorem exec_blPrefix {s : State} (hpc : s.pc ≠ 0xFFFFFFFE#32) (off11 : BitVec 11) :
    exec (.blPrefix off11) s =
      .next (s.linkTo (s.pc + 4#32 + offsetHigh off11) (s.pc + 2#32)) := by
  have hpc' : (s.setLr (s.pc + 4#32 + offsetHigh off11)).pc ≠ 0xFFFFFFFE#32 := by
    rwa [State.setLr_pc]
  rw [exec, execBlPrefix, advance_eq _ hpc', State.setLr_pc]
  rfl

theorem exec_blSuffix {s : State} (hlr : s.lr.getLsbD 0 = false) (off11 : BitVec 11) :
    exec (.blSuffix off11) s = .next (s.linkTo (s.pc + 3#32) (s.lr + offsetLow off11)) :=
  if_neg (Bool.eq_false_iff.mp hlr)

theorem exec_blxSuffix {s : State} (h5t : s.params.arch5t = true) (off10 : BitVec 10) :
    exec (.blxSuffix off10) s = .next
      (s.linkTo (s.pc + 3#32) ((s.lr + offsetLowX off10) &&& 0xFFFFFFFC#32)).toArm := by
  simp [exec, execBlxSuffix, h5t, State.linkTo, State.toArm, State.linkValue]

/-- A value with bit 0 set keeps Thumb state, at the value with bit 0 cleared (R125). -/
theorem exchange_thumb {v : Word} (hv : v.getLsbD 0 = true) (s : State) : exchange v s =
    .next { s with pc := v &&& 0xFFFFFFFE#32, cpsr := { s.cpsr with t := true } } :=
  exchange_next.mpr (.inl ⟨hv, rfl⟩)

/-- A word address enters ARM state there (R125). -/
theorem exchange_arm {v : Word} (hv : v.extractLsb' 0 2 = 0b00#2) (s : State) : exchange v s =
    .next { s with pc := v, cpsr := { s.cpsr with t := false } } := by
  have hbit0 : v.getLsbD 0 = false := by
    simpa using congrArg (BitVec.getLsbD · 0) hv
  have hbit1 : v.getLsbD 1 = false := by
    simpa using congrArg (BitVec.getLsbD · 1) hv
  exact exchange_next.mpr (.inr ⟨hbit0, hbit1, rfl⟩)

/-- BLX exchanges at the value that `Rm` held before LR is written (R126). -/
theorem exec_blxReg {s : State} (h5t : s.params.arch5t = true) {rm : RegNum} (hrm : rm ≠ 15#4) :
    exec (.blxReg rm 0#3) s = exchange (s.reg rm) (s.setLr (s.pc + 3#32)) := by
  simp [exec, execBlxReg, h5t, hrm, State.linkValue]

/-- In Thumb state an exchange that stays there is a plain branch. -/
theorem exchange_setLr_thumb {s : State} (hthumb : s.cpsr.t = true) {v : Word}
    (hv : v.getLsbD 0 = true) (link : Word) :
    exchange v (s.setLr link) = .next (s.linkTo link (v &&& 0xFFFFFFFE#32)) := by
  have ht : (s.setLr link).cpsr.t = true := by rw [State.setLr_cpsr, hthumb]
  rw [exchange_thumb hv, ← ht]
  rfl

theorem exchange_setLr_arm {v : Word} (hv : v.extractLsb' 0 2 = 0b00#2) (s : State) (link : Word) :
    exchange v (s.setLr link) = .next (s.linkTo link v).toArm :=
  exchange_arm hv _

/-! ### The pairs (R127) -/

/-- The first half leaves an even LR, from which the second half branches. -/
theorem exec_blSuffix_afterPrefix {s : State} (heven : s.pc.getLsbD 0 = false)
    (hi lo : BitVec 11) :
    exec (.blSuffix lo) (s.linkTo (s.pc + 4#32 + offsetHigh hi) (s.pc + 2#32)) = .next
      (s.linkTo ((s.pc + 4#32) ||| 1#32) (branchTarget s.pc (hi ++ lo ++ 0#1).toInt)) := by
  have htarget : (s.pc + 4#32 + offsetHigh hi).getLsbD 0 = false :=
    even_add _ _ (even_add _ _ heven (by decide)) (even_offsetHigh hi)
  rw [exec_blSuffix (by rwa [State.linkTo_lr]), State.linkTo_linkTo, State.linkTo_lr,
    State.linkTo_pc, pairLink_eq heven, blPair_target]

/-- The second half of BLX clears the two low bits of the same sum. -/
theorem exec_blxSuffix_afterPrefix {s : State} (heven : s.pc.getLsbD 0 = false)
    (h5t : s.params.arch5t = true) (hi : BitVec 11) (lo10 : BitVec 10) :
    exec (.blxSuffix lo10) (s.linkTo (s.pc + 4#32 + offsetHigh hi) (s.pc + 2#32)) = .next
      (s.linkTo ((s.pc + 4#32) ||| 1#32)
        (branchTarget s.pc (hi ++ lo10 ++ 0#2).toInt &&& 0xFFFFFFFC#32)).toArm := by
  rw [exec_blxSuffix (by rwa [State.linkTo_params]), State.linkTo_linkTo, State.linkTo_lr,
    State.linkTo_pc, pairLink_eq heven, blxPair_target]

/-! ### What can leave Thumb state (R129) -/

/-- An instruction that ends in ARM state exchanges, or takes an exception. -/
theorem exec_leavesThumb {i : Instr} {s t : State} (hthumb : s.cpsr.t = true)
    (h : exec i s = .next t) (harm : t.cpsr.t = false) :
    exchanges s.params.arch5t i = true ∨ (∃ n, i = .swi n) ∨
      (accessesMemory i = true ∧ s.params.abortTraps = true) ∨
      (onlyV5t i = true ∧ s.params.arch5t = false ∧ s.params.undefTraps = true) := by
  cases exec_cases h with
  | ordinary hord =>
    obtain hkept | hset | hexch := hord.thumb
    · rw [hkept, hthumb] at harm
      cases harm
    · rw [hset] at harm
      cases harm
    · exact .inl hexch
  | exception e u hint ht why =>
    obtain ⟨-, n, hswi, -⟩ | ⟨-, habort⟩ | ⟨-, hundef⟩ := why
    · exact .inr (.inl ⟨n, hswi⟩)
    · exact .inr (.inr (.inl habort))
    · exact .inr (.inr (.inr hundef))

end Sys2Proof.Machine

namespace Sys2Proof.Proofs

open Sys2Proof.Machine

/-- Settles O21: every other end of an instruction keeps T or sets it. -/
theorem thumbStateLeftOnlyBy : Obligations.ThumbStateLeftOnlyBy := by
  unfold Obligations.ThumbStateLeftOnlyBy
  intro i s t hthumb h harm
  exact exec_leavesThumb hthumb h harm

/-- Settles O43: the first half is a write of LR and an advance; the second branches from the LR it
finds before it writes the link. -/
theorem branchLinkHalves : Obligations.BranchLinkHalves := by
  unfold Obligations.BranchLinkHalves
  intro off11 s
  refine ⟨decodeOfEncode (.blPrefix off11), decodeOfEncode (.blSuffix off11), fun hpc => ?_,
    fun hlr => ?_, fun hodd => if_pos hodd⟩
  · refine ⟨_, exec_blPrefix hpc off11, ?_, keepsFlags_linkTo s _ _, touchesOnly_linkTo s _ _, rfl⟩
    rw [branchTarget_eq, ← offsetHigh_eq]
    exact s.linkTo_lr _ _
  · refine ⟨_, exec_blSuffix hlr off11, s.linkTo_lr _ _, ?_, keepsFlags_linkTo s _ _,
      touchesOnly_linkTo s _ _⟩
    rw [State.linkTo_pc, offsetLow_eq]

/-- Settles O44: the LR that the first half leaves holds the high part of the target, and the link
that the second half writes over it is the only other effect. -/
theorem branchLinkPairs : Obligations.BranchLinkPairs := by
  unfold Obligations.BranchLinkPairs
  intro hi lo lo10 s heven hpc
  refine ⟨⟨_, _, exec_blPrefix hpc hi, exec_blSuffix_afterPrefix heven hi lo, rfl,
    s.linkTo_lr _ _, keepsFlags_linkTo s _ _, touchesOnly_linkTo s _ _⟩, fun h5t => ?_⟩
  exact ⟨_, _, exec_blPrefix hpc hi, exec_blxSuffix_afterPrefix heven h5t hi lo10,
    s.linkTo_lr _ _, entersArm_linkTo s _ _⟩

/-- Settles O45: the mask applies to the sum of the old LR and the offset; before v5T the encoding
is no instruction. -/
theorem blxSuffixResult : Obligations.BlxSuffixResult := by
  unfold Obligations.BlxSuffixResult
  intro off10 s
  refine ⟨decodeOfEncode (.blxSuffix off10), fun h5t => ?_, fun h4 htraps =>
    (exec_undefined_iff htraps).mpr ⟨rfl, h4⟩⟩
  refine ⟨_, exec_blxSuffix h5t off10, s.linkTo_lr _ _, ?_⟩
  rw [← offsetLowX_eq]
  exact entersArm_linkTo s _ _

/-- Settles O47: the exchange of BX at the old value of `Rm`, from the state whose LR holds the
link. -/
theorem branchLinkExchangeResult : Obligations.BranchLinkExchangeResult := by
  unfold Obligations.BranchLinkExchangeResult
  intro rm sbz s
  refine ⟨decodeOfEncode (.blxReg rm 0#3), fun h5t hthumb => ⟨fun hrm hv => ?_, fun hrm hv => ?_,
    fun hrm hv => ?_, fun h => execBlxReg_unpredictable h5t h.symm⟩, fun h4 htraps =>
    (exec_undefined_iff htraps).mpr ⟨rfl, h4⟩⟩
  · rw [exec_blxReg h5t hrm, exchange_setLr_thumb hthumb hv]
    exact ⟨_, rfl, s.linkTo_lr _ _, staysThumb_linkTo hthumb _ _⟩
  · rw [exec_blxReg h5t hrm, exchange_setLr_arm hv]
    exact ⟨_, rfl, s.linkTo_lr _ _, entersArm_linkTo s _ _⟩
  · rw [exec_blxReg h5t hrm, exchange_unpredictable hv]

/-- Settles O42: `sext_32(off11 : 0)` is twice the signed offset. -/
theorem unconditionalBranch : Obligations.UnconditionalBranch := by
  unfold Obligations.UnconditionalBranch
  intro off11 s
  refine ⟨decodeOfEncode (.b off11), ?_⟩
  rw [branchTarget_eq, ← signExtend_append_zero]
  rfl

/-- Settles O46: bit 0 of the register, then bit 1, decides which of the three exchanges is made. -/
theorem branchExchangeResult : Obligations.BranchExchangeResult := by
  unfold Obligations.BranchExchangeResult
  intro rm sbz s
  exact ⟨decodeOfEncode (.bx rm 0#3), rfl, fun hv => exchange_thumb hv s,
    fun hv => exchange_arm hv s, fun hv => exchange_unpredictable hv, fun h => execBx_sbz h s⟩

end Sys2Proof.Proofs
end

section
/-! PROOF. The software interrupt (41_swi.md R142): what the host table answers for each number, the
two host actions, and the entry to the exception for a number the table has no entry for. -/

namespace Sys2Proof.Machine

/-! ### The entry to an exception other than Reset (60_exceptions.md R252) -/

/-- The masking of FIQ is by the two exceptions that R252 names. -/
theorem Exception.disablesFiq_eq (e : Exception) : e.disablesFiq = (e == .reset || e == .fiq) := by
  cases e <;> rfl

/-- Every exception but Reset links to its offset from the pc and saves the CPSR. -/
theorem entered_takeException {e : Exception} (he : e ≠ .reset) (s : State) :
    Entered e (s.pc + e.linkOffset) s.cpsr s (takeException e s) := by
  have hlink : (takeException e s).bankReg e.mode 14#4 = s.pc + e.linkOffset :=
    (takeException_regs e s he _).trans (if_pos rfl)
  have hsaved : (takeException e s).spsr e.mode = some s.cpsr := by
    rw [takeException_spsr e s he, if_pos rfl]
  have hfiq : (takeException e s).cpsr.f = (s.cpsr.f || (e == .reset || e == .fiq)) := by
    rw [takeException_cpsr, Psr.entered_f, Exception.disablesFiq_eq]
  have hflags : KeepsFlags s (takeException e s) := by simp [KeepsFlags]
  have hregs : ∀ k : Fin 30, k ≠ slot e.mode 14#4 →
      (takeException e s).regs.get k = s.regs.get k := fun k hk => by
    rw [takeException_regs e s he, if_neg hk]
  have hspsrs : ∀ m, m ≠ e.mode → (takeException e s).spsr m = s.spsr m := fun m hm => by
    rw [takeException_spsr e s he, if_neg hm]
  have houtside : KeepsOutside s (takeException e s) := by simp [KeepsOutside]
  have hmem : KeepsMemory s (takeException e s) := State.byteAt_congr (takeException_mem e s)
  refine ⟨hlink, hsaved, ?_, ?_, ?_, hfiq, takeException_pc e s, hflags, ?_, hregs, hspsrs,
    houtside, hmem⟩ <;> simp

/-! ### The host table (R142) -/

variable {s : State} {n : BitVec 8}

/-- The table of R142 has an entry for 0x00 and for 0x11, and for no other number. -/
theorem State.hostAction_standardHost (h : s.params.swiHost = some Config.standardHost)
    (n : BitVec 8) : s.hostAction n =
      if n = 0x00#8 then some .writeC else if n = 0x11#8 then some .exit else none := by
  simp only [State.hostAction, h, Config.standardHost]
  by_cases h0 : n = 0x00#8
  · subst h0
    rfl
  · by_cases h11 : n = 0x11#8
    · subst h11
      rfl
    · simp [h0, h11, Ne.symm h0, Ne.symm h11]

/-! ### What SWI answers for each entry, and for none -/

theorem exec_swi_writeC (h : s.hostAction n = some .writeC) (hpc : s.pc ≠ 0xFFFFFFFE#32) :
    exec (.swi n) s = .next
      { s with output := s.output ++ [(s.lo 0#3).extractLsb' 0 8], pc := s.pc + 2#32 } := by
  simp only [exec, execSwi, h, hostWriteC]
  exact advance_eq _ hpc

theorem exec_swi_exit (h : s.hostAction n = some .exit) :
    exec (.swi n) s = .next { s with ended := true } := by
  simp only [exec, execSwi, h, hostExit]

theorem exec_swi_none (h : s.hostAction n = none) :
    exec (.swi n) s = .next (takeException .swi s) := by
  simp only [exec, execSwi, h]

/-- No step follows the end of the run (R299). -/
theorem step_of_ended (h : s.ended = true) : step s = .refused .runEnded := if_pos h

end Sys2Proof.Machine

namespace Sys2Proof.Proofs

open Sys2Proof.Machine

/-- Settles O19: the number selects the entry of the table, or none. -/
theorem swiHostActions : Obligations.SwiHostActions := by
  unfold Obligations.SwiHostActions
  intro imm8 s htable
  have haction := State.hostAction_standardHost htable imm8
  refine ⟨fun h0 => ?_, fun h11 => ?_, fun h0 h11 => ?_⟩
  · have hwrite : s.hostAction imm8 = some .writeC := by rw [haction, if_pos h0]
    exact ⟨exec_swi_writeC hwrite, fun htop => execSwi_top htop hwrite⟩
  · have hexit : s.hostAction imm8 = some .exit := by rw [haction, h11]; rfl
    exact ⟨exec_swi_exit hexit, step_of_ended rfl⟩
  · have hnone : s.hostAction imm8 = none := by rw [haction, if_neg h0, if_neg h11]
    exact ⟨_, exec_swi_none hnone, entered_takeException (by decide) s⟩

end Sys2Proof.Proofs
end

section
/-! PROOF. Data processing, the ways its instructions end (42_data_processing.md R150 to R152): the
flags in exact arithmetic, and the frame that every instruction of the family has. -/

namespace Sys2Proof.Machine

/-! ### The flags of a sum and of a difference (R150, R152) -/

/-- Narrowing to 32 bits keeps an integer exactly when a signed word holds it. -/
theorem toInt_ofInt_ne_self (x : Int) :
    decide ((BitVec.ofInt 32 x).toInt ≠ x) = outOfRange x := by
  rw [BitVec.toInt_ofInt, Int.bmod_def, outOfRange, ← Bool.decide_or, decide_eq_decide]
  split <;> omega

theorem addWithCarry_value (a b : Word) (c : Bool) :
    (addWithCarry a b c).value = a + b + BitVec.ofNat 32 c.toNat := by
  simp [addWithCarry, BitVec.ofNat_add]

theorem addWithCarry_carry (a b : Word) (c : Bool) :
    (addWithCarry a b c).carry = decide (4294967296 ≤ a.toNat + b.toNat + c.toNat) := rfl

/-- The result is the signed sum narrowed, so it differs from a sum that is out of range. -/
theorem addWithCarry_overflow (a b : Word) (c : Bool) :
    (addWithCarry a b c).overflow = outOfRange (a.toInt + b.toInt + c.toNat) := by
  have hvalue : (addWithCarry a b c).value = BitVec.ofInt 32 (a.toInt + b.toInt + c.toNat) := by
    rw [addWithCarry_value, BitVec.ofInt_add, BitVec.ofInt_add, BitVec.ofInt_toInt,
      BitVec.ofInt_toInt, BitVec.ofInt_natCast]
  rw [← toInt_ofInt_ne_self, ← hvalue]
  rfl

theorem addWithCarry_comm (a b : Word) (c : Bool) : addWithCarry a b c = addWithCarry b a c := by
  simp only [addWithCarry, Nat.add_comm a.toNat, Int.add_comm a.toInt]

/-- `setNZ` in the words of the statements (R11, R28). -/
theorem flagsNZ_iff {r : Word} {t : State} :
    FlagsNZ r t ↔ t.cpsr.n = r.getLsbD 31 ∧ t.cpsr.z = (r == 0#32) := by
  have hneg : r.getLsbD 31 = decide (r.toInt < 0) := by
    rw [← BitVec.msb_eq_toInt, BitVec.msb_eq_getLsbD_last]
  have hzero : (r == 0#32) = decide (r.toNat = 0) := by
    rw [Bool.eq_iff_iff, beq_iff_eq, decide_eq_true_iff, BitVec.toNat_eq]
    rfl
  rw [FlagsNZ, hneg, hzero]

theorem flagsOfSum_of_setArith {p : Psr} {a b : Word} {c : Bool} {t : State}
    (h : t.cpsr = p.setArith (addWithCarry a b c)) : FlagsOfSum a b c t := by
  rw [FlagsOfSum, flagsNZ_iff, h, ← addWithCarry_value, ← addWithCarry_carry,
    ← addWithCarry_overflow]
  exact ⟨⟨rfl, rfl⟩, rfl, rfl⟩

/-! ### A difference is the sum with the complement (R150) -/

theorem add_not_add_carry (a b : Word) (c : Bool) :
    a + ~~~b + BitVec.ofNat 32 c.toNat = a - b - BitVec.ofNat 32 (!c).toNat := by
  cases c
  · change a + ~~~b + 0#32 = a - b - 1#32
    bv_omega
  · change a + ~~~b + 1#32 = a - b - 0#32
    bv_omega

theorem toInt_not_word (b : Word) : (~~~b).toInt = -b.toInt - 1 := by
  rw [BitVec.toInt_eq_toNat_cond, BitVec.toInt_eq_toNat_cond, BitVec.toNat_not]
  have := b.isLt
  split <;> split <;> omega

/-- The carry out of the sum is 1 exactly when the difference needs no borrow. -/
theorem flagsOfDifference_iff {a b : Word} {c : Bool} {t : State} :
    FlagsOfDifference a b (!c) t ↔ FlagsOfSum a (~~~b) c t := by
  have hborrow : (!c).toNat + c.toNat = 1 := by cases c <;> rfl
  have hcarry : 4294967296 ≤ a.toNat + (~~~b).toNat + c.toNat ↔
      b.toNat + (!c).toNat ≤ a.toNat := by
    rw [BitVec.toNat_not]
    omega
  have hsigned : a.toInt + (~~~b).toInt + c.toNat = a.toInt - b.toInt - (!c).toNat := by
    rw [toInt_not_word]
    omega
  rw [FlagsOfDifference, FlagsOfSum, add_not_add_carry, hsigned]
  simp only [hcarry]

theorem subtracted_iff {rd : Lo} {a b : Word} {c : Bool} {s t : State} :
    Subtracted rd a b (!c) s t ↔ Summed rd a (~~~b) c s t := by
  rw [Subtracted, Summed, flagsOfDifference_iff, add_not_add_carry]

/-! ### The frame of data processing -/

/-- The end of an instruction that writes the registers `ds` and leaves the status register `p`: it
goes on to the next instruction and nothing else changed. -/
structure Completed (ds : List RegNum) (p : Psr) (s t : State) : Prop where
  cpsr : t.cpsr = p
  frame : TouchesOnly ds s t
  pc : t.pc = s.pc + 2#32

theorem keepsRegs_setReg {rd : RegNum} (h : rd ≠ 15#4) (s : State) (v : Word) :
    KeepsRegs [rd] s (s.setReg rd v) := fun k hk => by
  rw [s.regs_get_setReg rd v k h, if_neg (hk rd (by simp))]

/-- From a state that differs from `s` in the registers `ds` alone, with a new status register. -/
theorem completed_of_regsOnly {ds : List RegNum} {p : Psr} {s u : State} (hu : RegsOnly s u)
    (hregs : KeepsRegs ds s u) (hp : KeepsControl s { s with cpsr := p }) :
    Completed ds p s { u with cpsr := p, pc := s.pc + 2#32 } := by
  obtain ⟨-, -, hsaved, houtside, hmem, hdraws, -, -⟩ := hu.keeps s.pc
  exact ⟨rfl, ⟨hregs, hp, hsaved, houtside, hmem, hdraws⟩, rfl⟩

theorem completed_of_no_reg {p : Psr} {s : State} (hp : KeepsControl s { s with cpsr := p }) :
    Completed [] p s { s with cpsr := p, pc := s.pc + 2#32 } :=
  completed_of_regsOnly (RegsOnly.refl s) (fun _ _ => rfl) hp

/-- The state after a register r0 to r14, the status register and the pc are written. What the
register reads depends on the mode, which is kept. -/
theorem setReg_completed {rd : RegNum} {p : Psr} {s : State} (hrd : rd ≠ 15#4)
    (hp : KeepsControl s { s with cpsr := p }) (v : Word) :
    ({ s.setReg rd v with cpsr := p, pc := s.pc + 2#32 } : State).reg rd = v ∧
      Completed [rd] p s { s.setReg rd v with cpsr := p, pc := s.pc + 2#32 } := by
  refine ⟨?_, completed_of_regsOnly ((RegsOnly.refl s).setReg rd v hrd)
    (keepsRegs_setReg hrd s v) hp⟩
  obtain ⟨-, -, -, -, hmode⟩ := hp
  have hmode' : p.mode = (s.setReg rd v).cpsr.mode := by rw [State.setReg_cpsr]; exact hmode
  rw [(s.setReg rd v).reg_congr { s.setReg rd v with cpsr := p, pc := s.pc + 2#32 } rd hrd rfl
    hmode', s.reg_setReg rd rd v hrd, if_pos rfl]

/-- The flags are apart from the rest of the status register. -/
theorem keepsControl_setNZ (s : State) (r : Word) :
    KeepsControl s { s with cpsr := s.cpsr.setNZ r } := ⟨rfl, rfl, rfl, rfl, rfl⟩

theorem keepsControl_setArith (s : State) (a : AddResult) :
    KeepsControl s { s with cpsr := s.cpsr.setArith a } := ⟨rfl, rfl, rfl, rfl, rfl⟩

theorem keepsControl_setShift (s : State) (r : ShiftResult) :
    KeepsControl s { s with cpsr := s.cpsr.setShift r } := ⟨rfl, rfl, rfl, rfl, rfl⟩

/-! ### What each end of an instruction answers, in the words of the statements -/

/-- A logical operation ends as a shift that does not write C. -/
theorem finishLogic_eq (rd : Lo) (r : Word) (s : State) :
    finishLogic rd r s = finishShift rd ⟨r, none⟩ s := rfl

section
variable {s : State} (hpc : s.pc ≠ 0xFFFFFFFE#32)
include hpc

theorem finishArith_summed (rd : Lo) (a b : Word) (c : Bool) :
    ∃ t, finishArith rd (addWithCarry a b c) s = .next t ∧ Summed rd a b c s t := by
  obtain ⟨hrd, hcpsr, hframe, hpc'⟩ := setReg_completed (loNum_ne_pc rd)
    (keepsControl_setArith s (addWithCarry a b c)) (addWithCarry a b c).value
  exact ⟨_, finishArith_next.mpr ⟨hpc, rfl⟩, hrd.trans (addWithCarry_value a b c),
    flagsOfSum_of_setArith hcpsr, hframe, hpc'⟩

theorem finishArith_subtracted (rd : Lo) (a b : Word) (c : Bool) :
    ∃ t, finishArith rd (addWithCarry a (~~~b) c) s = .next t ∧ Subtracted rd a b (!c) s t := by
  simp only [subtracted_iff]
  exact finishArith_summed hpc rd a (~~~b) c

theorem finishCompare_flagsOfSum (a b : Word) (c : Bool) :
    ∃ t, finishCompare (addWithCarry a b c) s = .next t ∧ FlagsOfSum a b c t ∧
      TouchesOnly [] s t ∧ t.pc = s.pc + 2#32 := by
  obtain ⟨hcpsr, hframe, hpc'⟩ := completed_of_no_reg (keepsControl_setArith s (addWithCarry a b c))
  exact ⟨_, finishCompare_next.mpr ⟨hpc, rfl⟩, flagsOfSum_of_setArith hcpsr, hframe, hpc'⟩

theorem finishCompare_flagsOfDifference (a b : Word) :
    ∃ t, finishCompare (subtract a b) s = .next t ∧ FlagsOfDifference a b false t ∧
      TouchesOnly [] s t ∧ t.pc = s.pc + 2#32 := by
  have hdiff : ∀ t, FlagsOfDifference a b false t ↔ FlagsOfSum a (~~~b) true t :=
    fun _ => flagsOfDifference_iff (c := true)
  simp only [hdiff]
  exact finishCompare_flagsOfSum hpc a (~~~b) true

theorem finishTest_completes (r : Word) :
    ∃ t, finishTest r s = .next t ∧ Completed [] (s.cpsr.setNZ r) s t :=
  ⟨_, finishTest_next.mpr ⟨hpc, rfl⟩, completed_of_no_reg (keepsControl_setNZ s r)⟩

theorem finishShift_shifted (rd : Lo) (r : ShiftResult) :
    ∃ t, finishShift rd r s = .next t ∧ Shifted rd r.value (r.carry.getD s.cpsr.c) s t := by
  obtain ⟨hrd, -, hframe, hpc'⟩ := setReg_completed (loNum_ne_pc rd)
    (keepsControl_setShift s r) r.value
  exact ⟨_, finishShift_next.mpr ⟨hpc, rfl⟩, hrd, flagsNZ_iff.mpr ⟨rfl, rfl⟩, rfl, rfl, hframe,
    hpc'⟩

theorem finishLogic_logicalResult (rd : Lo) {r : Word} {bit : Nat → Bool}
    (hbit : ∀ j < 32, r.getLsbD j = bit j) :
    ∃ t, finishLogic rd r s = .next t ∧ LogicalResult rd bit s t := by
  obtain ⟨t, hnext, hrd, hflags, hkept⟩ := finishShift_shifted hpc rd ⟨r, none⟩
  exact ⟨t, (finishLogic_eq rd r s).trans hnext, by rwa [hrd], by rwa [hrd], hkept⟩

/-- Formats 6 to 8 write a register and no flag. -/
theorem finishMove_moved {rd : RegNum} (hrd : rd ≠ 15#4) (v : Word) :
    ∃ t, finishMove rd v s = .next t ∧ Moved rd v s t := by
  have hp : KeepsControl s { s with cpsr := (s.setReg rd v).cpsr } := by
    rw [State.setReg_cpsr]
    exact ⟨rfl, rfl, rfl, rfl, rfl⟩
  obtain ⟨hread, hcpsr, hframe, hpc'⟩ := setReg_completed hrd hp v
  rw [State.setReg_cpsr] at hcpsr
  exact ⟨_, finishMove_next.mpr (.inr ⟨hrd, hpc, rfl⟩), hread, by simp [KeepsFlags], hframe, hpc'⟩

end

/-! ### Scaled immediates (R104) -/

theorem scaled_zero {n : Nat} (imm : BitVec n) : scaled 0 imm = imm.setWidth 32 :=
  BitVec.shiftLeft_zero _

theorem scaled_two {n : Nat} (imm : BitVec n) :
    scaled 2 imm = BitVec.ofNat 32 (4 * imm.toNat) := by
  rw [scaled, BitVec.shiftLeft_eq_mul_twoPow, mul_comm, BitVec.ofNat_mul, BitVec.ofNat_toNat]
  rfl

/-! ### The shifts (R151) -/

theorem lslByImm_of_ne {sh : BitVec 5} (h : sh ≠ 0#5) (v : Word) :
    lslByImm v sh = lslC v sh.toNat := if_neg h

/-- The floor of the quotient is Lean's quotient, for a positive divisor. -/
theorem asrC_value (v : Word) (n : Nat) :
    (asrC v n).value = BitVec.ofInt 32 (v.toInt / 2 ^ n) := by
  rw [asrC, Int.fdiv_eq_ediv_of_nonneg _ (by positivity)]

theorem shiftAmount_eq (rs : Word) : shiftAmount rs = rs.toNat % 256 := by
  simp [shiftAmount]

theorem lslByReg_of_lt {n : Nat} (h0 : n ≠ 0) (h32 : n < 32) (v : Word) :
    lslByReg v n = lslC v n := by
  rw [lslByReg, if_neg h0, if_pos h32]

theorem lsrByReg_of_lt {n : Nat} (h0 : n ≠ 0) (h32 : n < 32) (v : Word) :
    lsrByReg v n = lsrC v n := by
  rw [lsrByReg, if_neg h0, if_pos h32]

theorem asrByReg_of_lt {n : Nat} (h0 : n ≠ 0) (h32 : n < 32) (v : Word) :
    asrByReg v n = asrC v n := by
  rw [asrByReg, if_neg h0, if_pos h32]

/-- Only the amount 32 shifts a bit of the value out last. -/
theorem lslByReg_of_le {n : Nat} (h : 32 ≤ n) (v : Word) :
    lslByReg v n = ⟨0#32, some (decide (n = 32) && v.getLsbD 0)⟩ := by
  rw [lslByReg, if_neg (by omega), if_neg (by omega)]
  split <;> simp [*]

theorem lsrByReg_of_le {n : Nat} (h : 32 ≤ n) (v : Word) :
    lsrByReg v n = ⟨0#32, some (decide (n = 32) && v.getLsbD 31)⟩ := by
  rw [lsrByReg, if_neg (by omega), if_neg (by omega)]
  split <;> simp [*]

theorem asrByReg_of_le {n : Nat} (h : 32 ≤ n) (v : Word) :
    asrByReg v n = ⟨if v.getLsbD 31 then 0xFFFFFFFF#32 else 0#32, some (v.getLsbD 31)⟩ := by
  rw [asrByReg, if_neg (by omega), if_neg (by omega)]

/-! ### The rotation (R151, R171) -/

/-- The two shifted parts of R151 make the library's rotation. -/
theorem rorC_value {n : Nat} (h : n < 32) (v : Word) : (rorC v n).value = v.rotateRight n := by
  have hlow : BitVec.ofNat 32 (v.toNat / 2 ^ n) = v >>> n := by
    rw [← Nat.shiftRight_eq_div_pow, ← BitVec.toNat_ushiftRight, BitVec.ofNat_toNat,
      BitVec.setWidth_eq]
  have hhigh : BitVec.ofNat 32 (v.toNat * 2 ^ (32 - n)) = v <<< (32 - n) := by
    apply BitVec.eq_of_toNat_eq
    rw [BitVec.toNat_ofNat, BitVec.toNat_shiftLeft, Nat.shiftLeft_eq]
  rw [rorC, hlow, hhigh, BitVec.rotateRight_def, Nat.mod_eq_of_lt h]

theorem getLsbD_rotateRight_word {j : Nat} (hj : j < 32) (v : Word) (n : Nat) :
    (v.rotateRight n).getLsbD j = v.getLsbD ((j + n) % 32) := by
  rw [BitVec.getLsbD_rotateRight, Bool.cond_decide]
  split
  · congr 1; omega
  · rw [decide_eq_true hj, Bool.true_and]; congr 1; omega

/-- For every amount the result is one rotation. -/
theorem getLsbD_rorByReg {j : Nat} (hj : j < 32) (v : Word) (n : Nat) :
    (rorByReg v n).value.getLsbD j = v.getLsbD ((j + n) % 32) := by
  have hwhole : n % 32 = 0 → v.getLsbD j = v.getLsbD ((j + n) % 32) := fun h => by
    congr 1; omega
  unfold rorByReg
  split
  next h0 => exact hwhole (by rw [h0])
  next h0 =>
    split
    next h32 => exact hwhole h32
    next h32 =>
      rw [rorC_value (Nat.mod_lt n (by decide)), getLsbD_rotateRight_word hj, Nat.add_mod_mod]

/-- The last bit that is rotated becomes the top bit; the amount 0 keeps C. -/
theorem rorByReg_carry (v : Word) (n : Nat) (c : Bool) :
    (rorByReg v n).carry.getD c = if n = 0 then c else (rorByReg v n).value.getLsbD 31 := by
  rw [getLsbD_rorByReg (by decide)]
  unfold rorByReg
  split
  next => rfl
  next =>
    split
    next h32 =>
      change v.getLsbD 31 = _
      congr 1; omega
    next h32 =>
      change v.getLsbD (n % 32 - 1) = _
      congr 1; omega

/-! ### The multiplication (R177) -/

theorem exec_mulReg_v5t {s : State} (h5t : s.params.arch5t = true) (rd rm : Lo) :
    exec (.mulReg rd rm) s = finishShift rd ⟨s.lo rd * s.lo rm, none⟩ s := by
  simp [exec, execMulReg, h5t, BitVec.ofNat_mul, finishLogic_eq]

/-- Before v5T the C flag is the free value that is drawn (D15). -/
theorem exec_mulReg_v4t {s : State} (h4t : s.params.arch5t = false) (rd rm : Lo) :
    exec (.mulReg rd rm) s =
      finishShift rd ⟨s.lo rd * s.lo rm, some (Config.freeBit s.draws)⟩
        { s with draws := s.draws + 1 } := by
  simp [exec, execMulReg, h4t, BitVec.ofNat_mul]

end Sys2Proof.Machine

namespace Sys2Proof.Proofs

open Sys2Proof.Machine

/-- Settles O29: each is the sum with no carry in; an immediate is zero-extended. -/
theorem addResults : Obligations.AddResults := by
  unfold Obligations.AddResults
  intro rd rn rm imm3 imm8
  refine ⟨decodeOfEncode (.addReg rd rn rm), decodeOfEncode (.addImm3 rd rn imm3),
    decodeOfEncode (.addImm8 rd imm8), fun s hpc => ?_⟩
  rw [← scaled_zero, ← scaled_zero]
  exact ⟨finishArith_summed hpc rd _ _ false, finishArith_summed hpc rd _ _ false,
    finishArith_summed hpc rd _ _ false⟩

/-- Settles O30: each is the sum with the complement and a carry in of 1, which is no borrow. -/
theorem subResults : Obligations.SubResults := by
  unfold Obligations.SubResults
  intro rd rn rm imm3 imm8
  refine ⟨decodeOfEncode (.subReg rd rn rm), decodeOfEncode (.subImm3 rd rn imm3),
    decodeOfEncode (.subImm8 rd imm8), fun s hpc => ?_⟩
  rw [← scaled_zero, ← scaled_zero]
  exact ⟨finishArith_subtracted hpc rd _ _ true, finishArith_subtracted hpc rd _ _ true,
    finishArith_subtracted hpc rd _ _ true⟩

/-- Settles O31: ADC and SBC take the C flag as the carry in; NEG adds the complement to 0. -/
theorem adcSbcNegResults : Obligations.AdcSbcNegResults := by
  unfold Obligations.AdcSbcNegResults
  intro rd rm
  refine ⟨decodeOfEncode (.adcReg rd rm), decodeOfEncode (.sbcReg rd rm),
    decodeOfEncode (.negReg rd rm), fun s hpc => ⟨finishArith_summed hpc rd _ _ s.cpsr.c,
      finishArith_subtracted hpc rd _ _ s.cpsr.c, ?_⟩⟩
  rw [exec, execNegReg, addWithCarry_comm]
  exact finishArith_subtracted hpc rd 0#32 (s.lo rm) true

/-- Settles O32: CMP and CMN are the difference and the sum without a destination; TST is zero when
no bit is set in both. -/
theorem compareAndTestResults : Obligations.CompareAndTestResults := by
  unfold Obligations.CompareAndTestResults
  intro rn rm imm8
  refine ⟨decodeOfEncode (.cmpImm8 rn imm8), decodeOfEncode (.tstReg rn rm),
    decodeOfEncode (.cmpReg rn rm), decodeOfEncode (.cmnReg rn rm), fun s hpc => ?_⟩
  rw [← scaled_zero]
  refine ⟨finishCompare_flagsOfDifference hpc _ _, ?_, finishCompare_flagsOfDifference hpc _ _,
    finishCompare_flagsOfSum hpc _ _ false⟩
  obtain ⟨t, hnext, hcpsr, hframe, hpc'⟩ := finishTest_completes hpc (s.lo rn &&& s.lo rm)
  have hn : t.cpsr.n = ((s.lo rn).getLsbD 31 && (s.lo rm).getLsbD 31) := by
    rw [hcpsr, Psr.setNZ_n, BitVec.getLsbD_and]
  have hz : t.cpsr.z = true ↔
      ∀ j < 32, ¬((s.lo rn).getLsbD j = true ∧ (s.lo rm).getLsbD j = true) := by
    rw [hcpsr, Psr.setNZ_z, beq_iff_eq, BitVec.eq_of_getLsbD_eq_iff]
    simp
  refine ⟨t, hnext, hn, hz, ?_, ?_, hframe, hpc'⟩ <;> rw [hcpsr] <;> rfl

/-- Settles O33: each operation acts bit by bit, and `finishLogic` writes N and Z alone. -/
theorem logicalResults : Obligations.LogicalResults := by
  unfold Obligations.LogicalResults
  intro rd rm imm8
  refine ⟨decodeOfEncode (.movImm8 rd imm8), decodeOfEncode (.andReg rd rm),
    decodeOfEncode (.eorReg rd rm), decodeOfEncode (.orrReg rd rm), decodeOfEncode (.bicReg rd rm),
    decodeOfEncode (.mvnReg rd rm), fun s hpc => ?_⟩
  refine ⟨?_, finishLogic_logicalResult hpc rd fun _ _ => BitVec.getLsbD_and,
    finishLogic_logicalResult hpc rd fun _ _ => BitVec.getLsbD_xor,
    finishLogic_logicalResult hpc rd fun _ _ => BitVec.getLsbD_or,
    finishLogic_logicalResult hpc rd fun j hj => ?_,
    finishLogic_logicalResult hpc rd fun j hj => ?_⟩
  · obtain ⟨t, hnext, hbits, hflags, hkept⟩ := finishLogic_logicalResult hpc rd (r := scaled 0 imm8)
      (bit := fun j => imm8.getLsbD j) fun j hj => by simp [scaled_zero, hj]
    obtain ⟨hn, -⟩ := flagsNZ_iff.mp hflags
    have htop : imm8.getLsbD 31 = false := BitVec.getLsbD_of_ge _ _ (by decide)
    exact ⟨t, hnext, ⟨hbits, hflags, hkept⟩, hn.trans ((hbits 31 (by decide)).trans htop)⟩
  · simp [hj]
  · simp [hj]

/-- Settles O34: the field 0 is the amount 0 of LSL and the amount 32 of LSR and ASR. -/
theorem immediateShifts : Obligations.ImmediateShifts := by
  unfold Obligations.ImmediateShifts
  intro rd rm sh
  refine ⟨decodeOfEncode (.lslImm rd rm sh), decodeOfEncode (.lsrImm rd rm sh),
    decodeOfEncode (.asrImm rd rm sh), fun s hpc => ⟨?_, fun hsh => ?_, fun n hn => ⟨?_, ?_⟩⟩⟩
  · rintro rfl
    exact finishShift_shifted hpc rd ⟨s.lo rm, none⟩
  · rw [exec, execLslImm, lslByImm_of_ne hsh]
    exact finishShift_shifted hpc rd (lslC (s.lo rm) sh.toNat)
  · rw [hn]
    exact finishShift_shifted hpc rd (lsrByImm (s.lo rm) sh)
  · rw [hn, ← asrC_value]
    exact finishShift_shifted hpc rd (asrByImm (s.lo rm) sh)

/-- Settles O35: the low byte of `Rs` selects the case of R151. -/
theorem registerShifts : Obligations.RegisterShifts := by
  unfold Obligations.RegisterShifts
  intro rd rs
  refine ⟨decodeOfEncode (.lslReg rd rs), decodeOfEncode (.lsrReg rd rs),
    decodeOfEncode (.asrReg rd rs), ?_⟩
  rintro s v n hpc rfl hn
  rw [← shiftAmount_eq] at hn
  simp only [exec, execLslReg, execLsrReg, execAsrReg, ← hn]
  refine ⟨?_, fun h1 h32 => ?_, fun h32 => ?_⟩
  · rintro rfl
    exact ⟨finishShift_shifted hpc rd ⟨s.lo rd, none⟩, finishShift_shifted hpc rd ⟨s.lo rd, none⟩,
      finishShift_shifted hpc rd ⟨s.lo rd, none⟩⟩
  · have h0 : n ≠ 0 := Nat.one_le_iff_ne_zero.mp h1
    rw [lslByReg_of_lt h0 h32, lsrByReg_of_lt h0 h32, asrByReg_of_lt h0 h32, ← asrC_value]
    exact ⟨finishShift_shifted hpc rd _, finishShift_shifted hpc rd _,
      finishShift_shifted hpc rd _⟩
  · rw [lslByReg_of_le h32, lsrByReg_of_le h32, asrByReg_of_le h32]
    exact ⟨finishShift_shifted hpc rd _, finishShift_shifted hpc rd _,
      finishShift_shifted hpc rd _⟩

/-- Settles O36: every amount is one rotation, and the bit rotated last is the top bit. -/
theorem rotateResult : Obligations.RotateResult := by
  unfold Obligations.RotateResult
  intro rd rs
  refine ⟨decodeOfEncode (.rorReg rd rs), fun s n hpc hn => ?_⟩
  rw [← shiftAmount_eq] at hn
  obtain ⟨t, hnext, hrd, hflags, hc, hkept⟩ := finishShift_shifted hpc rd (rorByReg (s.lo rd) n)
  refine ⟨t, ?_, fun j hj => ?_, rfl, by rwa [hrd], ?_, hkept⟩
  · rw [exec, execRorReg, ← hn, hnext]
  · rw [hrd, getLsbD_rorByReg hj]
  · rw [hc, rorByReg_carry, hrd]

/-- Settles O37: MUL ends as a shift, from v5T on as one that keeps C, before v5T as one whose carry
is the value drawn. -/
theorem multiplyResult : Obligations.MultiplyResult := by
  unfold Obligations.MultiplyResult
  intro rd rm
  refine ⟨decodeOfEncode (.mulReg rd rm), fun s hpc => ?_⟩
  cases harch : s.params.arch5t with
  | true =>
    obtain ⟨t, hnext, hrd, hflags, hc, hv, hframe, hpc'⟩ :=
      finishShift_shifted hpc rd ⟨s.lo rd * s.lo rm, none⟩
    obtain ⟨hregs, hcontrol, hsaved, houtside, hmem, hdraws⟩ := hframe
    exact ⟨t, (exec_mulReg_v5t harch rd rm).trans hnext, hrd, by rwa [hrd], hv, hregs, hcontrol,
      hsaved, houtside, hmem, hpc', fun _ => ⟨hc, hdraws⟩, nofun⟩
  | false =>
    obtain ⟨t, hnext, hrd, hflags, hc, hv, hframe, hpc'⟩ :=
      finishShift_shifted (s := { s with draws := s.draws + 1 }) hpc rd
        ⟨s.lo rd * s.lo rm, some (Config.freeBit s.draws)⟩
    obtain ⟨hregs, hcontrol, hsaved, houtside, hmem, hdraws⟩ := hframe
    exact ⟨t, (exec_mulReg_v4t harch rd rm).trans hnext, hrd, by rwa [hrd], hv, hregs, hcontrol,
      hsaved, houtside, hmem, hpc', nofun, fun _ => ⟨hc, hdraws⟩⟩

/-- Settles O38: a destination other than r15 is a plain write, and r15 is a branch. -/
theorem hiAddMovResults : Obligations.HiAddMovResults := by
  unfold Obligations.HiAddMovResults
  intro rd rm
  refine ⟨decodeOfEncode (.addHi rd rm), decodeOfEncode (.movHi rd rm), fun s =>
    ⟨rfl, fun hhi hrd hpc => ?_, ?_, fun hd hm => ?_⟩⟩
  · simp only [exec, execAddHi, execMovHi, if_pos (namesHi_iff.mpr hhi)]
    exact ⟨finishMove_moved hpc hrd _, finishMove_moved hpc hrd _⟩
  · rintro rfl
    exact ⟨rfl, rfl⟩
  · obtain ⟨hadd, -, hmov⟩ := exec_unpredictable_of_lo_regs (s := s) hd hm
    exact ⟨hadd, hmov⟩

/-- Settles O39: with a Hi register and not the PC first, CMP of format 6 is CMP. -/
theorem hiCompareResult : Obligations.HiCompareResult := by
  unfold Obligations.HiCompareResult
  intro rn rm
  refine ⟨decodeOfEncode (.cmpHi rn rm), fun s => ⟨rfl, fun hhi hrn hpc => ?_, ?_⟩⟩
  · simp only [exec, execCmpHi, namesHi_iff.mpr hhi, Bool.not_true, Bool.false_eq_true, if_false,
      if_neg hrn]
    exact finishCompare_flagsOfDifference hpc _ _
  · rintro (rfl | ⟨hn, hm⟩)
    · exact execCmpHi_pc rm s
    · obtain ⟨-, hcmp, -⟩ := exec_unpredictable_of_lo_regs (s := s) hn hm
      exact hcmp

/-- Settles O40: each writes one register, r13 among them, and no flag. -/
theorem addressAndStackAdjust : Obligations.AddressAndStackAdjust := by
  unfold Obligations.AddressAndStackAdjust
  intro rd imm8 imm7
  refine ⟨decodeOfEncode (.addRdPc rd imm8), decodeOfEncode (.addRdSp rd imm8),
    decodeOfEncode (.addSp imm7), decodeOfEncode (.subSp imm7), fun s hpc => ?_⟩
  rw [← scaled_two, ← scaled_two]
  exact ⟨finishMove_moved hpc (loNum_ne_pc rd) _, finishMove_moved hpc (loNum_ne_pc rd) _,
    finishMove_moved hpc (rd := 13#4) (by decide) _,
    finishMove_moved hpc (rd := 13#4) (by decide) _⟩

end Sys2Proof.Proofs
end

section
/-! PROOF. The single register data transfers (43_load_store_single.md): the datum of an access byte
by byte, how a load and a store complete, and how they stop. -/

namespace Sys2Proof.Machine

/-! ### The bytes of a datum, in the words of the statements (R52) -/

/-- Above the last byte joined, the bytes are those joined before it. -/
theorem extractLsb'_append_byte {n : Nat} (x : BitVec n) (b : Byte) (k : Nat) :
    (x ++ b).extractLsb' (k + 8) 8 = x.extractLsb' k 8 := by
  rw [BitVec.extractLsb'_append_eq_of_le (Nat.le_add_left 8 k), Nat.add_sub_cancel]

theorem extractLsb'_bytes_word (b3 b2 b1 b0 : Byte) :
    (b3 ++ b2 ++ b1 ++ b0).extractLsb' 0 8 = b0 ∧ (b3 ++ b2 ++ b1 ++ b0).extractLsb' 8 8 = b1 ∧
      (b3 ++ b2 ++ b1 ++ b0).extractLsb' 16 8 = b2 ∧
      (b3 ++ b2 ++ b1 ++ b0).extractLsb' 24 8 = b3 :=
  ⟨BitVec.extractLsb'_append_eq_right,
    (extractLsb'_append_byte _ b0 0).trans BitVec.extractLsb'_append_eq_right,
    ((extractLsb'_append_byte _ b0 8).trans (extractLsb'_append_byte _ b1 0)).trans
      BitVec.extractLsb'_append_eq_right,
    ((extractLsb'_append_byte _ b0 16).trans (extractLsb'_append_byte _ b1 8)).trans
      BitVec.extractLsb'_append_eq_left⟩

theorem splitHalf_joinHalf (big : Bool) (b0 b1 : Byte) :
    splitHalf big (joinHalf big b0 b1) = [b0, b1] := by
  cases big with
  | false =>
    simp only [splitHalf, joinHalf, Bool.false_eq_true, if_false, List.cons.injEq]
    exact ⟨BitVec.extractLsb'_append_eq_right, BitVec.extractLsb'_append_eq_left, trivial⟩
  | true =>
    simp only [splitHalf, joinHalf, if_true, List.cons.injEq]
    exact ⟨BitVec.extractLsb'_append_eq_left, BitVec.extractLsb'_append_eq_right, trivial⟩

theorem splitWord_joinWord (big : Bool) (b0 b1 b2 b3 : Byte) :
    splitWord big (joinWord big b0 b1 b2 b3) = [b0, b1, b2, b3] := by
  cases big with
  | false =>
    obtain ⟨h0, h1, h2, h3⟩ := extractLsb'_bytes_word b3 b2 b1 b0
    simp only [splitWord, joinWord, Bool.false_eq_true, if_false, List.cons.injEq]
    exact ⟨h0, h1, h2, h3, trivial⟩
  | true =>
    obtain ⟨h0, h1, h2, h3⟩ := extractLsb'_bytes_word b0 b1 b2 b3
    simp only [splitWord, joinWord, if_true, List.cons.injEq]
    exact ⟨h3, h2, h1, h0, trivial⟩

/-- The low bits of a zero-extended datum are the datum. -/
theorem extractLsb'_setWidth_word {n : Nat} (hn : n ≤ 32) (x : BitVec n) :
    (x.setWidth 32).extractLsb' 0 n = x := by
  apply BitVec.eq_of_toNat_eq
  rw [BitVec.extractLsb'_toNat, Nat.shiftRight_zero, BitVec.toNat_setWidth_of_le hn,
    Nat.mod_eq_of_lt x.isLt]

/-- The datum of an access is made of the bytes of memory, at rising addresses. -/
theorem State.storeBytes_load (s : State) (w : Width) (a : Word) :
    storeBytes s.params.bigEnd w (s.load w a) =
      (List.range (widthBytes w)).map fun k => s.byteAt (a.toNat + k) := by
  cases w with
  | byte => exact congrArg (fun b => [b]) (extractLsb'_setWidth_word (by decide) _)
  | half =>
    rw [storeBytes, State.load, extractLsb'_setWidth_word (by decide)]
    exact splitHalf_joinHalf _ _ _
  | word => exact splitWord_joinWord _ _ _ _ _

/-- Byte `k` of a datum, counted from its least significant, stands `k` places from the low end of
the access, or from the high end when `BIGEND` is true. -/
theorem getElem?_storeBytes (big : Bool) (w : Width) (v : Word) {k : Nat} (hk : k < widthBytes w) :
    (storeBytes big w v)[if big then widthBytes w - 1 - k else k]? =
      some (v.extractLsb' (8 * k) 8) := by
  cases w with
  | byte =>
    obtain rfl : k = 0 := Nat.lt_one_iff.mp hk
    cases big <;> rfl
  | half =>
    change k < 2 at hk
    cases big <;> interval_cases k <;> simp [storeBytes, splitHalf, widthBytes]
  | word =>
    change k < 4 at hk
    cases big <;> interval_cases k <;> rfl

/-- The bytes of an access, taken one by one, when as a list they are those of `v`. -/
theorem State.byteAt_of_map {t : State} {big : Bool} {w : Width} {a : Nat} {v : Word}
    (h : (List.range (widthBytes w)).map (fun k => t.byteAt (a + k)) = storeBytes big w v)
    {k : Nat} (hk : k < widthBytes w) :
    t.byteAt (a + if big then widthBytes w - 1 - k else k) = v.extractLsb' (8 * k) 8 := by
  have hplace : (if big then widthBytes w - 1 - k else k) < widthBytes w := by split <;> omega
  have hbyte := getElem?_storeBytes big w v hk
  rw [← h, List.getElem?_map, List.getElem?_range hplace] at hbyte
  exact Option.some.inj hbyte

theorem getLsbD_setWidth_word_of_le {n j : Nat} (x : BitVec n) (hj : n ≤ j) :
    (x.setWidth 32).getLsbD j = false := by
  rw [BitVec.getLsbD_setWidth, BitVec.getLsbD_of_ge x j hj, Bool.and_false]

/-- A datum shorter than a word is zero-extended (R51). -/
theorem State.getLsbD_load_of_le (s : State) {w : Width} (a : Word) {j : Nat}
    (hj : 8 * widthBytes w ≤ j) : (s.load w a).getLsbD j = false := by
  cases w with
  | byte => exact getLsbD_setWidth_word_of_le _ hj
  | half => exact getLsbD_setWidth_word_of_le _ hj
  | word => exact BitVec.getLsbD_of_ge _ j hj

theorem State.readsAs_load (s : State) (w : Width) (a : Word) :
    ReadsAs s (widthBytes w) a.toNat (s.load w a) :=
  ⟨fun _ hk => (State.byteAt_of_map (s.storeBytes_load w a).symm hk).symm,
    fun _ _ hj => s.getLsbD_load_of_le a hj⟩

/-- A datum of `n` bytes is a number below `2 ^ (8 * n)`. -/
theorem ReadsAs.toNat_lt {s : State} {n a : Nat} {v : Word} (h : ReadsAs s n a v) :
    v.toNat < 2 ^ (8 * n) := by
  obtain ⟨-, hhigh⟩ := h
  refine Nat.lt_pow_two_of_testBit _ fun j hj => ?_
  by_cases hlt : j < 32
  · exact hhigh j hlt hj
  · exact BitVec.getLsbD_of_ge v j (Nat.le_of_not_lt hlt)

/-! ### How a single access that is not performed ends (R53, R58, R63, R256) -/

section
variable {s : State} {w : Width} {a : Word}

theorem memRead_misaligned (kind : AccessKind) (h : alignedTo w a = false) :
    memRead w kind a s = .error .misaligned := by
  simp [memRead, h]

theorem memWrite_misaligned (v : Word) (h : alignedTo w a = false) :
    memWrite w a v s = .error .misaligned := by
  simp [memWrite, h]

theorem memWrite_code (v : Word) (halign : alignedTo w a = true) (h : s.inCode w a = true) :
    memWrite w a v s = .error .code := by
  simp [memWrite, halign, h]

theorem memWrite_refused (v : Word) (halign : alignedTo w a = true) (hcode : s.inCode w a = false)
    (h : s.admits w .write a = false) : memWrite w a v s = .error .refused := by
  simp [memWrite, halign, hcode, h]

theorem alignedTo_iff : alignedTo w a = true ↔ a.toNat % widthBytes w = 0 := beq_iff_eq

theorem alignedTo_eq_false_iff : alignedTo w a = false ↔ a.toNat % widthBytes w ≠ 0 := by
  rw [← Bool.not_eq_true, alignedTo_iff]

end

/-- A refused access is the fault or the Data Abort, as the parameter asks; the abort is entered
from the state `left`, in which the pc and the CPSR are as the instruction found them. -/
theorem endsRefused_of_accessStop {i : Instr} {ds : List RegNum} {a n : Nat} {s left : State}
    (hleft : AbortLeaves ds a n s left) (h : exec i s = accessStop .refused left) :
    EndsRefused i ds a n s := by
  have ⟨_, hcpsr, hpc, _, ⟨hparams, _⟩, _⟩ := hleft
  refine ⟨fun hfault => ?_, fun htrap => ⟨left, takeException .dataAbort left, ?_, hleft, ?_⟩⟩
  · rw [h, accessStop, hparams, hfault]
    rfl
  · rw [h, accessStop_next, hparams]
    exact ⟨rfl, htrap, rfl⟩
  · rw [← hpc, ← hcpsr]
    exact entered_takeException (by decide) left

/-- The registers that the model frees after an abort are those that R256 leaves open. -/
theorem endsRefused_of_freeRegs {i : Instr} {ds : List RegNum} {s : State}
    (hds : ∀ r ∈ ds, r ≠ 15#4) (h : exec i s = accessStop .refused (s.freeRegs ds)) :
    EndsRefused i ds 0 0 s :=
  endsRefused_of_accessStop (abortLeaves_freeRegs (abortLeaves_refl s 0 0) ds hds) h

/-! ### Loads -/

section
variable {i : Instr} {rd : Lo} {base : List RegNum} {w : Width} {ext : Word → Word} {a : Word}
  {s : State}

/-- A load that may be performed writes its datum as a move does. -/
theorem finishLoad_of_allows (h : s.allows w .read a = true) :
    finishLoad rd base w ext a s = finishMove (loNum rd) (ext (s.load w a)) s := by
  obtain ⟨halign, hadm⟩ := allows_read.mp h
  rw [finishMove, if_neg (loNum_ne_pc rd), finishLoad, memRead_ok.mpr ⟨halign, hadm, rfl⟩]
  rfl

theorem finishLoad_loaded (h : s.allows w .read a = true) (hpc : s.pc ≠ 0xFFFFFFFE#32) :
    ∃ t, finishLoad rd base w ext a s = .next t ∧ Loaded rd (ext (s.load w a)) s t := by
  rw [finishLoad_of_allows h]
  exact finishMove_moved hpc (loNum_ne_pc rd) _

theorem finishLoad_of_error {e : MemStop} (h : memRead w .read a s = .error e) :
    finishLoad rd base w ext a s = accessStop e (s.freeRegs (loNum rd :: base)) := by
  rw [finishLoad, h]

theorem accessStops_of_finishLoad (hbase : ∀ r ∈ base, r ≠ 15#4)
    (h : exec i s = finishLoad rd base w ext a s) :
    AccessStops i w .read a (loNum rd :: base) s := by
  refine ⟨fun hmis => ?_, nofun, fun halign _ hadm => ?_⟩
  · rw [h, finishLoad_of_error (memRead_misaligned .read (alignedTo_eq_false_iff.mpr hmis))]
    rfl
  · have hds : ∀ r ∈ loNum rd :: base, r ≠ 15#4 :=
      List.forall_mem_cons.mpr ⟨loNum_ne_pc rd, hbase⟩
    refine endsRefused_of_freeRegs hds (h.trans (finishLoad_of_error ?_))
    exact memRead_refused.mpr ⟨alignedTo_iff.mpr halign, hadm⟩

/-- Every single load ends by `finishLoad`, which says all that the statements ask of it. -/
theorem loadResult_of_finishLoad (hbase : ∀ r ∈ base, r ≠ 15#4)
    (h : exec i s = finishLoad rd base w ext a s) :
    LoadResult i rd w ext a (loNum rd :: base) s := by
  refine ⟨fun hallow hpc => ?_, accessStops_of_finishLoad hbase h⟩
  obtain ⟨t, hnext, hloaded⟩ := finishLoad_loaded hallow hpc
  exact ⟨s.load w a, t, s.readsAs_load w a, h.trans hnext, hloaded⟩

/-- Only what an extension does to a datum that memory holds counts. -/
theorem LoadResult.congr_extend {ext' : Word → Word} {ds : List RegNum}
    (hext : ∀ v, ReadsAs s (widthBytes w) a.toNat v → ext v = ext' v)
    (h : LoadResult i rd w ext a ds s) : LoadResult i rd w ext' a ds s := by
  obtain ⟨hdone, hstops⟩ := h
  refine ⟨fun hallow hpc => ?_, hstops⟩
  obtain ⟨v, t, hreads, hnext, hloaded⟩ := hdone hallow hpc
  exact ⟨v, t, hreads, hnext, hext v hreads ▸ hloaded⟩

end

/-- Sign-extending the low `n` bits of a word that has no others. -/
theorem signExtend_setWidth_of_lt {n : Nat} {v : Word} (h : v.toNat < 2 ^ n) :
    (v.setWidth n).signExtend 32 =
      BitVec.ofInt 32
        (if 2 * v.toNat < 2 ^ n then v.toNat else (v.toNat : Int) - (2 ^ n : Nat)) := by
  rw [BitVec.signExtend, BitVec.toInt_eq_toNat_cond, BitVec.toNat_setWidth, Nat.mod_eq_of_lt h]

/-- A byte is negative from 128 on (R210). -/
theorem extendByte_of_readsAs {s : State} {a : Nat} {v : Word} (h : ReadsAs s 1 a v) :
    extendByte v =
      BitVec.ofInt 32 (if v.toNat < 128 then v.toNat else (v.toNat : Int) - 256) := by
  have hsign : 2 * v.toNat < 2 ^ 8 ↔ v.toNat < 128 := by omega
  rw [extendByte, signExtend_setWidth_of_lt h.toNat_lt]
  simp only [hsign]
  rfl

/-- A half-word is negative from 32768 on (R214). -/
theorem extendHalf_of_readsAs {s : State} {a : Nat} {v : Word} (h : ReadsAs s 2 a v) :
    extendHalf v =
      BitVec.ofInt 32 (if v.toNat < 32768 then v.toNat else (v.toNat : Int) - 65536) := by
  have hsign : 2 * v.toNat < 2 ^ 16 ↔ v.toNat < 32768 := by omega
  rw [extendHalf, signExtend_setWidth_of_lt h.toNat_lt]
  simp only [hsign]
  rfl

/-! ### Stores -/

section
variable {i : Instr} {rd : Lo} {base : List RegNum} {w : Width} {a : Word} {s : State}

/-- An aligned store writes the bytes of the access, and nothing else but the pc changes. -/
theorem stored_store (hs : Memory.wf s.mem) (h : alignedTo w a = true) (v : Word) :
    Stored (widthBytes w) a.toNat v s { s.store w a v with pc := s.pc + 2#32 } := by
  have hsaved : KeepsSaved s (s.store w a v) := fun m => by cases m <;> rfl
  exact ⟨fun _ hk => State.byteAt_of_map (State.map_byteAt_store hs v h) hk, ⟨rfl, rfl, rfl, rfl⟩,
    ⟨fun _ _ => rfl, ⟨rfl, rfl, rfl, rfl, rfl⟩, hsaved, ⟨rfl, rfl, rfl, rfl⟩,
      fun _ ha => State.byteAt_store hs h ha, rfl⟩, rfl⟩

theorem finishStore_stored (hs : Memory.wf s.mem) (h : s.allows w .write a = true)
    (hpc : s.pc ≠ 0xFFFFFFFE#32) (v : Word) :
    ∃ t, finishStore base w a v s = .next t ∧ Stored (widthBytes w) a.toNat v s t := by
  obtain ⟨halign, hcode, hadm⟩ := allows_write.mp h
  exact ⟨_, finishStore_next.mpr (.inl ⟨halign, hcode, hadm, hpc, rfl⟩), stored_store hs halign v⟩

theorem finishStore_of_error {v : Word} {e : MemStop} (h : memWrite w a v s = .error e) :
    finishStore base w a v s = accessStop e (s.freeRegs base) := by
  rw [finishStore, h]

theorem accessStops_of_finishStore {v : Word} (hbase : ∀ r ∈ base, r ≠ 15#4)
    (h : exec i s = finishStore base w a v s) : AccessStops i w .write a base s := by
  refine ⟨fun hmis => ?_, fun halign _ hcode => ?_, fun halign hcode hadm => ?_⟩
  · rw [h, finishStore_of_error (memWrite_misaligned v (alignedTo_eq_false_iff.mpr hmis))]
    rfl
  · rw [h, finishStore_of_error (memWrite_code v (alignedTo_iff.mpr halign) hcode)]
    rfl
  · refine endsRefused_of_freeRegs hbase (h.trans (finishStore_of_error ?_))
    exact memWrite_refused v (alignedTo_iff.mpr halign) (hcode rfl) hadm

/-- Every single store ends by `finishStore`, which says all that the statements ask of it. -/
theorem storeResult_of_finishStore (hs : Memory.wf s.mem) (hbase : ∀ r ∈ base, r ≠ 15#4)
    (h : exec i s = finishStore base w a (s.lo rd) s) : StoreResult i rd w a base s := by
  refine ⟨fun hallow hpc => ?_, accessStops_of_finishStore hbase h⟩
  obtain ⟨t, hnext, hstored⟩ := finishStore_stored hs hallow hpc (s.lo rd)
  exact ⟨t, h.trans hnext, hstored⟩

end

/-! ### Addresses (R200) -/

/-- No Lo register is the PC, so a base register that an abort frees is not. -/
theorem loBase_ne_pc (rn : Lo) : ∀ r ∈ [loNum rn], r ≠ 15#4 :=
  List.forall_mem_singleton.mpr (loNum_ne_pc rn)

theorem spBase_ne_pc : ∀ r ∈ [13#4], r ≠ 15#4 := by decide

/-- A scaled immediate is a multiple of its unit (R104). -/
theorem scaled_eq_ofNat_mul {n : Nat} (k : Nat) (imm : BitVec n) :
    scaled k imm = BitVec.ofNat 32 (2 ^ k * imm.toNat) := by
  apply BitVec.eq_of_toNat_eq
  rw [scaled, BitVec.toNat_shiftLeft, BitVec.toNat_setWidth, BitVec.toNat_ofNat, Nat.shiftLeft_eq,
    Nat.mod_mul_mod, mul_comm]

theorem scaled_one {n : Nat} (imm : BitVec n) :
    scaled 1 imm = BitVec.ofNat 32 (2 * imm.toNat) := scaled_eq_ofNat_mul 1 imm

/-- The address of a load relative to the PC is a multiple of 4 (R216). -/
theorem toNat_pcBase_add_mod_four (s : State) (off8 : BitVec 8) :
    (s.pcBase + BitVec.ofNat 32 (4 * off8.toNat)).toNat % 4 = 0 := by
  have hbase : s.pcBase.toNat % 2 ^ 2 = 0 := by
    rw [State.pcBase, BitVec.toNat_and, Nat.and_mod_two_pow]
    exact Nat.and_zero _
  rw [BitVec.toNat_add, BitVec.toNat_ofNat]
  omega

end Sys2Proof.Machine

namespace Sys2Proof.Proofs

open Sys2Proof.Machine

/-- Settles O48: the three loads differ in the width, by which the offset is scaled. -/
theorem loadsWithOffset : Obligations.LoadsWithOffset := by
  unfold Obligations.LoadsWithOffset
  intro rd rn off5
  refine ⟨decodeOfEncode (.ldrImm rd rn off5), decodeOfEncode (.ldrbImm rd rn off5),
    decodeOfEncode (.ldrhImm rd rn off5), fun s => ?_⟩
  rw [← scaled_two, ← scaled_one, BitVec.ofNat_toNat, ← scaled_zero]
  exact ⟨loadResult_of_finishLoad (loBase_ne_pc rn) rfl,
    loadResult_of_finishLoad (loBase_ne_pc rn) rfl, loadResult_of_finishLoad (loBase_ne_pc rn) rfl⟩

/-- Settles O49: the address is the sum of two registers, the datum zero-extended. -/
theorem loadsIndexed : Obligations.LoadsIndexed := by
  unfold Obligations.LoadsIndexed
  intro rd rn rm
  exact ⟨decodeOfEncode (.ldrReg rd rn rm), decodeOfEncode (.ldrhReg rd rn rm),
    decodeOfEncode (.ldrbReg rd rn rm), fun s => ⟨loadResult_of_finishLoad (loBase_ne_pc rn) rfl,
      loadResult_of_finishLoad (loBase_ne_pc rn) rfl,
      loadResult_of_finishLoad (loBase_ne_pc rn) rfl⟩⟩

/-- Settles O50: of a datum that memory holds, the sign-extension is its two's-complement value. -/
theorem loadsSigned : Obligations.LoadsSigned := by
  unfold Obligations.LoadsSigned
  intro rd rn rm
  refine ⟨decodeOfEncode (.ldrsbReg rd rn rm), decodeOfEncode (.ldrshReg rd rn rm), fun s =>
    ⟨?_, ?_⟩⟩
  · exact (loadResult_of_finishLoad (ext := extendByte) (loBase_ne_pc rn) rfl).congr_extend
      fun _ hreads => extendByte_of_readsAs hreads
  · exact (loadResult_of_finishLoad (ext := extendHalf) (loBase_ne_pc rn) rfl).congr_extend
      fun _ hreads => extendHalf_of_readsAs hreads

/-- Settles O51: the PC form has no base register that an abort could leave open. -/
theorem loadsPcAndSp : Obligations.LoadsPcAndSp := by
  unfold Obligations.LoadsPcAndSp
  intro rd off8
  refine ⟨decodeOfEncode (.ldrPc rd off8), decodeOfEncode (.ldrSp rd off8), fun s =>
    ⟨toNat_pcBase_add_mod_four s off8, ?_⟩⟩
  rw [← scaled_two]
  exact ⟨loadResult_of_finishLoad (List.forall_mem_nil _) rfl,
    loadResult_of_finishLoad spBase_ne_pc rfl⟩

/-- Settles O52: the three stores differ in the width, by which the offset is scaled. -/
theorem storesWithOffset : Obligations.StoresWithOffset := by
  unfold Obligations.StoresWithOffset
  intro rd rn off5
  refine ⟨decodeOfEncode (.strImm rd rn off5), decodeOfEncode (.strbImm rd rn off5),
    decodeOfEncode (.strhImm rd rn off5), fun s hs => ?_⟩
  rw [← scaled_two, ← scaled_one, BitVec.ofNat_toNat, ← scaled_zero]
  exact ⟨storeResult_of_finishStore hs (loBase_ne_pc rn) rfl,
    storeResult_of_finishStore hs (loBase_ne_pc rn) rfl,
    storeResult_of_finishStore hs (loBase_ne_pc rn) rfl⟩

/-- Settles O53: the address is the sum of two registers, or the SP plus the scaled offset. -/
theorem storesIndexedAndSp : Obligations.StoresIndexedAndSp := by
  unfold Obligations.StoresIndexedAndSp
  intro rd rn rm off8
  refine ⟨decodeOfEncode (.strReg rd rn rm), decodeOfEncode (.strhReg rd rn rm),
    decodeOfEncode (.strbReg rd rn rm), decodeOfEncode (.strSp rd off8), fun s hs => ?_⟩
  rw [← scaled_two]
  exact ⟨storeResult_of_finishStore hs (loBase_ne_pc rn) rfl,
    storeResult_of_finishStore hs (loBase_ne_pc rn) rfl,
    storeResult_of_finishStore hs (loBase_ne_pc rn) rfl,
    storeResult_of_finishStore hs spBase_ne_pc rfl⟩

end Sys2Proof.Proofs
end

section
/-! PROOF. The multiple register transfers (44_load_store_multiple.md): which words a transfer reads
and writes, how it stops, what the four instructions write, and that POP undoes PUSH. -/

namespace Sys2Proof.Machine

/-! ### The words of a transfer (R52, R230) -/

/-- A multiple load that may be performed delivers the words of memory from its start on. -/
theorem multiRead_readsAs {s : State} {a : Word} {n : Nat} (hn : n ≠ 0)
    (h : s.allowsWords .read a n) : ∃ vs, multiRead n a s = .ok vs ∧ vs.length = n ∧
      ∀ k (hk : k < vs.length), ReadsAs s 4 (a.toNat + 4 * k) vs[k] := by
  obtain ⟨vs, hvs⟩ := multiRead_of_allowsWords hn h
  obtain ⟨-, -, hreads⟩ := multiRead_ok.mp hvs
  obtain ⟨hlen, hwords⟩ := readWords_ok hreads
  obtain ⟨htop, -⟩ := h
  refine ⟨vs, hvs, hlen, fun k hk => ?_⟩
  obtain ⟨hload, -, -⟩ := hwords k hk
  rw [hload, ← toNat_wordAddr a k (by omega)]
  exact s.readsAs_load .word _

/-- A multiple store that may be performed changes memory alone, at its words. -/
theorem multiWrite_wordAt {s : State} {a : Word} {vs : List Word} (hw : Memory.wf s.mem)
    (hn : vs.length ≠ 0) (h : s.allowsWords .write a vs.length) :
    ∃ t, multiWrite vs a s = .ok t ∧ t = { s with mem := t.mem } ∧
      (∀ k v, vs[k]? = some v → WordAt t (a.toNat + 4 * k) v) ∧
      KeepsMemoryOutside a.toNat (4 * vs.length) s t := by
  obtain ⟨halign, hpass⟩ := State.allowsWords_start hn h
  obtain ⟨htop, hwords⟩ := h
  obtain ⟨t, ht, honly, -, hat, houtside⟩ := writeWords_of_allows hw htop hwords
  refine ⟨t, multiWrite_ok.mpr ⟨halign, hpass, ht⟩, honly, fun k v hv => ?_, houtside⟩
  obtain ⟨hk, rfl⟩ := List.getElem?_eq_some_iff.mp hv
  exact hat k hk

/-- Memory holds one word at an address. -/
theorem eq_of_readsAs_of_wordAt {s : State} {a : Nat} {v w : Word} (hv : ReadsAs s 4 a v)
    (hw : WordAt s a w) : v = w := by
  obtain ⟨hbytes, -⟩ := hv
  have hbyte : ∀ k < 4, v.extractLsb' (8 * k) 8 = w.extractLsb' (8 * k) 8 := fun k hk =>
    (hbytes k hk).trans (hw k hk)
  rw [← append_bytes_word v, ← append_bytes_word w, hbyte 0 (by decide), hbyte 1 (by decide),
    hbyte 2 (by decide), hbyte 3 (by decide)]

theorem WordAt.congr {s t : State} {a : Nat} {v : Word} (hmem : KeepsMemory s t)
    (hparams : t.params = s.params) (h : WordAt s a v) : WordAt t a v := fun k hk => by
  rw [hmem, hparams]
  exact h k hk

/-! ### How a transfer stops (R238) -/

section
variable {s : State} {a : Word} {n : Nat} {vs : List Word}

theorem multiRead_misaligned (h : a.toNat % 4 ≠ 0) : multiRead n a s = .error .misaligned := by
  have halign : alignedTo .word a = false := alignedTo_eq_false_iff.mpr h
  simp [multiRead, halign]

theorem multiWrite_misaligned (h : a.toNat % 4 ≠ 0) : multiWrite vs a s = .error .misaligned := by
  have halign : alignedTo .word a = false := alignedTo_eq_false_iff.mpr h
  simp [multiWrite, halign]

theorem multiRead_wrap (h : a.toNat % 4 = 0) (htop : 4294967296 ≤ a.toNat + 4 * n) :
    multiRead n a s = .error .wrap := by
  simp [multiRead, (alignedTo_word a).mpr h, passesTop, htop]

theorem multiWrite_wrap (h : a.toNat % 4 = 0) (htop : 4294967296 ≤ a.toNat + 4 * vs.length) :
    multiWrite vs a s = .error .wrap := by
  simp [multiWrite, (alignedTo_word a).mpr h, passesTop, htop]

/-- Below the top of memory an aligned transfer is its words. -/
theorem multiRead_eq_readWords (h : a.toNat % 4 = 0) (htop : a.toNat + 4 * n < 4294967296) :
    multiRead n a s = readWords n a s := by
  simp [multiRead, (alignedTo_word a).mpr h, passesTop, htop]

theorem multiWrite_eq_writeWords (h : a.toNat % 4 = 0)
    (htop : a.toNat + 4 * vs.length < 4294967296) : multiWrite vs a s = writeWords vs a s := by
  simp [multiWrite, (alignedTo_word a).mpr h, passesTop, htop]

/-- Every multiple load whose reads stop leaves its registers free to an abort. -/
theorem transferStops_of_multiRead {i : Instr} {ds : List RegNum} (hds : ∀ r ∈ ds, r ≠ 15#4)
    (h : ∀ e, multiRead n a s = .error e → exec i s = accessStop e (s.freeRegs ds)) :
    TransferStops i .read a n ds s := by
  refine ⟨fun hmis => h _ (multiRead_misaligned hmis),
    fun halign htop => h _ (multiRead_wrap halign htop),
    fun halign htop k hk hbefore => ⟨nofun, fun _ hadm => ?_⟩⟩
  have hstop : multiRead n a s = .error .refused := by
    rw [multiRead_eq_readWords halign htop]
    exact readWords_refused ((alignedTo_word a).mpr halign) k hk hbefore hadm
  exact endsRefused_of_accessStop (abortLeaves_freeRegs (abortLeaves_refl s _ _) ds hds)
    (h _ hstop)

/-- Every multiple store whose writes stop leaves its base and its words free to an abort. -/
theorem transferStops_of_multiWrite {i : Instr} {ds : List RegNum} (hw : Memory.wf s.mem)
    (hds : ∀ r ∈ ds, r ≠ 15#4)
    (h : ∀ e, multiWrite vs a s = .error e →
      exec i s = accessStop e ((s.freeStoredWords a vs.length).freeRegs ds)) :
    TransferStops i .write a vs.length ds s := by
  refine ⟨fun hmis => h _ (multiWrite_misaligned hmis),
    fun halign htop => h _ (multiWrite_wrap halign htop), fun halign htop k hk hbefore => ?_⟩
  obtain ⟨hcode, hrefused⟩ :=
    writeWords_stops ((alignedTo_word a).mpr halign) k hk hbefore
  rw [← multiWrite_eq_writeWords halign htop] at hcode hrefused
  refine ⟨fun _ hin => h _ (hcode hin), fun hout hadm => ?_⟩
  rw [if_pos rfl]
  exact endsRefused_of_accessStop
    (abortLeaves_freeRegs (abortLeaves_freeStoredWords hw a _ htop) ds hds)
    (h _ (hrefused (hout rfl) hadm))

end

/-! ### States that differ in some registers -/

/-- The pc is read through r15 alone. -/
theorem State.reg_withPc (s : State) (p : Word) {r : RegNum} (hr : r ≠ 15#4) :
    ({ s with pc := p } : State).reg r = s.reg r := s.reg_congr { s with pc := p } r hr rfl rfl

theorem State.lo_withPc (s : State) (p : Word) (r : Lo) :
    ({ s with pc := p } : State).lo r = s.lo r := s.reg_withPc p (loNum_ne_pc r)

/-- `u` is `s` with other values in the registers `ds` of the current mode. -/
structure RegsWritten (ds : List RegNum) (s u : State) : Prop where
  only : RegsOnly s u
  frame : KeepsRegs ds s u

section
variable {ds : List RegNum} {s u t : State}

theorem RegsWritten.refl (ds : List RegNum) (s : State) : RegsWritten ds s s :=
  ⟨RegsOnly.refl s, fun _ _ => rfl⟩

theorem RegsWritten.cpsr (h : RegsWritten ds s u) : u.cpsr = s.cpsr := by rw [h.only.eq]

theorem RegsWritten.pc (h : RegsWritten ds s u) : u.pc = s.pc := by rw [h.only.eq]

theorem RegsWritten.params (h : RegsWritten ds s u) : u.params = s.params := by rw [h.only.eq]

theorem RegsWritten.setReg (h : RegsWritten ds s u) {r : RegNum} (hmem : r ∈ ds) (hr : r ≠ 15#4)
    (v : Word) : RegsWritten ds s (u.setReg r v) := by
  refine ⟨h.only.setReg r v hr, fun k hk => ?_⟩
  rw [u.regs_get_setReg r v k hr, h.cpsr, if_neg (hk r hmem)]
  exact h.frame k hk

theorem RegsWritten.setList (h : RegsWritten ds s u) {rs : List Lo}
    (hmem : ∀ r ∈ rs, loNum r ∈ ds) (vs : List Word) : RegsWritten ds s (u.setList rs vs) := by
  refine ⟨h.only.setList rs vs, fun k hk => ?_⟩
  rw [u.regs_get_setList rs vs k fun r hr => ?_]
  · exact h.frame k hk
  · rw [h.cpsr]
    exact hk _ (hmem r hr)

theorem RegsWritten.writeBackBase (h : RegsWritten ds s u) {rn : Lo} (hmem : loNum rn ∈ ds)
    (l : BitVec 8) (v : Word) : RegsWritten ds s (u.writeBackBase rn l v) := by
  unfold State.writeBackBase
  split
  · exact h
  · exact h.setReg hmem (loNum_ne_pc rn) v

theorem RegsWritten.keepsFlags (h : RegsWritten ds s u) (p : Word) :
    KeepsFlags s { u with pc := p } := (h.only.keeps p).1

theorem RegsWritten.touchesOnly (h : RegsWritten ds s u) (p : Word) :
    TouchesOnly ds s { u with pc := p } := by
  obtain ⟨-, hcontrol, hsaved, houtside, hmem, hdraws, -, -⟩ := h.only.keeps p
  exact ⟨h.frame, hcontrol, hsaved, houtside, hmem, hdraws⟩

theorem RegsWritten.advance (h : RegsWritten ds s u) (hpc : s.pc ≠ 0xFFFFFFFE#32) :
    advance u = .next { u with pc := s.pc + 2#32 } := by
  rw [advance_eq u (by rwa [h.pc]), h.pc]

theorem RegsWritten.staysThumb (h : RegsWritten ds s u) (hthumb : s.cpsr.t = true) (p : Word) :
    StaysThumb ds p s { u with pc := p } :=
  ⟨rfl, (congrArg Psr.t h.cpsr).trans hthumb, h.keepsFlags p, h.touchesOnly p⟩

theorem RegsWritten.entersArm (h : RegsWritten ds s u) (p : Word) :
    EntersArm ds p s { u with pc := p, cpsr := { u.cpsr with t := false } } := by
  obtain ⟨hregs, -, hsaved, houtside, hmem, hdraws⟩ := h.touchesOnly p
  exact ⟨hregs, by rw [h.cpsr], rfl, hsaved, houtside, hmem, hdraws⟩

/-- Registers written after a store: the frame of both. -/
theorem touchesOnlyAt_of_stored {a n : Nat} (hu : u = { s with mem := u.mem })
    (hmem : KeepsMemoryOutside a n s u) (h : TouchesOnly ds u t) : TouchesOnlyAt ds a n s t := by
  obtain ⟨hregs, hcontrol, hsaved, houtside, hkept, hdraws⟩ := h
  have hkeep : KeepsMemoryOutside a n s t := fun b hb => (hkept b).trans (hmem b hb)
  generalize u.mem = m at hu
  subst hu
  exact ⟨hregs, hcontrol, fun m' => (hsaved m').trans (by cases m' <;> rfl), houtside, hkeep,
    hdraws⟩

theorem KeepsFlags.of_cpsr_eq (hcpsr : u.cpsr = s.cpsr) (h : KeepsFlags u t) : KeepsFlags s t := by
  rw [KeepsFlags, ← hcpsr]
  exact h

/-- The whole status register is its flags and the rest. -/
theorem cpsr_eq_of_keeps (hflags : KeepsFlags s t) (hcontrol : KeepsControl s t) :
    t.cpsr = s.cpsr := by
  obtain ⟨hn, hz, hc, hv⟩ := hflags
  obtain ⟨hunused, hi, hf, ht, hmode⟩ := hcontrol
  cases hs : s.cpsr
  cases htp : t.cpsr
  simp_all

end

/-! ### Multiple loads -/

theorem loNum_mem_listNums {l : BitVec 8} {r : Lo} (h : r ∈ listRegs l) : loNum r ∈ listNums l :=
  List.mem_map_of_mem h

/-- The words read, written to the list, are the words at each register's rank. -/
theorem listLoaded_setList {l : BitVec 8} {a : Nat} {s : State} {vs : List Word}
    (hlen : listCount l ≤ vs.length)
    (hreads : ∀ k (hk : k < vs.length), ReadsAs s 4 (a + 4 * k) vs[k]) (u : State) :
    ListLoaded l a s (u.setList (listRegs l) vs) := fun r hr => by
  have hrank := (listRank_lt l r hr).trans_le hlen
  rw [u.lo_setList _ vs (nodup_listRegs l) hlen r _ (getElem?_listRank l r hr),
    getElem!_pos vs _ hrank]
  exact hreads _ hrank

/-- Only the registers of the list count. -/
theorem ListLoaded.congr {l : BitVec 8} {a : Nat} {s u t : State} (h : ListLoaded l a s u)
    (hlo : ∀ r, t.lo r = u.lo r) : ListLoaded l a s t := fun r hr => by
  rw [hlo]
  exact h r hr

section
variable {s : State} {rn : Lo} {l : BitVec 8}

theorem execLdmia_of_ok {vs : List Word} (hl : l ≠ 0#8)
    (h : multiRead (listCount l) (s.lo rn) s = .ok vs) : execLdmia rn l s =
      advance ((s.writeBackBase rn l (afterWords (s.lo rn) (listCount l))).setList
        (listRegs l) vs) := by
  simp only [execLdmia, if_neg hl, h]

theorem execLdmia_of_error {e : MemStop} (hl : l ≠ 0#8)
    (h : multiRead (listCount l) (s.lo rn) s = .error e) :
    execLdmia rn l s = accessStop e (s.freeRegs (loNum rn :: listNums l)) := by
  simp only [execLdmia, if_neg hl, h]

/-- The loads of the list leave the base as it was written back, when it is not listed (R236). -/
theorem lo_writeBackBase_setList (h : l.getLsbD rn.toNat = false) (v : Word) (vs : List Word) :
    ((s.writeBackBase rn l v).setList (listRegs l) vs).lo rn = v := by
  have hmem : rn ∉ listRegs l := by simp [mem_listRegs, h]
  rw [State.lo_setList_of_notMem _ _ _ _ hmem, State.writeBackBase, if_neg (by simp [h]),
    State.lo_setLo, if_pos rfl]

theorem regsWritten_ldmia (v : Word) (vs : List Word) :
    RegsWritten (loNum rn :: listNums l) s
      ((s.writeBackBase rn l v).setList (listRegs l) vs) :=
  ((RegsWritten.refl _ s).writeBackBase List.mem_cons_self l v).setList
    (fun _ hr => List.mem_cons_of_mem _ (loNum_mem_listNums hr)) vs

end

/-! ### POP -/

/-- The state after POP has written its list and SP, before the pc changes. -/
structure Popped (l : BitVec 8) (n : Nat) (s u : State) : Prop where
  loaded : ListLoaded l s.sp.toNat s u
  sp : u.sp = s.sp + BitVec.ofNat 32 (4 * n)
  written : RegsWritten (13#4 :: listNums l) s u

/-- A next state that differs in the pc and in T alone has the same list and SP. -/
theorem Popped.congr {l : BitVec 8} {n : Nat} {s u t : State} (h : Popped l n s u)
    (hregs : t.regs = u.regs) (hmode : t.cpsr.mode = u.cpsr.mode) :
    ListLoaded l s.sp.toNat s t ∧ t.sp = s.sp + BitVec.ofNat 32 (4 * n) :=
  ⟨h.loaded.congr fun r => u.lo_congr t r hregs hmode,
    (u.reg_congr t 13#4 (by decide) hregs hmode).trans h.sp⟩

theorem popped_setSp {l : BitVec 8} {n : Nat} {s : State} {vs : List Word}
    (hlen : listCount l ≤ vs.length)
    (hreads : ∀ k (hk : k < vs.length), ReadsAs s 4 (s.sp.toNat + 4 * k) vs[k]) :
    Popped l n s ((s.setList (listRegs l) vs).setSp (afterWords s.sp n)) :=
  ⟨(listLoaded_setList hlen hreads s).congr (State.lo_setSp _ _), State.sp_setSp _ _,
    ((RegsWritten.refl _ s).setList
      (fun _ hr => List.mem_cons_of_mem _ (loNum_mem_listNums hr)) vs).setReg List.mem_cons_self
        (by decide) _⟩

section
variable {s : State} {l : BitVec 8}

theorem execPop_of_error {r : Bool} {e : MemStop} (hn : stackCount r l ≠ 0)
    (h : multiRead (stackCount r l) s.sp s = .error e) :
    execPop r l s = accessStop e (s.freeRegs (13#4 :: listNums l)) := by
  simp only [execPop, if_neg hn, h]

/-- POP without the PC writes its registers and goes on. -/
theorem execPop_list (hn : stackCount false l ≠ 0)
    (h : s.allowsWords .read s.sp (stackCount false l)) :
    ∃ u, Popped l (stackCount false l) s u ∧ execPop false l s = advance u := by
  obtain ⟨vs, hvs, hlen, hreads⟩ := multiRead_readsAs hn h
  refine ⟨_, popped_setSp (by rw [hlen]; exact Nat.le_add_right _ _) hreads, ?_⟩
  simp only [execPop, if_neg hn, hvs, Bool.false_eq_true, if_false]

/-- POP with the PC writes its registers, and the word after the list is the PC's. -/
theorem execPop_pc (h : s.allowsWords .read s.sp (stackCount true l)) :
    ∃ u v, Popped l (stackCount true l) s u ∧ ReadsAs s 4 (s.sp.toNat + 4 * listCount l) v ∧
      execPop true l s = popPc v u := by
  have hn : stackCount true l ≠ 0 := Nat.succ_ne_zero _
  obtain ⟨vs, hvs, hlen, hreads⟩ := multiRead_readsAs hn h
  have hlast : listCount l < vs.length := by rw [hlen]; exact Nat.lt_succ_self _
  refine ⟨_, vs[listCount l], popped_setSp hlast.le hreads, hreads _ hlast, ?_⟩
  simp only [execPop, if_neg hn, hvs, if_true, List.getD_eq_getElem _ _ hlast]

end

/-- In Thumb state a popped PC stays there before v5T, and from v5T on when it is odd (R234). -/
theorem popPc_thumb {v : Word} {u : State} (hthumb : u.cpsr.t = true)
    (h : u.params.arch5t = false ∨ v.getLsbD 0 = true) :
    popPc v u = .next { u with pc := v &&& 0xFFFFFFFE#32 } := by
  unfold popPc
  split
  next h5t =>
    rw [exchange_thumb (h.resolve_left (by simp [h5t])), ← hthumb]
  next => rfl

theorem popPc_arm {v : Word} {u : State} (h5t : u.params.arch5t = true)
    (hv : v.extractLsb' 0 2 = 0b00#2) :
    popPc v u = .next { u with pc := v, cpsr := { u.cpsr with t := false } } := by
  rw [popPc, if_pos h5t, exchange_arm hv]

/-! ### Multiple stores -/

/-- Every multiple store that may be performed writes its words, then its base register. -/
theorem multiWrite_completes {vs : List Word} {a : Word} {s : State} (hw : Memory.wf s.mem)
    (hn : vs.length ≠ 0) (h : s.allowsWords .write a vs.length) (hpc : s.pc ≠ 0xFFFFFFFE#32)
    {r : RegNum} (hr : r ≠ 15#4) (v : Word) :
    ∃ s' t, multiWrite vs a s = .ok s' ∧ advance (s'.setReg r v) = .next t ∧
      (∀ k w, vs[k]? = some w → WordAt t (a.toNat + 4 * k) w) ∧ t.reg r = v ∧
      KeepsFlags s t ∧ TouchesOnlyAt [r] a.toNat (4 * vs.length) s t ∧ t.pc = s.pc + 2#32 := by
  obtain ⟨s', hs', honly, hat, houtside⟩ := multiWrite_wordAt hw hn h
  have hpc' : s'.pc = s.pc := by rw [honly]
  have hcpsr : s'.cpsr = s.cpsr := by rw [honly]
  have hwritten := (RegsWritten.refl [r] s').setReg List.mem_cons_self hr v
  have hframe := hwritten.touchesOnly (s'.pc + 2#32)
  have ⟨_, _, _, ⟨hparams, _⟩, hmem, _⟩ := hframe
  have hflags : KeepsFlags s { s'.setReg r v with pc := s'.pc + 2#32 } :=
    (hwritten.keepsFlags _).of_cpsr_eq hcpsr
  refine ⟨s', _, hs', hwritten.advance (by rwa [hpc']), fun k w hk => ?_, ?_, hflags,
    touchesOnlyAt_of_stored honly houtside hframe, congrArg (· + 2#32) hpc'⟩
  · exact (hat k w hk).congr hmem hparams
  · exact ((s'.setReg r v).reg_withPc _ hr).trans
      ((s'.reg_setReg r r v hr).trans (if_pos rfl))

theorem length_map_listRegs (l : BitVec 8) (s : State) :
    ((listRegs l).map s.lo).length = listCount l := List.length_map ..

/-- The words that STMIA and PUSH store stand at the ranks of their registers. -/
theorem getElem?_map_listRegs {l : BitVec 8} {r : Lo} (h : l.getLsbD r.toNat = true) (s : State) :
    ((listRegs l).map s.lo)[listRank l r]? = some (s.lo r) := by
  rw [List.getElem?_map, getElem?_listRank l r h, Option.map_some]

theorem length_pushValues (r : Bool) (l : BitVec 8) (s : State) :
    (pushValues r l s).length = stackCount r l := by
  cases r <;> simp [pushValues, stackCount, length_listRegs]

theorem getElem?_pushValues_listRank {l : BitVec 8} {j : Lo} (h : l.getLsbD j.toNat = true)
    (r : Bool) (s : State) : (pushValues r l s)[listRank l j]? = some (s.lo j) := by
  have hrank : listRank l j < ((listRegs l).map s.lo).length := by
    rw [length_map_listRegs]
    exact listRank_lt l j h
  rw [pushValues, List.getElem?_append_left hrank, getElem?_map_listRegs h]

theorem getElem?_pushValues_lr (l : BitVec 8) (s : State) :
    (pushValues true l s)[listCount l]? = some s.lr := by
  rw [pushValues, ← length_map_listRegs l s, List.getElem?_append_right le_rfl, Nat.sub_self]
  rfl

section
variable {s : State} {rn : Lo} {l : BitVec 8}

/-- Rn in the list is no fault when it is the lowest register there (R236). -/
theorem not_lowerInList (h : l.getLsbD rn.toNat = true → ∀ j < rn.toNat, l.getLsbD j = false) :
    (l.getLsbD rn.toNat && WellFormed.lowerInList rn l) = false := by
  rw [Bool.eq_false_iff, ne_eq, Bool.and_eq_true, lowerInList_iff]
  rintro ⟨hrn, j, hj, hset⟩
  rw [h hrn j hj] at hset
  contradiction

theorem execStmia_of_ok {s' : State} (hl : l ≠ 0#8)
    (hlow : (l.getLsbD rn.toNat && WellFormed.lowerInList rn l) = false)
    (h : multiWrite ((listRegs l).map s.lo) (s.lo rn) s = .ok s') :
    execStmia rn l s = advance (s'.setLo rn (afterWords (s.lo rn) (listCount l))) := by
  simp only [execStmia, if_neg hl, hlow, Bool.false_eq_true, if_false, h]

theorem execStmia_of_error {e : MemStop} (hl : l ≠ 0#8)
    (hlow : (l.getLsbD rn.toNat && WellFormed.lowerInList rn l) = false)
    (h : multiWrite ((listRegs l).map s.lo) (s.lo rn) s = .error e) : execStmia rn l s =
      accessStop e ((s.freeStoredWords (s.lo rn) (listCount l)).freeRegs [loNum rn]) := by
  simp only [execStmia, if_neg hl, hlow, Bool.false_eq_true, if_false, h]

theorem execPush_of_ok {r : Bool} {s' : State} (hn : stackCount r l ≠ 0)
    (h : multiWrite (pushValues r l s) (pushStart r l s) s = .ok s') :
    execPush r l s = advance (s'.setSp (pushStart r l s)) := by
  simp only [execPush, if_neg hn, h]

theorem execPush_of_error {r : Bool} {e : MemStop} (hn : stackCount r l ≠ 0)
    (h : multiWrite (pushValues r l s) (pushStart r l s) s = .error e) : execPush r l s =
      accessStop e ((s.freeStoredWords (pushStart r l s) (stackCount r l)).freeRegs [13#4]) := by
  simp only [execPush, if_neg hn, h]

end

/-! ### PUSH and then POP -/

section
variable {ds : List RegNum} {s t u : State}

theorem State.allowsWords_read_congr (hparams : t.params = s.params) {a : Word} {n : Nat}
    (h : s.allowsWords .read a n) : t.allowsWords .read a n := by
  obtain ⟨htop, hwords⟩ := h
  refine ⟨htop, fun k hk => ?_⟩
  rw [← hwords k hk, Bool.eq_iff_iff, allows_read, allows_read, State.admits, hparams]
  rfl

/-- A frame composes with that of a state that writes no other register. -/
theorem KeepsRegs.trans {ds' : List RegNum} (h : KeepsRegs ds' s t)
    (hmode : t.cpsr.mode = s.cpsr.mode) (hds : ds' ⊆ ds) (h' : KeepsRegs ds t u) :
    KeepsRegs ds s u := fun k hk =>
  (h' k (by rwa [hmode])).trans (h k fun d hd => hk d (hds hd))

/-- Registers written with the values they had are as they were, and so are all banks. -/
theorem KeepsRegs.regs_eq (h : KeepsRegs ds s u) (hmode : u.cpsr.mode = s.cpsr.mode)
    (hds : ∀ d ∈ ds, d ≠ 15#4 ∧ u.reg d = s.reg d) : u.regs = s.regs := by
  refine Vector.ext fun k hk => ?_
  change u.regs.get ⟨k, hk⟩ = s.regs.get ⟨k, hk⟩
  by_cases hwritten : ∃ d ∈ ds, (⟨k, hk⟩ : Fin 30) = slot s.cpsr.mode d
  · obtain ⟨d, hd, hslot⟩ := hwritten
    obtain ⟨hne, hvalue⟩ := hds d hd
    rw [State.reg, State.reg, if_neg hne, if_neg hne, State.bankReg, State.bankReg, hmode]
      at hvalue
    rwa [hslot]
  · push Not at hwritten
    exact h _ hwritten

/-- What PUSH stored and POP loaded again, SP with it, leaves every register of every bank. -/
theorem regs_eq_of_push_pop {l : BitVec 8} {a : Nat}
    (hstored : ∀ j : Lo, l.getLsbD j.toNat = true → WordAt t (a + 4 * listRank l j) (s.lo j))
    (hloaded : ListLoaded l a t u) (hsp : u.sp = s.sp) (hpush : KeepsRegs [13#4] s t)
    (hpop : KeepsRegs (13#4 :: listedNums l) t u) (htmode : t.cpsr.mode = s.cpsr.mode)
    (humode : u.cpsr.mode = t.cpsr.mode) : u.regs = s.regs := by
  refine (hpush.trans htmode (by simp) hpop).regs_eq (humode.trans htmode) ?_
  rw [listedNums_eq, List.forall_mem_cons]
  refine ⟨⟨by decide, hsp⟩, fun d hd => ?_⟩
  obtain ⟨j, hj, rfl⟩ := List.mem_map.mp hd
  have hlisted := (mem_listRegs l j).mp hj
  exact ⟨loNum_ne_pc j, eq_of_readsAs_of_wordAt (hloaded j hlisted) (hstored j hlisted)⟩

end

end Sys2Proof.Machine

namespace Sys2Proof.Proofs

open Sys2Proof.Machine

/-- Settles O55: the list is loaded after the base is written back, so that the base keeps the
address after the transfer exactly when it is not listed. -/
theorem ldmiaResult : Obligations.LdmiaResult := by
  unfold Obligations.LdmiaResult
  intro rn l s
  rw [listSize_eq, listedNums_eq]
  refine ⟨decodeOfEncode (.ldmia rn l), fun hl => if_pos hl, fun hl => ⟨fun hwords hpc => ?_, ?_⟩⟩
  · obtain ⟨vs, hvs, hlen, hreads⟩ := multiRead_readsAs (listCount_pos l hl).ne' hwords
    have hwritten := regsWritten_ldmia (s := s) (rn := rn) (l := l)
      (afterWords (s.lo rn) (listCount l)) vs
    refine ⟨_, (execLdmia_of_ok hl hvs).trans (hwritten.advance hpc), ?_, fun hrn => ?_,
      hwritten.keepsFlags _, hwritten.touchesOnly _, rfl⟩
    · exact (listLoaded_setList hlen.ge hreads _).congr (State.lo_withPc _ _)
    · exact (State.lo_withPc _ _ rn).trans (lo_writeBackBase_setList hrn _ vs)
  · exact transferStops_of_multiRead (cons_listNums_ne_pc (loNum_ne_pc rn) l) fun _ =>
      execLdmia_of_error hl

/-- Settles O56: the words are stored before the base is written, each at its register's rank. -/
theorem stmiaResult : Obligations.StmiaResult := by
  unfold Obligations.StmiaResult
  intro rn l s hw
  rw [listSize_eq]
  have hlen := length_map_listRegs l s
  refine ⟨decodeOfEncode (.stmia rn l), fun hbad => ?_, fun hl hlow => ⟨fun hwords hpc => ?_, ?_⟩⟩
  · obtain hl | ⟨hrn, hlower⟩ := hbad
    · exact if_pos hl
    · exact execStmia_not_lowest hrn hlower s
  · rw [← hlen] at hwords
    obtain ⟨s', t, hs', ht, hat, hrn, hflags, hframe, hpc'⟩ := multiWrite_completes hw
      (hlen ▸ (listCount_pos l hl).ne') hwords hpc (loNum_ne_pc rn)
      (afterWords (s.lo rn) (listCount l))
    rw [hlen] at hframe
    exact ⟨t, (execStmia_of_ok hl (not_lowerInList hlow) hs').trans ht,
      fun r hr => hat _ _ (getElem?_map_listRegs hr s), hrn, hflags, hframe, hpc'⟩
  · rw [← hlen]
    refine transferStops_of_multiWrite hw (loBase_ne_pc rn) fun e he => ?_
    rw [hlen]
    exact execStmia_of_error hl (not_lowerInList hlow) he

/-- Settles O57: LR follows the list, so that it stands at the highest address. -/
theorem pushResult : Obligations.PushResult := by
  unfold Obligations.PushResult
  intro r l s n start hw hn hstart
  rw [listSize_eq] at hn
  obtain rfl : n = stackCount r l := hn
  obtain rfl : start = pushStart r l s := hstart
  rw [listSize_eq]
  have hlen := length_pushValues r l s
  refine ⟨decodeOfEncode (.push r l), fun h0 => if_pos h0, fun hn => ⟨fun hwords hpc => ?_, ?_⟩⟩
  · rw [← hlen] at hwords
    obtain ⟨s', t, hs', ht, hat, hsp, hflags, hframe, hpc'⟩ := multiWrite_completes hw (hlen ▸ hn)
      hwords hpc (r := 13#4) (by decide) (pushStart r l s)
    rw [hlen] at hframe
    refine ⟨t, (execPush_of_ok hn hs').trans ht,
      fun j hj => hat _ _ (getElem?_pushValues_listRank hj r s), ?_, hsp, hflags, hframe, hpc'⟩
    rintro rfl
    exact hat _ _ (getElem?_pushValues_lr l s)
  · rw [← hlen]
    refine transferStops_of_multiWrite hw spBase_ne_pc fun e he => ?_
    rw [hlen]
    exact execPush_of_error hn he

/-- Settles O58: the list and SP are written in every case; the version and the word loaded decide
the state in which the PC goes on. -/
theorem popResult : Obligations.PopResult := by
  unfold Obligations.PopResult
  intro r l s n hn
  rw [listSize_eq] at hn
  obtain rfl : n = stackCount r l := hn
  rw [listSize_eq, listedNums_eq]
  refine ⟨decodeOfEncode (.pop r l), fun h0 => if_pos h0, fun hn =>
    transferStops_of_multiRead (cons_listNums_ne_pc (by decide) l) fun _ => execPop_of_error hn,
    fun hn hwords => ⟨?_, ?_⟩⟩
  · rintro rfl hpc
    obtain ⟨u, hu, hexec⟩ := execPop_list hn hwords
    obtain ⟨hloaded, hsp⟩ := hu.congr (t := { u with pc := s.pc + 2#32 }) rfl rfl
    exact ⟨_, hexec.trans (hu.written.advance hpc), hloaded, hsp, hu.written.keepsFlags _,
      hu.written.touchesOnly _, rfl⟩
  · rintro rfl hthumb
    obtain ⟨u, v, hu, hv, hexec⟩ := execPop_pc hwords
    rw [← hu.written.params]
    refine ⟨v, hv, fun hstay => ?_, fun h5t hbits => ?_, fun h5t hbits => ?_⟩
    · obtain ⟨hloaded, hsp⟩ := hu.congr (t := { u with pc := v &&& 0xFFFFFFFE#32 }) rfl rfl
      exact ⟨_, hexec.trans (popPc_thumb (by rw [hu.written.cpsr, hthumb]) hstay), hloaded, hsp,
        hu.written.staysThumb hthumb _⟩
    · obtain ⟨hloaded, hsp⟩ :=
        hu.congr (t := { u with pc := v, cpsr := { u.cpsr with t := false } }) rfl rfl
      exact ⟨_, hexec.trans (popPc_arm h5t hbits), hloaded, hsp, hu.written.entersArm v⟩
    · exact hexec.trans ((if_pos h5t).trans (exchange_unpredictable hbits))

/-- Settles O59: POP runs from the state PUSH leaves, and each word it loads is the one stored. -/
theorem pushPopInverse : Obligations.PushPopInverse := by
  unfold Obligations.PushPopInverse
  intro r l s n start hw hn hne hstart hwrite hread hpc
  obtain ⟨-, -, hpush⟩ := pushResult r l s n start hw hn hstart
  obtain ⟨t, ht, hlist, hlr, htsp, htflags, ⟨htregs, htcontrol, -, ⟨htparams, -⟩, -⟩, htpc⟩ :=
    (hpush hne).1 hwrite hpc
  have htcpsr := cpsr_eq_of_keeps htflags htcontrol
  obtain ⟨-, -, -, hpop⟩ := popResult r l t n hn
  rw [htsp] at hpop
  obtain ⟨hpopList, hpopPc⟩ := hpop hne (State.allowsWords_read_congr htparams hread)
  have hback : start + BitVec.ofNat 32 (4 * n) = s.sp := by rw [hstart, BitVec.sub_add_cancel]
  refine ⟨fun hr hpc' => ?_, fun hr hthumb hodd => ?_⟩
  · have htop : t.pc ≠ 0xFFFFFFFE#32 := by
      rw [htpc]
      bv_omega
    obtain ⟨u, hu, hloaded, husp, -, ⟨huregs, ⟨-, -, -, -, humode⟩, -⟩, -⟩ := hpopList hr htop
    exact ⟨t, u, ht, hu, regs_eq_of_push_pop hlist hloaded (husp.trans hback) htregs huregs
      (congrArg Psr.mode htcpsr) humode⟩
  · obtain ⟨v, hv, hstay, -⟩ := hpopPc hr (by rwa [htcpsr])
    obtain rfl := eq_of_readsAs_of_wordAt hv (hlr hr)
    obtain ⟨u, hu, hloaded, husp, hupc, -, huflags, huregs, hucontrol, -⟩ := hstay (.inr hodd)
    have hucpsr := cpsr_eq_of_keeps huflags hucontrol
    exact ⟨t, u, ht, hu, regs_eq_of_push_pop hlist hloaded (husp.trans hback) htregs huregs
      (congrArg Psr.mode htcpsr) (congrArg Psr.mode hucpsr), hucpsr.trans htcpsr, hupc⟩

end Sys2Proof.Proofs
end

section
/-! PROOF. The exceptions (60_exceptions.md): what each entry writes, what a return undoes, when an
interrupt, a refused fetch or an undefined encoding is taken, and that nothing else changes the mode,
the masks or a saved status. -/

namespace Sys2Proof.Machine

/-! ### The entry sequence (R252, R259) -/

theorem Exception.mode_hasSpsr (e : Exception) (s : State) : (s.spsr e.mode).isSome := by
  cases e <;> rfl

theorem enterException_spsr (e : Exception) (link : Word) (saved : Psr) (s : State) (m : Mode) :
    (enterException e link saved s).spsr m = if m = e.mode then some saved else s.spsr m :=
  State.spsr_setSpsr (s.setBankReg e.mode 14#4 link) e.mode m saved (e.mode_hasSpsr _)

/-- The entry sequence of R252, whatever link and status it saves. -/
theorem entered_enterException (e : Exception) (link : Word) (saved : Psr) (s : State) :
    Entered e link saved s (enterException e link saved s) := by
  have hlink : (enterException e link saved s).bankReg e.mode 14#4 = link := by
    rw [State.bankReg, enterException_regs, get_set_slot, if_pos rfl]
  have hsaved : (enterException e link saved s).spsr e.mode = some saved := by
    rw [enterException_spsr, if_pos rfl]
  have hfiq : (enterException e link saved s).cpsr.f =
      (s.cpsr.f || (e == .reset || e == .fiq)) := by
    rw [enterException_cpsr, Psr.entered_f, Exception.disablesFiq_eq]
  have hregs : ∀ k : Fin 30, k ≠ slot e.mode 14#4 →
      (enterException e link saved s).regs.get k = s.regs.get k := fun k hk => by
    rw [enterException_regs, get_set_slot, if_neg hk]
  have hspsrs : ∀ m, m ≠ e.mode → (enterException e link saved s).spsr m = s.spsr m :=
    fun m hm => by rw [enterException_spsr, if_neg hm]
  have hmem : KeepsMemory s (enterException e link saved s) :=
    State.byteAt_congr (enterException_mem e link saved s)
  refine ⟨hlink, hsaved, ?_, ?_, ?_, hfiq, enterException_pc e link saved s, ?_, ?_, hregs, hspsrs,
    ?_, hmem⟩ <;> simp [KeepsFlags, KeepsOutside]

/-- Reset saves free values; the counter of these is no part of the entry. -/
theorem entered_reset (s : State) : Entered .reset (Config.freeWord s.draws)
    (Config.freePsr s.draws) s (takeException .reset s) :=
  entered_enterException .reset (Config.freeWord s.draws) (Config.freePsr s.draws) s

theorem takeException_mode (e : Exception) (s : State) : (takeException e s).cpsr.mode = e.mode := by
  rw [takeException_cpsr, Psr.entered_mode]

theorem takeException_fiqMask (e : Exception) (s : State) :
    (takeException e s).cpsr.f = (s.cpsr.f || e.disablesFiq) := by
  rw [takeException_cpsr, Psr.entered_f]

/-! ### The return (R261, R266) -/

/-- In the handler's mode LR is the link of the entry. -/
theorem takeException_lr {e : Exception} (he : e ≠ .reset) (s : State) :
    (takeException e s).lr = s.pc + e.linkOffset := by
  have hbank : (takeException e s).lr = (takeException e s).bankReg e.mode 14#4 := by
    rw [State.lr, State.reg, if_neg (by decide), takeException_mode]
  rw [hbank, State.bankReg, takeException_regs e s he, if_pos rfl]

/-- A return takes back the status and goes to the link less its offset, and does nothing else. -/
theorem returnFrom_takeException {e : Exception} {k : Word} (he : e ≠ .reset)
    (hk : e.returnOffset = some k) (s : State) : returnFrom e (takeException e s) =
      some { takeException e s with pc := s.pc + e.linkOffset - k, cpsr := s.cpsr } := by
  have hsaved : (takeException e s).spsr (takeException e s).cpsr.mode = some s.cpsr := by
    rw [takeException_mode, takeException_spsr e s he, if_pos rfl]
  simp only [returnFrom, hk, hsaved, takeException_lr he s]

/-! ### Interrupts at an instruction boundary (R257, R258, R264) -/

section
variable {s : State}

theorem State.dueInterrupt_fiq (hline : s.linesNow.fiq = true) (hmask : s.cpsr.f = false) :
    s.dueInterrupt = some .fiq := by
  simp [State.dueInterrupt, hline, hmask]

/-- FIQ comes first, so that IRQ is due only where FIQ is not. -/
theorem State.dueInterrupt_of_not_fiq (hfiq : s.linesNow.fiq = false ∨ s.cpsr.f = true) :
    s.dueInterrupt = if s.linesNow.irq && !s.cpsr.i then some .irq else none := by
  have hnot : (s.linesNow.fiq && !s.cpsr.f) = false := by
    obtain h | h := hfiq <;> simp [h]
  rw [State.dueInterrupt, hnot, if_neg Bool.false_ne_true]

theorem step_of_due {e : Exception} (hended : s.ended = false) (hthumb : s.cpsr.t = true)
    (hdue : s.dueInterrupt = some e) : step s = .next (takeException e s.tick) :=
  step_next.mpr ⟨hended, hthumb, .inl ⟨e, hdue, rfl⟩⟩

/-! ### Fetches that are refused or deliver no instruction (R254, R255) -/

theorem fetch_of_refused (heven : s.pc.toNat % 2 = 0)
    (hadm : s.admits .half .fetch s.pc = false) : fetch s = .error .refused := by
  have hread : memRead .half .fetch s.pc s = .error .refused :=
    memRead_refused.mpr ⟨by simpa [alignedTo, widthBytes] using heven, hadm⟩
  simp only [fetch, hread]

theorem step_of_refused (hs : s.Running) (heven : s.pc.toNat % 2 = 0)
    (hadm : s.admits .half .fetch s.pc = false) : step s = fetchStop .refused s.tick := by
  have hfetch : fetch s.tick = .error .refused := fetch_of_refused (s := s.tick) heven hadm
  rw [step_of_running hs, runInstruction, hfetch]

/-- Before v5T the BLX forms go the way of an undefined encoding (R106, R124, R126). -/
theorem exec_onlyV5t {i : Instr} (hi : onlyV5t i = true) (h4 : s.params.arch5t = false) :
    exec i s = undefinedInstruction s := by
  cases i
  case blxReg | blxSuffix => simp [exec, execBlxReg, execBlxSuffix, h4]
  all_goals cases hi

/-- The half-words of R106 take the way of an undefined encoding, those that decode included. -/
theorem step_of_undefinedHalf {w : Half} (hs : s.Running) (hw : s.Fetches w)
    (hundef : UndefinedHalf s.params.arch5t w) : step s = undefinedInstruction s.tick := by
  rw [Decode.undefinedHalf_iff, Decode.undefinedHalf_true_iff_decode] at hundef
  obtain ⟨e, he⟩ | ⟨h4, i, hi, honly⟩ := hundef
  · exact step_of_decode_error hs hw he
  · rw [step_of_decode_ok hs hw hi, exec_onlyV5t (s := s.tick) honly h4]

end

/-! ### The software interrupt (R253) -/

theorem State.hostAction_eq_none {s : State} {n : BitVec 8}
    (h : s.params.swiHost = none ∨ ∃ entries, s.params.swiHost = some entries ∧
      ∀ e ∈ entries, e.1 ≠ n) : s.hostAction n = none := by
  obtain habsent | ⟨entries, htable, hno⟩ := h
  · rw [State.hostAction, habsent]
  · have hfind : entries.find? (fun e => e.1 == n) = none :=
      List.find?_eq_none.mpr fun e he => by simpa using hno e he
    simp only [State.hostAction, htable, hfind, Option.map_none]

/-! ### What changes the mode, the masks and the saved statuses (R263, R268) -/

/-- An exception that an instruction takes saves the status the instruction began with, even where the
instruction was aborted. -/
theorem Interrupted.spsr_takeException {i : Instr} {s u : State} (h : Interrupted i s u)
    {e : Exception} (he : e ≠ .reset) (m : Mode) :
    (takeException e u).spsr m = if m = e.mode then some s.cpsr else s.spsr m := by
  rw [takeException_spsr e u he, h.cpsr, h.saved m]

end Sys2Proof.Machine

namespace Sys2Proof.Proofs

open Sys2Proof.Machine

/-- Settles O16: the rows are the exceptions other than Reset with their modes, vectors and link
offsets. -/
theorem exceptionEntry : Obligations.ExceptionEntry := by
  unfold Obligations.ExceptionEntry
  intro s
  refine ⟨fun row hrow => ?_, ?_⟩
  · have htable : row.1 ≠ .reset ∧ row.1.linkOffset = row.2.2.2 ∧ row.1.mode = row.2.1 ∧
        row.1.vector = row.2.2.1 := by
      revert row
      decide
    obtain ⟨hreset, hlink, hmode, hvector⟩ := htable
    rw [takeException_mode, takeException_pc, ← hlink]
    exact ⟨entered_takeException hreset s, hmode, hvector⟩
  · obtain ⟨-, -, hmode, hthumb, hirq, hfiq, hpc, -⟩ := entered_reset s
    exact ⟨hmode, hthumb, hirq, hfiq.trans (Bool.or_true _), hpc⟩

/-- Settles O60: the link and the saved status are the free values of the entry. -/
theorem resetEntry : Obligations.ResetEntry := by
  unfold Obligations.ResetEntry
  intro s
  exact ⟨_, _, entered_reset s, takeException_mode .reset s,
    (takeException_fiqMask .reset s).trans (Bool.or_true _), takeException_pc .reset s⟩

/-- Settles O17: the offset a return subtracts leaves of the link what R261's last column says. -/
theorem exceptionReturn : Obligations.ExceptionReturn := by
  unfold Obligations.ExceptionReturn
  intro s e off hrow
  have htable : (e, off).1 ≠ .reset ∧
      (e, off).1.returnOffset.map (fun k => (e, off).1.linkOffset - k) = some (e, off).2 := by
    generalize (e, off) = row at hrow
    revert row
    decide
  obtain ⟨hreset, hreturn⟩ := htable
  obtain ⟨k, hk, hoff⟩ := Option.map_eq_some_iff.mp hreturn
  obtain ⟨-, -, -, -, -, -, -, -, -, hregs, -, houtside, hmem⟩ := entered_takeException hreset s
  refine ⟨_, returnFrom_takeException hreset hk s, rfl, ?_, hregs, hmem, houtside⟩
  calc s.pc + e.linkOffset - k = s.pc + (e.linkOffset - k) := by
        rw [BitVec.sub_eq_add_neg, BitVec.sub_eq_add_neg, BitVec.add_assoc]
    _ = s.pc + off := congrArg (s.pc + ·) hoff

/-- Settles O9: the interrupt that is due is taken at the boundary, and where none is due an
instruction runs. -/
theorem stepTakesInterrupt : Obligations.StepTakesInterrupt := by
  unfold Obligations.StepTakesInterrupt
  intro s hended hthumb
  refine ⟨fun hline hmask => ?_, fun hfiq hline hmask => ?_, fun hfiq hirq => ?_⟩
  · exact ⟨_, step_of_due hended hthumb (State.dueInterrupt_fiq hline hmask),
      entered_takeException (by decide) s.tick, takeException_mode .fiq _,
      (takeException_fiqMask .fiq _).trans (Bool.or_true _), takeException_pc .fiq _⟩
  · have hdue : s.dueInterrupt = some .irq := by
      rw [State.dueInterrupt_of_not_fiq hfiq, hline, hmask]
      rfl
    exact ⟨_, step_of_due hended hthumb hdue, entered_takeException (by decide) s.tick,
      takeException_mode .irq _, (takeException_fiqMask .irq _).trans (Bool.or_false _),
      takeException_pc .irq _⟩
  · have hnot : (s.linesNow.irq && !s.cpsr.i) = false := by
      obtain h | h := hirq <;> simp [h]
    refine ⟨hended, hthumb, ?_⟩
    rw [State.dueInterrupt_of_not_fiq hfiq, hnot]
    rfl

/-- Settles O18: a number without an entry in the host table has no host action, and SWI takes its
exception. -/
theorem swiEntry : Obligations.SwiEntry := by
  unfold Obligations.SwiEntry
  intro imm8 s
  refine ⟨decodeOfEncode (.swi imm8), fun hhost => ?_⟩
  have hentered := entered_takeException (e := .swi) (by decide) s
  obtain ⟨hlink, hsaved, -⟩ := id hentered
  refine ⟨_, exec_swi_none (State.hostAction_eq_none hhost), hentered, Option.some.inj hsaved, hlink,
    ?_, (takeException_fiqMask .swi s).trans (Bool.or_false _), takeException_pc .swi s⟩
  rw [takeException_mode]
  rfl

/-- Settles O22: an instruction that ends otherwise keeps the control fields, and the exceptions it can
take mask IRQ and leave F. -/
theorem controlChangesOnlyByException : Obligations.ControlChangesOnlyByException := by
  unfold Obligations.ControlChangesOnlyByException
  intro i s t h
  cases exec_cases h with
  | ordinary hord => exact .inl ⟨hord.mode, hord.irqMask, hord.fiqMask, hord.unused, hord.saved⟩
  | exception e u hint ht why =>
    subst ht
    have he : e ≠ .reset ∧ e.disablesFiq = false := by
      obtain ⟨rfl, -⟩ | ⟨rfl, -⟩ | ⟨rfl, -⟩ := why <;> decide
    obtain ⟨hreset, hfiq⟩ := he
    refine .inr ⟨e, ?_, takeException_mode e u, ?_, ?_, ?_, ?_, ?_, fun m hm => ?_⟩
    · obtain ⟨rfl, n, hn, -⟩ | habort | hundef := why
      · exact .inl ⟨rfl, n, hn⟩
      · exact .inr (.inl habort)
      · exact .inr (.inr hundef)
    · simp
    · rw [takeException_fiqMask, hfiq, Bool.or_false, hint.cpsr]
    · simp
    · simp [hint.cpsr]
    · rw [hint.spsr_takeException hreset, if_pos rfl]
    · rw [hint.spsr_takeException hreset, if_neg hm]

/-- Settles O6: an undefined half-word goes one way, which this parameter makes the exception. -/
theorem undefinedTrapEntry : Obligations.UndefinedTrapEntry := by
  unfold Obligations.UndefinedTrapEntry
  intro s w hs htraps hw hundef
  have hstep : step s = .next (takeException .undefined s.tick) := by
    rw [step_of_undefinedHalf hs hw hundef]
    exact undefinedInstruction_next.mpr ⟨htraps, rfl⟩
  exact ⟨_, hstep, entered_takeException (by decide) s.tick, takeException_mode .undefined _,
    takeException_pc .undefined _⟩

/-- Settles O8: the refused fetch stops the step before anything is decoded. -/
theorem stepRefusedFetch : Obligations.StepRefusedFetch := by
  unfold Obligations.StepRefusedFetch
  intro s hs heven hadm
  rw [step_of_refused hs heven hadm]
  refine ⟨fun hfault => ?_, fun htraps => ?_⟩
  · simp [fetchStop, hfault]
  · exact ⟨_, fetchStop_next.mpr ⟨rfl, htraps, rfl⟩, entered_takeException (by decide) s.tick,
      takeException_mode .prefetchAbort _, takeException_pc .prefetchAbort _⟩

end Sys2Proof.Proofs
end

section
/-! PROOF. User and System mode (60_exceptions.md R268, 10_state.md R23): the two share their registers,
no check of an access asks for the mode, and so every operation commutes with the change from User to
System mode. -/

namespace Sys2Proof.Machine

/-- What a System-mode run answers when the same run begun in User mode answers `r`. -/
def answerTwin (r : Result) : Result :=
  match r with
  | .next t => .next t.systemTwin
  | .fault f => .fault f
  | .refused e => .refused e

theorem answerTwin_eq_fault {r : Result} {f : Fault} : answerTwin r = .fault f ↔ r = .fault f := by
  cases r <;> simp [answerTwin]

/-! ### Operations that do not read the mode (R59, R268) -/

@[simp] theorem State.asSystem_pc (s : State) : s.asSystem.pc = s.pc := rfl
@[simp] theorem State.asSystem_params (s : State) : s.asSystem.params = s.params := rfl
@[simp] theorem State.asSystem_draws (s : State) : s.asSystem.draws = s.draws := rfl
@[simp] theorem State.linkValue_asSystem (s : State) : s.asSystem.linkValue = s.linkValue := rfl
@[simp] theorem State.hostAction_asSystem (s : State) (n : BitVec 8) :
    s.asSystem.hostAction n = s.hostAction n := rfl
@[simp] theorem memRead_asSystem (w : Width) (k : AccessKind) (a : Word) (s : State) :
    memRead w k a s.asSystem = memRead w k a s := rfl

@[simp] theorem condHolds_asSystem (s : State) (c : Cond) :
    condHolds s.asSystem.cpsr c = condHolds s.cpsr c := by
  cases c <;> rfl

theorem memWrite_asSystem (w : Width) (a v : Word) (s : State) :
    memWrite w a v s.asSystem = (memWrite w a v s).map State.asSystem := by
  cases halign : alignedTo w a with
  | false =>
    rw [memWrite_misaligned v halign, memWrite_misaligned v halign, Except.map]
  | true =>
    cases hcode : s.inCode w a with
    | true => rw [memWrite_code v halign hcode, memWrite_code (s := s.asSystem) v halign hcode,
        Except.map]
    | false =>
      cases hadm : s.admits w .write a with
      | false => rw [memWrite_refused v halign hcode hadm,
          memWrite_refused (s := s.asSystem) v halign hcode hadm, Except.map]
      | true =>
        have hsystem : memWrite w a v s.asSystem = .ok (s.store w a v).asSystem :=
          memWrite_ok.mpr ⟨halign, hcode, hadm, rfl⟩
        rw [memWrite_ok.mpr ⟨halign, hcode, hadm, rfl⟩, hsystem, Except.map]

theorem readWords_asSystem (n : Nat) (a : Word) (s : State) :
    readWords n a s.asSystem = readWords n a s := by
  induction n generalizing a with
  | zero => rfl
  | succ n ih =>
    simp only [readWords, memRead_asSystem, ih]

theorem writeWords_asSystem (vs : List Word) (a : Word) (s : State) :
    writeWords vs a s.asSystem = (writeWords vs a s).map State.asSystem := by
  induction vs generalizing a s with
  | nil => rfl
  | cons v vs ih =>
    simp only [writeWords, memWrite_asSystem]
    cases memWrite .word a v s with
    | error e => rfl
    | ok t => exact ih (a + 4#32) t

theorem multiRead_asSystem (n : Nat) (a : Word) (s : State) :
    multiRead n a s.asSystem = multiRead n a s := by
  simp only [multiRead, readWords_asSystem]

theorem multiWrite_asSystem (vs : List Word) (a : Word) (s : State) :
    multiWrite vs a s.asSystem = (multiWrite vs a s).map State.asSystem := by
  unfold multiWrite
  split
  · rfl
  · split
    · rfl
    · exact writeWords_asSystem vs a s

theorem cpsr_of_multiWrite {vs : List Word} {a : Word} {s t : State}
    (h : multiWrite vs a s = .ok t) : t.cpsr = s.cpsr := by
  rw [(writeWords_ok (multiWrite_ok.mp h).2.2).1]

theorem State.freeStored_asSystem (s : State) (a : Word) :
    s.asSystem.freeStored a = (s.freeStored a).asSystem := by
  simp only [State.freeStored, memWrite_asSystem, State.asSystem_draws]
  cases memWrite .word a (Config.freeWord s.draws) s <;> rfl

theorem State.freeStoredWords_asSystem (s : State) (a : Word) (n : Nat) :
    s.asSystem.freeStoredWords a n = (s.freeStoredWords a n).asSystem := by
  unfold State.freeStoredWords
  induction n with
  | zero => rfl
  | succ n ih =>
    rw [List.range_succ, List.foldl_append, List.foldl_append, ih]
    exact State.freeStored_asSystem _ _

/-! ### Exceptions (R252, R268) -/

/-- The entry of an exception saves the mode that it leaves, and does not read it otherwise. -/
theorem takeException_asSystem {e : Exception} {s : State} (he : e ≠ .reset) :
    takeException e s.asSystem = (takeException e s).systemTwin := by
  cases e with
  | reset => exact absurd rfl he
  | undefined | swi | prefetchAbort | dataAbort | irq | fiq => rfl

/-- So an instruction that takes one does the same in both modes. -/
theorem next_takeException_asSystem {e : Exception} {s : State} (he : e ≠ .reset) :
    (.next (takeException e s.asSystem) : Result) = answerTwin (.next (takeException e s)) := by
  rw [takeException_asSystem he, answerTwin]

theorem undefinedInstruction_asSystem (s : State) :
    undefinedInstruction s.asSystem = answerTwin (undefinedInstruction s) := by
  cases htraps : s.params.undefTraps with
  | true =>
    simp only [undefinedInstruction, State.asSystem_params, htraps, if_true]
    exact next_takeException_asSystem (by decide)
  | false =>
    rw [undefinedInstruction_of_not_traps htraps,
      undefinedInstruction_of_not_traps (s := s.asSystem) htraps, answerTwin]

theorem accessStop_asSystem (e : MemStop) (s : State) :
    accessStop e s.asSystem = answerTwin (accessStop e s) := by
  cases e with
  | misaligned | code | wrap => rfl
  | refused =>
    cases htraps : s.params.abortTraps with
    | true =>
      simp only [accessStop, State.asSystem_params, htraps, if_true]
      exact next_takeException_asSystem (by decide)
    | false => simp [accessStop, htraps, answerTwin]

/-! ### Registers (R20 to R24) -/

/-- User and System mode have one bank (R23). -/
theorem slot_system (r : RegNum) : slot .system r = slot .user r := by
  revert r
  decide

section
variable {s : State} (hu : s.cpsr.mode = .user)
include hu

theorem State.reg_asSystem : s.asSystem.reg = s.reg := by
  funext r
  have hbank : s.asSystem.bankReg .system r = s.bankReg s.cpsr.mode r := by
    rw [hu, State.bankReg, slot_system]
    rfl
  exact congrArg (ite (r = 15#4) (s.pc + 4#32)) hbank

theorem State.lo_asSystem : s.asSystem.lo = s.lo :=
  funext fun r => congrFun (State.reg_asSystem hu) (loNum r)

theorem State.sp_asSystem : s.asSystem.sp = s.sp := congrFun (State.reg_asSystem hu) 13#4

theorem State.lr_asSystem : s.asSystem.lr = s.lr := congrFun (State.reg_asSystem hu) 14#4

theorem State.setReg_asSystem (r : RegNum) (v : Word) :
    s.asSystem.setReg r v = (s.setReg r v).asSystem := by
  have hbank : s.asSystem.setBankReg .system r v = (s.setBankReg s.cpsr.mode r v).asSystem := by
    simp only [hu, State.setBankReg, slot_system]
    rfl
  unfold State.setReg
  split
  · rfl
  · exact hbank

theorem State.setLo_asSystem (r : Lo) (v : Word) :
    s.asSystem.setLo r v = (s.setLo r v).asSystem :=
  State.setReg_asSystem hu (loNum r) v

theorem State.setSp_asSystem (v : Word) : s.asSystem.setSp v = (s.setSp v).asSystem :=
  State.setReg_asSystem hu 13#4 v

theorem State.setLr_asSystem (v : Word) : s.asSystem.setLr v = (s.setLr v).asSystem :=
  State.setReg_asSystem hu 14#4 v

theorem State.freeReg_asSystem (r : RegNum) : s.asSystem.freeReg r = (s.freeReg r).asSystem := by
  have hset := State.setReg_asSystem hu r (Config.freeWord s.draws)
  exact congrArg (fun t : State => { t with draws := s.draws + 1 }) hset

theorem State.writeBackBase_asSystem (rn : Lo) (l : BitVec 8) (a : Word) :
    s.asSystem.writeBackBase rn l a = (s.writeBackBase rn l a).asSystem := by
  unfold State.writeBackBase
  split
  · rfl
  · exact State.setLo_asSystem hu rn a

end

theorem State.freeRegs_asSystem {s : State} (hu : s.cpsr.mode = .user) (rs : List RegNum) :
    s.asSystem.freeRegs rs = (s.freeRegs rs).asSystem := by
  induction rs generalizing s with
  | nil => rfl
  | cons r rs ih =>
    change (s.asSystem.freeReg r).freeRegs rs = ((s.freeReg r).freeRegs rs).asSystem
    rw [State.freeReg_asSystem hu, ih (by simpa using hu)]

theorem State.setList_asSystem {s : State} (hu : s.cpsr.mode = .user) (rs : List Lo)
    (vs : List Word) : s.asSystem.setList rs vs = (s.setList rs vs).asSystem := by
  unfold State.setList
  induction rs.zip vs generalizing s with
  | nil => rfl
  | cons p ps ih =>
    rw [List.foldl_cons, List.foldl_cons, State.setLo_asSystem hu, ih (by simpa using hu)]

/-! ### The ends of an instruction -/

section
variable {s : State} (hu : s.cpsr.mode = .user)
include hu

/-- An instruction that takes no exception leaves User mode alone. -/
theorem answerTwin_next_user : answerTwin (.next s) = .next s.asSystem := by
  simp only [answerTwin, State.systemTwin, hu, State.spsr]

theorem advance_asSystem : advance s.asSystem = answerTwin (advance s) := by
  by_cases hpc : s.pc = 0xFFFFFFFE#32
  · rw [advance_top hpc, advance_top (s := s.asSystem) hpc]
    rfl
  · rw [advance_eq s hpc, advance_eq s.asSystem hpc]
    exact (answerTwin_next_user (s := { s with pc := s.pc + 2#32 }) hu).symm

theorem exchange_asSystem (v : Word) : exchange v s.asSystem = answerTwin (exchange v s) := by
  unfold exchange
  split
  · exact (answerTwin_next_user
      (s := { s.setThumbPc v with cpsr := { s.cpsr with t := true } }) hu).symm
  · split
    · rfl
    · exact (answerTwin_next_user
        (s := { s with pc := v, cpsr := { s.cpsr with t := false } }) hu).symm

theorem popPc_asSystem (v : Word) : popPc v s.asSystem = answerTwin (popPc v s) := by
  cases h5t : s.params.arch5t with
  | true =>
    simp only [popPc, State.asSystem_params, h5t, if_true]
    exact exchange_asSystem hu v
  | false =>
    simp only [popPc, State.asSystem_params, h5t, Bool.false_eq_true, if_false]
    exact (answerTwin_next_user (s := s.setThumbPc v) hu).symm

theorem branchIf_asSystem (c : Cond) (off : Word) :
    branchIf c off s.asSystem = answerTwin (branchIf c off s) := by
  simp only [branchIf, condHolds_asSystem]
  split
  · exact (answerTwin_next_user (s := { s with pc := s.pc + 4#32 + off }) hu).symm
  · exact advance_asSystem hu

theorem finishArith_asSystem (rd : Lo) (a : AddResult) :
    finishArith rd a s.asSystem = answerTwin (finishArith rd a s) := by
  simp only [finishArith, State.setLo_asSystem hu]
  exact advance_asSystem (s := { s.setLo rd a.value with cpsr := s.cpsr.setArith a }) hu

theorem finishCompare_asSystem (a : AddResult) :
    finishCompare a s.asSystem = answerTwin (finishCompare a s) :=
  advance_asSystem (s := { s with cpsr := s.cpsr.setArith a }) hu

theorem finishLogic_asSystem (rd : Lo) (r : Word) :
    finishLogic rd r s.asSystem = answerTwin (finishLogic rd r s) := by
  simp only [finishLogic, State.setLo_asSystem hu]
  exact advance_asSystem (s := { s.setLo rd r with cpsr := s.cpsr.setNZ r }) hu

theorem finishTest_asSystem (r : Word) : finishTest r s.asSystem = answerTwin (finishTest r s) :=
  advance_asSystem (s := { s with cpsr := s.cpsr.setNZ r }) hu

theorem finishShift_asSystem (rd : Lo) (r : ShiftResult) :
    finishShift rd r s.asSystem = answerTwin (finishShift rd r s) := by
  simp only [finishShift, State.setLo_asSystem hu]
  exact advance_asSystem (s := { s.setLo rd r.value with cpsr := s.cpsr.setShift r }) hu

theorem finishMove_asSystem (rd : RegNum) (v : Word) :
    finishMove rd v s.asSystem = answerTwin (finishMove rd v s) := by
  have hset : (s.setReg rd v).cpsr.mode = .user := by rw [State.setReg_cpsr, hu]
  simp only [finishMove, State.setReg_asSystem hu]
  split
  · exact (answerTwin_next_user hset).symm
  · exact advance_asSystem hset

theorem finishLoad_asSystem (rd : Lo) (base : List RegNum) (w : Width) (ext : Word → Word)
    (a : Word) :
    finishLoad rd base w ext a s.asSystem = answerTwin (finishLoad rd base w ext a s) := by
  simp only [finishLoad, memRead_asSystem, State.setLo_asSystem hu, State.freeRegs_asSystem hu]
  split
  · exact advance_asSystem (by rw [State.setLo_cpsr, hu])
  · exact accessStop_asSystem _ _

theorem finishStore_asSystem (base : List RegNum) (w : Width) (a v : Word) :
    finishStore base w a v s.asSystem = answerTwin (finishStore base w a v s) := by
  simp only [finishStore, memWrite_asSystem, State.freeRegs_asSystem hu]
  cases hwrite : memWrite w a v s with
  | ok t =>
    obtain ⟨-, -, -, rfl⟩ := memWrite_ok.mp hwrite
    exact advance_asSystem (s := s.store w a v) hu
  | error e => exact accessStop_asSystem e _

/-! ### Multiple transfers -/

theorem abortedStore_asSystem (e : MemStop) (a : Word) (n : Nat) (rs : List RegNum) :
    accessStop e ((s.asSystem.freeStoredWords a n).freeRegs rs) =
      answerTwin (accessStop e ((s.freeStoredWords a n).freeRegs rs)) := by
  have hfree : (s.freeStoredWords a n).cpsr.mode = .user := by
    rw [(s.freeStoredWords_keeps a n).2.1, hu]
  rw [State.freeStoredWords_asSystem, State.freeRegs_asSystem hfree, accessStop_asSystem]

theorem execStmia_asSystem (rn : Lo) (l : BitVec 8) :
    execStmia rn l s.asSystem = answerTwin (execStmia rn l s) := by
  simp only [execStmia, State.lo_asSystem hu, multiWrite_asSystem]
  split
  · rfl
  · split
    · rfl
    · cases hwrite : multiWrite ((listRegs l).map s.lo) (s.lo rn) s with
      | ok t =>
        have ht : t.cpsr.mode = .user := by rw [cpsr_of_multiWrite hwrite, hu]
        simp only [Except.map, State.setLo_asSystem ht]
        exact advance_asSystem (by rw [State.setLo_cpsr, ht])
      | error e => exact abortedStore_asSystem hu e _ _ _

theorem execPush_asSystem (r : Bool) (l : BitVec 8) :
    execPush r l s.asSystem = answerTwin (execPush r l s) := by
  have hstart : pushStart r l s.asSystem = pushStart r l s := by
    rw [pushStart, State.sp_asSystem hu, pushStart]
  have hvalues : pushValues r l s.asSystem = pushValues r l s := by
    rw [pushValues, State.lo_asSystem hu, State.lr_asSystem hu, pushValues]
  simp only [execPush, hstart, hvalues, multiWrite_asSystem]
  split
  · rfl
  · cases hwrite : multiWrite (pushValues r l s) (pushStart r l s) s with
    | ok t =>
      have ht : t.cpsr.mode = .user := by rw [cpsr_of_multiWrite hwrite, hu]
      simp only [Except.map, State.setSp_asSystem ht]
      exact advance_asSystem (by rw [State.setSp_cpsr, ht])
    | error e => exact abortedStore_asSystem hu e _ _ _

theorem execLdmia_asSystem (rn : Lo) (l : BitVec 8) :
    execLdmia rn l s.asSystem = answerTwin (execLdmia rn l s) := by
  have hback : (s.writeBackBase rn l (afterWords (s.lo rn) (listCount l))).cpsr.mode = .user := by
    obtain ⟨-, -, -, -, -, -, -, hcpsr⟩ :=
      ((RegsOnly.refl s).writeBackBase rn l (afterWords (s.lo rn) (listCount l))).keeps 0
    rw [hcpsr, hu]
  simp only [execLdmia, State.lo_asSystem hu, multiRead_asSystem, State.freeRegs_asSystem hu,
    State.writeBackBase_asSystem hu, State.setList_asSystem hback]
  split
  · rfl
  · split
    · exact advance_asSystem (by rw [(State.setList_keeps _ _ _).1, hback])
    · exact accessStop_asSystem _ _

theorem execPop_asSystem (r : Bool) (l : BitVec 8) :
    execPop r l s.asSystem = answerTwin (execPop r l s) := by
  have hlist : ∀ vs, (s.setList (listRegs l) vs).cpsr.mode = .user := fun vs => by
    rw [(s.setList_keeps _ vs).1, hu]
  simp only [execPop, State.sp_asSystem hu, multiRead_asSystem, State.freeRegs_asSystem hu,
    State.setList_asSystem hu, State.setSp_asSystem (hlist _)]
  split
  · rfl
  · split
    · have hsp : ∀ vs v, ((s.setList (listRegs l) vs).setSp v).cpsr.mode = .user := fun vs v => by
        rw [State.setSp_cpsr, hlist vs]
      split
      · exact popPc_asSystem (hsp _ _) _
      · exact advance_asSystem (hsp _ _)
    · exact accessStop_asSystem _ _

/-! ### Instructions that end in a way of their own -/

theorem execMulReg_asSystem (rd rm : Lo) :
    execMulReg rd rm s.asSystem = answerTwin (execMulReg rd rm s) := by
  simp only [execMulReg, State.lo_asSystem hu, State.asSystem_params]
  split
  · exact finishLogic_asSystem hu _ _
  · exact finishShift_asSystem (s := { s with draws := s.draws + 1 }) hu _ _

theorem execBlSuffix_asSystem (off11 : BitVec 11) :
    execBlSuffix off11 s.asSystem = answerTwin (execBlSuffix off11 s) := by
  have hlink : (s.setLr s.linkValue).cpsr.mode = .user := by rw [State.setLr_cpsr, hu]
  simp only [execBlSuffix, State.lr_asSystem hu, State.linkValue_asSystem,
    State.setLr_asSystem hu]
  split
  · rfl
  · exact (answerTwin_next_user
      (s := { s.setLr s.linkValue with pc := s.lr + offsetLow off11 }) hlink).symm

theorem execBlxSuffix_asSystem (off10 : BitVec 10) :
    execBlxSuffix off10 s.asSystem = answerTwin (execBlxSuffix off10 s) := by
  have hlink : (s.setLr s.linkValue).cpsr.mode = .user := by rw [State.setLr_cpsr, hu]
  simp only [execBlxSuffix, State.lr_asSystem hu, State.linkValue_asSystem, State.asSystem_params,
    State.setLr_asSystem hu]
  split
  · exact undefinedInstruction_asSystem s
  · exact (answerTwin_next_user (s := { s.setLr s.linkValue with
      pc := (s.lr + offsetLowX off10) &&& 0xFFFFFFFC#32
      cpsr := { s.cpsr with t := false } }) hu).symm

theorem execBlxReg_asSystem (rm : RegNum) (sbz : BitVec 3) :
    execBlxReg rm sbz s.asSystem = answerTwin (execBlxReg rm sbz s) := by
  simp only [execBlxReg, State.reg_asSystem hu, State.linkValue_asSystem, State.asSystem_params,
    State.setLr_asSystem hu]
  split
  · exact undefinedInstruction_asSystem s
  · split
    · rfl
    · split
      · rfl
      · exact exchange_asSystem (by rw [State.setLr_cpsr, hu]) _

theorem execSwi_asSystem (n : BitVec 8) : execSwi n s.asSystem = answerTwin (execSwi n s) := by
  simp only [execSwi, State.hostAction_asSystem]
  split
  · exact next_takeException_asSystem (e := .swi) (by decide)
  · simp only [hostWriteC, State.lo_asSystem hu]
    exact advance_asSystem
      (s := { s with output := s.output ++ [(s.lo 0#3).extractLsb' 0 8] }) hu
  · exact (answerTwin_next_user (s := { s with ended := true }) hu).symm

end

/-- Begun in System mode, an instruction answers the twin of what it answers in User mode. -/
theorem exec_asSystem {s : State} (hu : s.cpsr.mode = .user) (i : Instr) :
    exec i s.asSystem = answerTwin (exec i s) := by
  have hlo := State.lo_asSystem hu
  have hreg := State.reg_asSystem hu
  have hsp := State.sp_asSystem hu
  cases i
  case addReg | subReg | addImm3 | subImm3 | addImm8 | subImm8 | adcReg | sbcReg | negReg =>
    simp only [exec, execAddReg, execSubReg, execAddImm3, execSubImm3, execAddImm8, execSubImm8,
      execAdcReg, execSbcReg, execNegReg, hlo]
    exact finishArith_asSystem hu _ _
  case cmpImm8 | cmpReg | cmnReg =>
    simp only [exec, execCmpImm8, execCmpReg, execCmnReg, hlo]
    exact finishCompare_asSystem hu _
  case tstReg =>
    simp only [exec, execTstReg, hlo]
    exact finishTest_asSystem hu _
  case movImm8 | andReg | eorReg | orrReg | bicReg | mvnReg =>
    simp only [exec, execMovImm8, execAndReg, execEorReg, execOrrReg, execBicReg, execMvnReg, hlo]
    exact finishLogic_asSystem hu _ _
  case lslImm | lsrImm | asrImm | lslReg | lsrReg | asrReg | rorReg =>
    simp only [exec, execLslImm, execLsrImm, execAsrImm, execLslReg, execLsrReg, execAsrReg,
      execRorReg, hlo]
    exact finishShift_asSystem hu _ _
  case mulReg rd rm => exact execMulReg_asSystem hu rd rm
  case addHi | movHi =>
    simp only [exec, execAddHi, execMovHi, hreg]
    split
    · exact finishMove_asSystem hu _ _
    · rfl
  case cmpHi =>
    simp only [exec, execCmpHi, hreg]
    split
    · rfl
    · split
      · rfl
      · exact finishCompare_asSystem hu _
  case addRdPc => exact finishMove_asSystem hu _ _
  case addRdSp =>
    simp only [exec, execAddRdSp, hsp]
    exact finishMove_asSystem hu _ _
  case addSp | subSp =>
    simp only [exec, execAddSp, execSubSp, hsp, State.setSp_asSystem hu]
    exact advance_asSystem (by rw [State.setSp_cpsr, hu])
  case b off11 =>
    exact (answerTwin_next_user (s := { s with pc := s.pc + 4#32 + offset11 off11 }) hu).symm
  case blPrefix =>
    simp only [exec, execBlPrefix, State.setLr_asSystem hu]
    exact advance_asSystem (by rw [State.setLr_cpsr, hu])
  case blSuffix off11 => exact execBlSuffix_asSystem hu off11
  case blxSuffix off10 => exact execBlxSuffix_asSystem hu off10
  case bx =>
    simp only [exec, execBx, hreg]
    split
    · rfl
    · exact exchange_asSystem hu _
  case blxReg rm sbz => exact execBlxReg_asSystem hu rm sbz
  case swi n => exact execSwi_asSystem hu n
  case ldrImm | ldrbImm | ldrhImm | ldrReg | ldrhReg | ldrshReg | ldrbReg | ldrsbReg =>
    simp only [exec, execLdrImm, execLdrbImm, execLdrhImm, execLdrReg, execLdrhReg, execLdrshReg,
      execLdrbReg, execLdrsbReg, addrOff5, addrIndexed, hlo]
    exact finishLoad_asSystem hu _ _ _ _ _
  case ldrPc => exact finishLoad_asSystem hu _ _ _ _ _
  case ldrSp =>
    simp only [exec, execLdrSp, addrSpOff8, hsp]
    exact finishLoad_asSystem hu _ _ _ _ _
  case strImm | strbImm | strhImm | strReg | strhReg | strbReg | strSp =>
    simp only [exec, execStrImm, execStrbImm, execStrhImm, execStrReg, execStrhReg, execStrbReg,
      execStrSp, addrOff5, addrIndexed, addrSpOff8, hlo, hsp]
    exact finishStore_asSystem hu _ _ _ _
  case ldmia rn l => exact execLdmia_asSystem hu rn l
  case stmia rn l => exact execStmia_asSystem hu rn l
  case push r l => exact execPush_asSystem hu r l
  case pop r l => exact execPop_asSystem hu r l
  all_goals exact branchIf_asSystem hu _ _

end Sys2Proof.Machine

namespace Sys2Proof.Proofs

open Sys2Proof.Machine

/-- Settles O27: the answer in System mode is the twin of the answer in User mode, which is the same
fault, or the next state in System mode or with System saved. -/
theorem userAndSystemAgree : Obligations.UserAndSystemAgree := by
  unfold Obligations.UserAndSystemAgree
  intro i s hu
  rw [exec_asSystem hu i]
  exact ⟨fun f => answerTwin_eq_fault.symm, fun t h => by rw [h, answerTwin]⟩

end Sys2Proof.Proofs
end

section
/-! PROOF. Reset, launch and the endings of a run (70_reset_and_hazards.md): no instruction is refused
and so only an ended run or ARM state refuses a step; what the state of a launch holds. -/

namespace Sys2Proof.Machine

/-! ### No operation is refused -/

/-- The answer is a next state or one of the spec's faults. -/
def NotRefused (r : Result) : Prop := ∀ e, r ≠ .refused e

theorem notRefused_next (s : State) : NotRefused (.next s) := fun _ h => nomatch h

theorem notRefused_fault (f : Fault) : NotRefused (.fault f) := fun _ h => nomatch h

theorem NotRefused.ite {c : Prop} [Decidable c] {p q : Result} (hp : NotRefused p)
    (hq : NotRefused q) : NotRefused (if c then p else q) := by
  split
  · exact hp
  · exact hq

section
variable (s : State)

theorem notRefused_advance : NotRefused (advance s) :=
  .ite (notRefused_fault _) (notRefused_next _)

theorem notRefused_undefinedInstruction : NotRefused (undefinedInstruction s) :=
  .ite (notRefused_next _) (notRefused_fault _)

theorem notRefused_accessStop (e : MemStop) : NotRefused (accessStop e s) := by
  cases e with
  | misaligned | code | wrap => exact notRefused_fault _
  | refused => exact .ite (notRefused_next _) (notRefused_fault _)

theorem notRefused_fetchStop (e : MemStop) : NotRefused (fetchStop e s) := by
  cases e with
  | misaligned | code | wrap => exact notRefused_fault _
  | refused => exact .ite (notRefused_next _) (notRefused_fault _)

theorem notRefused_exchange (v : Word) : NotRefused (exchange v s) :=
  .ite (notRefused_next _) (.ite (notRefused_fault _) (notRefused_next _))

theorem notRefused_popPc (v : Word) : NotRefused (popPc v s) :=
  .ite (notRefused_exchange s v) (notRefused_next _)

theorem notRefused_branchIf (c : Cond) (off : Word) : NotRefused (branchIf c off s) :=
  .ite (notRefused_next _) (notRefused_advance s)

theorem notRefused_finishMove (rd : RegNum) (v : Word) : NotRefused (finishMove rd v s) :=
  .ite (notRefused_next _) (notRefused_advance _)

theorem notRefused_finishLoad (rd : Lo) (base : List RegNum) (w : Width) (ext : Word → Word)
    (a : Word) : NotRefused (finishLoad rd base w ext a s) := by
  unfold finishLoad
  split
  · exact notRefused_advance _
  · exact notRefused_accessStop _ _

theorem notRefused_finishStore (base : List RegNum) (w : Width) (a v : Word) :
    NotRefused (finishStore base w a v s) := by
  unfold finishStore
  split
  · exact notRefused_advance _
  · exact notRefused_accessStop _ _

/-! ### No instruction is refused -/

theorem notRefused_execStmia (rn : Lo) (l : BitVec 8) : NotRefused (execStmia rn l s) := by
  refine .ite (notRefused_fault _) (.ite (notRefused_fault _) ?_)
  split
  · exact notRefused_advance _
  · exact notRefused_accessStop _ _

theorem notRefused_execLdmia (rn : Lo) (l : BitVec 8) : NotRefused (execLdmia rn l s) := by
  refine .ite (notRefused_fault _) ?_
  split
  · exact notRefused_advance _
  · exact notRefused_accessStop _ _

theorem notRefused_execPush (r : Bool) (l : BitVec 8) : NotRefused (execPush r l s) := by
  refine .ite (notRefused_fault _) ?_
  split
  · exact notRefused_advance _
  · exact notRefused_accessStop _ _

theorem notRefused_execPop (r : Bool) (l : BitVec 8) : NotRefused (execPop r l s) := by
  refine .ite (notRefused_fault _) ?_
  split
  · exact .ite (notRefused_popPc _ _) (notRefused_advance _)
  · exact notRefused_accessStop _ _

theorem notRefused_execSwi (n : BitVec 8) : NotRefused (execSwi n s) := by
  unfold execSwi
  split
  · exact notRefused_next _
  · exact notRefused_advance _
  · exact notRefused_next _

/-- Every instruction of the table has a meaning: its arm ends in one of the operations above. -/
theorem notRefused_exec (i : Instr) : NotRefused (exec i s) := by
  cases i
  case mulReg => exact .ite (notRefused_advance _) (notRefused_advance _)
  case addHi | movHi => exact .ite (notRefused_finishMove _ _ _) (notRefused_fault _)
  case cmpHi =>
    exact .ite (notRefused_fault _) (.ite (notRefused_fault _) (notRefused_advance _))
  case addRdPc | addRdSp => exact notRefused_finishMove _ _ _
  case b => exact notRefused_next _
  case blSuffix => exact .ite (notRefused_fault _) (notRefused_next _)
  case blxSuffix => exact .ite (notRefused_undefinedInstruction s) (notRefused_next _)
  case bx => exact .ite (notRefused_fault _) (notRefused_exchange _ _)
  case blxReg =>
    exact .ite (notRefused_undefinedInstruction s)
      (.ite (notRefused_fault _) (.ite (notRefused_fault _) (notRefused_exchange _ _)))
  case beq | bne | bcs | bcc | bmi | bpl | bvs | bvc | bhi | bls | bge | blt | bgt | ble =>
    exact notRefused_branchIf _ _ _
  case swi n => exact notRefused_execSwi s n
  case ldrImm | ldrbImm | ldrhImm | ldrReg | ldrhReg | ldrbReg | ldrsbReg | ldrshReg | ldrPc |
      ldrSp => exact notRefused_finishLoad _ _ _ _ _ _
  case strImm | strbImm | strhImm | strReg | strhReg | strbReg | strSp =>
    exact notRefused_finishStore _ _ _ _ _
  case stmia rn l => exact notRefused_execStmia s rn l
  case ldmia rn l => exact notRefused_execLdmia s rn l
  case push r l => exact notRefused_execPush s r l
  case pop r l => exact notRefused_execPop s r l
  -- what is left writes its results and moves on by one instruction
  all_goals exact notRefused_advance _

theorem notRefused_runInstruction : NotRefused (runInstruction s) := by
  unfold runInstruction
  split
  · exact notRefused_fetchStop _ _
  · exact notRefused_undefinedInstruction _
  · exact notRefused_exec _ _

end

/-! ### The endings of a run (R299) -/

section
variable {s : State}

theorem step_of_arm (hended : s.ended = false) (harm : s.cpsr.t = false) :
    step s = .refused .armState := by
  simp [step, hended, harm]

theorem notRefused_step (hended : s.ended = false) (hthumb : s.cpsr.t = true) :
    NotRefused (step s) := by
  cases hdue : s.dueInterrupt with
  | some e =>
    rw [step_of_due hended hthumb hdue]
    exact notRefused_next _
  | none =>
    rw [step_of_running ⟨hended, hthumb, hdue⟩]
    exact notRefused_runInstruction _

theorem State.ending_isSome : s.ending.isSome = true ↔ s.ended = true ∨ s.cpsr.t = false := by
  cases hended : s.ended <;> cases hthumb : s.cpsr.t <;> simp [State.ending, hended, hthumb]

theorem step_refused_iff : (∃ r, step s = .refused r) ↔ s.ended = true ∨ s.cpsr.t = false := by
  constructor
  · rintro ⟨r, hr⟩
    by_contra hrun
    obtain ⟨hended, hthumb⟩ := not_or.mp hrun
    exact notRefused_step (Bool.eq_false_of_not_eq_true hended) (Bool.eq_true_of_not_eq_false hthumb)
      r hr
  · intro hending
    cases hended : s.ended with
    | true => exact ⟨.runEnded, step_of_ended hended⟩
    | false => exact ⟨.armState, step_of_arm hended (hending.resolve_left (by simp [hended]))⟩

end

/-! ### The registers of a launch -/

section
variable (s : State) (regs : List (RegNum × Word))

@[simp] theorem State.launchRegs_pc : (s.launchRegs regs).pc = s.pc := by
  rw [State.launchRegs_keeps]
@[simp] theorem State.launchRegs_cpsr : (s.launchRegs regs).cpsr = s.cpsr := by
  rw [State.launchRegs_keeps]
@[simp] theorem State.launchRegs_mem : (s.launchRegs regs).mem = s.mem := by
  rw [State.launchRegs_keeps]
@[simp] theorem State.launchRegs_params : (s.launchRegs regs).params = s.params := by
  rw [State.launchRegs_keeps]
@[simp] theorem State.launchRegs_lines : (s.launchRegs regs).lines = s.lines := by
  rw [State.launchRegs_keeps]
@[simp] theorem State.launchRegs_output : (s.launchRegs regs).output = s.output := by
  rw [State.launchRegs_keeps]
@[simp] theorem State.launchRegs_ended : (s.launchRegs regs).ended = s.ended := by
  rw [State.launchRegs_keeps]

end

/-- Of two values for one register the later stands. -/
theorem State.reg_launchRegs_last (s : State) (before after : List (RegNum × Word)) {r : RegNum}
    (v : Word) (hr : r ≠ 15#4) (hlast : ∀ p ∈ after, p.1 ≠ r) :
    (s.launchRegs (before ++ (r, v) :: after)).reg r = v := by
  have hsplit : s.launchRegs (before ++ (r, v) :: after) =
      ((s.launchRegs before).setReg r v).launchRegs after := by
    simp [State.launchRegs, List.foldl_append, hr]
  rw [hsplit, State.reg_launchRegs _ _ _ hlast, State.reg_setReg _ _ _ _ hr, if_pos rfl]

/-! ### The state of a launch (R291) -/

/-- The state of a launch in mode `m` before any register is named. -/
def Launch.unnamed (l : Launch) (m : Mode) : State :=
  { State.reset with
    pc := l.entry
    cpsr := { n := l.n, z := l.z, c := l.c, v := l.v, unused := l.unused, i := l.i, f := l.f,
              t := true, mode := m }
    mem := imageMemory l.image
    lines := l.lines
    params := { l.params with memMap := imageMap l.params.memMap l.image } }

section
variable {l : Launch} {s : State}

theorem launch_eq_none : launch l = none ↔
    l.entry.getLsbD 0 = true ∨ Mode.ofNumber l.mode = none ∨ l.oddSp = true := by
  unfold launch
  cases l.entry.getLsbD 0 <;> cases l.oddSp <;> cases Mode.ofNumber l.mode <;> simp

theorem launch_eq_some : launch l = some s ↔
    l.entry.getLsbD 0 = false ∧ l.oddSp = false ∧
      ∃ m, Mode.ofNumber l.mode = some m ∧ s = (l.unnamed m).launchRegs l.regs := by
  unfold launch
  cases l.entry.getLsbD 0 <;> cases l.oddSp <;> cases Mode.ofNumber l.mode <;>
    simp [Launch.unnamed, @eq_comm _ s]

theorem Launch.oddSp_iff :
    l.oddSp = true ↔ ∃ v : Word, (13#4, v) ∈ l.regs ∧ v.toNat % 4 ≠ 0 := by
  unfold Launch.oddSp
  rw [List.any_eq_true]
  constructor
  · rintro ⟨⟨r, v⟩, hmem, hodd⟩
    obtain ⟨rfl, hv⟩ : r = 13#4 ∧ v.toNat % 4 ≠ 0 := by simpa using hodd
    exact ⟨v, hmem, hv⟩
  · rintro ⟨v, hmem, hv⟩
    exact ⟨(13#4, v), hmem, by simpa using hv⟩

theorem Mode.number_of_ofNumber {n : BitVec 5} {m : Mode} (h : Mode.ofNumber n = some m) :
    m.number = n := by
  simpa using List.find?_some h

/-- A launch admits what it names, inside its image. -/
theorem admits_launch (m : Mode) (w : Width) (kind : AccessKind) (a : Word) :
    ((l.unnamed m).launchRegs l.regs).admits w kind a = true ↔
      (∃ r ∈ l.params.memMap, regionAdmits r w kind a.toNat = true) ∧
        ∀ k < widthBytes w, ∃ c ∈ l.image, c.1 = a.toNat + k := by
  rw [State.admits, State.launchRegs_params, ← List.any_eq_true]
  exact imageMap_admits l.params.memMap l.image w kind a.toNat

/-- An even entry address and the canonical memory of an image make the invariant. -/
theorem inv_launch (heven : l.entry.getLsbD 0 = false) (m : Mode) :
    ((l.unnamed m).launchRegs l.regs).Inv := by
  refine ⟨⟨?_, ?_⟩, ?_⟩
  · rw [State.launchRegs_pc]
    exact heven
  · rw [State.launchRegs_cpsr]
    exact fun harm => nomatch harm
  · rw [State.launchRegs_mem]
    exact wf_imageMemory l.image

end

end Sys2Proof.Machine

namespace Sys2Proof.Proofs

open Sys2Proof.Machine

/-- Settles O10: in a running Thumb state a step is an interrupt's entry or an instruction, and neither
is refused. -/
theorem endingsAreTheOnlyRefusals : Obligations.EndingsAreTheOnlyRefusals := by
  unfold Obligations.EndingsAreTheOnlyRefusals
  exact ⟨fun s => step_refused_iff.trans State.ending_isSome.symm, fun i s => notRefused_exec s i⟩

/-- Settles O14: the state of a launch is its unnamed state with the registers written in turn, which
touch none of the other rows. -/
theorem launchState : Obligations.LaunchState := by
  unfold Obligations.LaunchState
  intro l
  constructor
  · rw [launch_eq_none, Mode.ofNumber_eq_none, Launch.oddSp_iff]
    rfl
  · intro s hs
    obtain ⟨heven, -, m, hm, rfl⟩ := launch_eq_some.mp hs
    refine ⟨?pc, ?thumb, ?mode, ?i, ?f, ?n, ?z, ?c, ?v, ?unused, ?lines, ?params,
      admits_launch m, fun before after r v hregs hr hlast => ?regs,
      fun before after a b himage ha hlast => ?image, ?output, ?ended, inv_launch heven m⟩
    case mode =>
      rw [State.launchRegs_cpsr]
      exact Mode.number_of_ofNumber hm
    case regs =>
      rw [hregs]
      exact State.reg_launchRegs_last _ before after v hr hlast
    case image =>
      rw [State.byteAt, State.launchRegs_mem, Launch.unnamed, himage]
      exact read_imageMemory before after a b ha hlast
    all_goals simp [Launch.unnamed, State.reset]

/-- Settles O13: the reset state is in ARM state, and no Exit has ended its run. -/
theorem resetValues : Obligations.ResetValues := by
  unfold Obligations.ResetValues
  exact ⟨rfl, rfl, rfl, rfl, rfl, step_of_arm rfl rfl⟩

end Sys2Proof.Proofs
end
